-- ==== Sys2Proof/Word.lean ====
section
/-! DEFINITION. The word types of the block: bytes of the buffers and of a frame, 32-bit registers and
command words (R95), offsets of the 16 KiB host space (R60). -/

namespace Sys2Proof

/-- A byte: 8 bits with value 0..255 (R10). -/
abbrev Byte := BitVec 8

/-- A register, an `INT` entry or a command word: 32 bits (R61, R66, R95). -/
abbrev Word := BitVec 32

/-- An offset in the host space, `0x0000` to `0x3FFF` (R60). -/
abbrev Offset := BitVec 14

end Sys2Proof
end

