-- ==== Sys2Proof/Config.lean ====
section
/-! DEFINITION. What an instance of the block fixes (R8) and what nothing in the spec fixes: the types of the open
parameters, of a tap request and its answer (R183), the parameter values the model names for reset, and the free
values, which are opaque. -/

namespace Sys2Proof

/-- A fraction, the value of a rational parameter (R8). -/
structure Frac where
  num : Nat
  den : Nat
deriving DecidableEq, Repr

/-- The open parameters of R8. They are part of the state (`State.params`), because the constant registers of R39 show
them; no command and no host access changes them. -/
structure Params where
  /-- `RING_SECTORS[0]`. -/
  ring0 : Nat
  /-- `RING_SECTORS[1]`. -/
  ring1 : Nat
  /-- `RING_SECTORS[2]`. -/
  ring2 : Nat
  /-- `RING_SECTORS[3]`. -/
  ring3 : Nat
  /-- `RING_SECTORS[4]`. -/
  ring4 : Nat
  /-- `RING_SECTORS[5]`. -/
  ring5 : Nat
  /-- `START_FIRST_BIT`. -/
  startFirstBit : Bool
  /-- `VERSION_CONST`. -/
  versionConst : Byte
  /-- `ANGLE_KEEP_FRAC`. -/
  angleKeepFrac : Frac
  /-- `RADIUS_TAP`, 0..15. -/
  radiusTap : BitVec 4
  /-- `ARC_FILL_FRAC`. -/
  arcFillFrac : Frac
deriving DecidableEq, Repr

/-- `RING_SECTORS[r]`; 0 for an index that names no ring. -/
def Params.sectors (p : Params) : Nat → Nat
  | 0 => p.ring0
  | 1 => p.ring1
  | 2 => p.ring2
  | 3 => p.ring3
  | 4 => p.ring4
  | 5 => p.ring5
  | _ => 0

/-- A rational in (0, 1]: `0 < F ≤ 1` (R8). -/
abbrev Frac.Proper (f : Frac) : Prop := 0 < f.num ∧ f.num ≤ f.den

/-- The constraints of R8 and R110: six sector counts in 1..2047 whose sum is 1344, two proper fractions. -/
abbrev Params.Valid (p : Params) : Prop :=
  (∀ r < 6, 1 ≤ p.sectors r ∧ p.sectors r ≤ 2047) ∧
  p.ring0 + p.ring1 + p.ring2 + p.ring3 + p.ring4 + p.ring5 = 1344 ∧
  p.angleKeepFrac.Proper ∧ p.arcFillFrac.Proper

/-- The parameter values the state after reset has: the column "vectors use" of R8.
DESIGN CHOICE (log 1), unsafe: the spec leaves every one of them open; no meaning reads them from here. -/
def Config.params : Params where
  ring0 := 144
  ring1 := 176
  ring2 := 208
  ring3 := 240
  ring4 := 272
  ring5 := 304
  startFirstBit := true
  versionConst := 1
  angleKeepFrac := { num := 3, den := 5 }
  radiusTap := 1
  arcFillFrac := { num := 4, den := 5 }

/-- The argument tuple `(v, r, s, k, d, a)` of `Tap` (R183). -/
structure TapRequest where
  /-- Variant `v`. -/
  var : Nat
  /-- Ring `r`. -/
  ring : Nat
  /-- Sector `s`. -/
  sector : Nat
  /-- Sub-sample `k`. -/
  sub : Nat
  /-- Radial offset `d` in pixels, signed (R12, R182). -/
  offset : Int
  /-- Anchor shift `a`. -/
  shift : Nat
deriving DecidableEq, Repr

/-- What the tap-fetch unit does with a request: an intensity, "out of bounds" (R183), or no answer at all (R268). -/
inductive TapAnswer
  | pixel (u : Byte)
  | outOfBounds
  | silent
deriving DecidableEq, Repr, Inhabited

/-- FREE VALUE (log 7): the answers of tap-fetch unit number `n`, any function whatever of the request (R183, R8). -/
opaque Config.tap : Nat → TapRequest → TapAnswer

/-- FREE VALUE (log 10): what the `n`-th unspecified host read returns (R62, R72; U2, U3). -/
opaque Config.freeRead : Nat → Word

end Sys2Proof
end

