-- ==== Sys2Proof/Machine/State.lean ====
section
/-! DEFINITION. The state of the block (R20), of the agents around it as far as a step reads them (R4), the state after
reset (R43, R261), and the reasons a step can stop. Plain data throughout. -/

namespace Sys2Proof.Machine

/-- The status codes (R231). Codes 9 to 15 are never produced (U8) and have no constructor. -/
inductive Code
  /-- 0 `NONE`: no command has completed since reset. -/
  | noCode
  /-- 1 `OK`. -/
  | ok
  /-- 2 `PayloadTooLarge` (R232). -/
  | payloadTooLarge
  /-- 3 `HeaderChecksumMismatch` (R233). -/
  | headerChecksumMismatch
  /-- 4 `PayloadLengthInvalid` (R234). -/
  | payloadLengthInvalid
  /-- 5 `InsufficientBits` (R235): no command produces it. -/
  | insufficientBits
  /-- 6 `RedundancyValidationFailed` (R237). -/
  | redundancyValidationFailed
  /-- 7 `SearchExhausted` (R238). -/
  | searchExhausted
  /-- 8 `IllegalCommand` (R239). -/
  | illegalCommand
deriving DecidableEq, Repr

/-- `HDR_LO` and `HDR_HI` by field (R31). -/
structure Header where
  /-- `VER`: header byte 0. -/
  ver : Byte
  /-- `ECC`: header byte 1. -/
  ecc : Byte
  /-- `PAYLEN`: header bytes 2 and 3. -/
  payLen : BitVec 16
  /-- `REDLEN`: header bytes 4 and 5. -/
  redLen : BitVec 16
  /-- `CKSUM`: header byte 6. -/
  cksum : Byte
  /-- `CKCALC`: the recomputed checksum. -/
  ckCalc : Byte
deriving DecidableEq, Repr

/-- `HYP` by field (R34). -/
structure HypReg where
  /-- `VAR`. -/
  var : BitVec 3
  /-- `INV`. -/
  inv : Bool
  /-- `BIAS`. -/
  bias : BitVec 3
  /-- `MODE`: false percentile, true histogram-split. -/
  mode : Bool
  /-- `SHIFT`. -/
  shift : BitVec 11
  /-- `VALID`. -/
  valid : Bool
deriving DecidableEq, Repr

/-- `PROGRESS` by field (R36). -/
structure ProgressReg where
  /-- `VAR`. -/
  var : BitVec 3
  /-- `NV`. -/
  nv : BitVec 3
  /-- `COUNT`. -/
  count : Byte
deriving DecidableEq, Repr

/-- `MAP_RS` by field (R38). -/
structure MapRs where
  /-- `RING`. -/
  ring : BitVec 3
  /-- `SECTOR`. -/
  sector : BitVec 11
deriving DecidableEq, Repr

/-- One progress event `Progress(var, nv)` (R243). -/
structure ProgressEvent where
  /-- `PROG_VAR`. -/
  var : BitVec 3
  /-- `PROG_NV`. -/
  nv : BitVec 3
deriving DecidableEq, Repr

/-- The size of a host access: 1, 2 or 4 bytes (R62). -/
inductive AccessSize
  | byte
  | half
  | word
deriving DecidableEq, Repr

/-- A host access, `MemRead(addr, n)` or `MemWrite(addr, n, v)` (R12, R62). -/
inductive HostAccess
  | read (addr : Offset) (size : AccessSize)
  | write (addr : Offset) (size : AccessSize) (value : Word)
deriving DecidableEq, Repr

/-- One row of a tap-fetch unit's answers; a field that is `none` matches every request. -/
structure TapRow where
  var : Option Nat
  ring : Option Nat
  sector : Option Nat
  sub : Option Nat
  offset : Option Int
  shift : Option Nat
  answer : TapAnswer
deriving DecidableEq, Repr

/-- The tap-fetch unit (R4, R183): either known by a table, whose first matching row answers and which answers `other`
where no row matches, or known only as the free function number `n` (log 7). -/
inductive TapUnit
  | table (rows : List TapRow) (other : TapAnswer)
  | free (n : Nat)
deriving DecidableEq, Repr

/-- What happens next around the engine (log 4). -/
inductive Input
  /-- The engine has its turn: a command that was accepted runs (R33, R70). -/
  | engine
  /-- The host makes one access (R62). -/
  | host (access : HostAccess)
  /-- `RST` is asserted and released (R260). -/
  | rst
  /-- The tap-fetch unit comes to hold other surfaces (R263, R267). -/
  | surfaces (unit : TapUnit)
deriving DecidableEq, Repr

/-- The data buffers (R20). -/
inductive Buffer
  | txt
  | cw
  | out
  | red
  | bits
  | int
deriving DecidableEq, Repr

/-- The state. -/
structure State where
  /-- `TXT`, `CW`, `OUT`, `RED` (R21, R23, R24, R25): the bytes written since reset, by host offset (R61). -/
  mem : List Host.Cell
  /-- `BITS` (R26): the bits written since reset, by bit index. -/
  bits : List (Nat × Bool)
  /-- `INT` (R27, R28): the entries written since reset, by linear index. -/
  ints : List (Nat × Word)
  /-- `TXT_LEN` (R22). -/
  txtLen : BitVec 16
  /-- `CW_LEN` (R23). -/
  cwLen : BitVec 8
  /-- `OUT_LEN` (R24). -/
  outLen : BitVec 8
  /-- `RED_LEN` (R25). -/
  redLen : BitVec 8
  /-- `CMD` (R29): the accepted command word, from the acceptance step to the completion step. -/
  cmd : Option Word
  /-- `STATUS.DONE` (R30), and the `DONE` line (R241). -/
  done : Bool
  /-- `STATUS.CODE` (R30). -/
  code : Code
  /-- `STATUS.LASTOP` (R30). -/
  lastOp : Byte
  /-- `HDR_LO`, `HDR_HI` (R31). -/
  hdr : Header
  /-- `XORSUM[7:0]` (R32). -/
  xorsum : Byte
  /-- `HYP` (R34). -/
  hyp : HypReg
  /-- `HYPCNT` (R35). -/
  hypCnt : Word
  /-- `PROGRESS` (R36). -/
  progress : ProgressReg
  /-- `MAP_RS` (R38). -/
  mapRs : MapRs
  /-- `MAP_IDX[10:0]` (R38). -/
  mapIdx : BitVec 11
  /-- The open parameters (R8), shown by the constant registers (R39). -/
  params : Params
  /-- The progress events of the running or last command, in order (R243; log 13). -/
  events : List ProgressEvent
  /-- The model's own: the tap-fetch unit (R40: no state of the block; log 7). -/
  taps : TapUnit
  /-- The model's own: what happens next around the engine, first at the head (log 4). -/
  inputs : List Input
  /-- The model's own: the values host reads returned, oldest first (log 12). -/
  replies : List Word
  /-- The model's own: how many unspecified host reads there have been (log 10). -/
  fresh : Nat
deriving DecidableEq, Repr

/-- `STATUS.BUSY` (R30): 1 from the accepted `CMD` write until the completion step (log 16). -/
def State.busy (s : State) : Bool := s.cmd.isSome

/-- The state after reset (R43, R261): no command runs, every register at the table's value, nothing in the buffers has
a value. The parameters are the model's choice (log 1), the tap-fetch unit is a free one (log 7), and nothing is about
to happen around the block (log 6). -/
def State.reset : State where
  mem := []
  bits := []
  ints := []
  txtLen := 0
  cwLen := 0
  outLen := 0
  redLen := 0
  cmd := none
  done := false
  code := .noCode
  lastOp := 0
  hdr := { ver := 0, ecc := 0, payLen := 0, redLen := 0, cksum := 0, ckCalc := 0 }
  xorsum := 0
  hyp := { var := 0, inv := false, bias := 0, mode := false, shift := 0, valid := false }
  hypCnt := 0
  progress := { var := 0, nv := 0, count := 0 }
  mapRs := { ring := 0, sector := 0 }
  mapIdx := 0
  params := Config.params
  events := []
  taps := .free 0
  inputs := []
  replies := []
  fresh := 0

/-- Why the machine stops with a fault: there is no reason. The block has no trap (R236) and no bus error (R67); every
failure of a command is a status code (R230). Nothing raises it (log 15; safe: there is nothing to raise). -/
inductive Fault
deriving DecidableEq, Repr

/-- Why a step has no meaning. -/
inductive Refusal
  /-- The command has no meaning in the model yet. Raised by an arm of `exec` only; safe. -/
  | notModelled (mnemonic : String)
  /-- A buffer element that nothing has written since reset is read (R43, R264; U1, U6: "refuse"). Raised by `ENCF` and
  `APRED` (`TXT`), `VALRED` (`CW`), `DECF` and `SWEEP` (`BITS`), `THR` (`INT`) and by host reads; safe: the machine stops
  where the hardware goes on with contents the spec does not give. -/
  | unwritten (buffer : Buffer)
  /-- The tap-fetch unit's surfaces change while `SAMP` or `SWEEP` runs (R267; U4: "refuse"). Raised by the input
  `surfaces`; safe: the result is unspecified. -/
  | surfacesChanged
deriving DecidableEq, Repr

/-- The result of a step. -/
abbrev StepOutcome := Host.Outcome State Fault Refusal

/-- What running a command comes to, before its completion step. -/
inductive Effect
  /-- The command has ended with a status code, its writes made (R33). -/
  | ended (code : Code) (s : State)
  /-- A tap request has no answer: the engine waits (R268). `events` are the progress events raised so far. -/
  | waiting (events : List ProgressEvent)
  /-- The run has no meaning. -/
  | refused (r : Refusal)
deriving DecidableEq, Repr

end Sys2Proof.Machine
end

