-- ==== Sys2Proof/Machine/Ops.lean ====
section
/-! DEFINITION. The named operations over the state: the canonical sparse store every buffer is kept in, the acceptance
and the completion step (R33), raising a status (R12, R236: the block's whole "exception entry"; there is no return from
it), reset (R260 to R262), and the writes the commands make. -/

namespace Sys2Proof.Machine

/-! ### The store

A store lists (key, value) pairs. A key that is not listed holds no value: nothing has been written there since reset
(R43), so no entry can be equal to what an unlisted key reads as. -/

/-- The canonical form: keys strictly rising. -/
abbrev Memory.wf {α : Type} (l : List (Nat × α)) : Prop := (l.map Prod.fst).Pairwise (· < ·)

/-- The value at a key, none where nothing has been written since reset (R43). This is the one definition of what an
unlisted address reads as (log 2). -/
def Memory.read {α : Type} : List (Nat × α) → Nat → Option α
  | [], _ => none
  | (k, v) :: rest, a => if k = a then some v else Memory.read rest a

/-- All of a list of values, none if one of them is missing. -/
def allSome {α : Type} : List (Option α) → Option (List α)
  | [] => some []
  | none :: _ => none
  | some v :: rest => (allSome rest).map (v :: ·)

/-- The values at `n` keys from `a` on, none if one of them has not been written. -/
def Memory.readRun {α : Type} (l : List (Nat × α)) (a n : Nat) : Option (List α) :=
  allSome ((List.range n).map fun i => Memory.read l (a + i))

/-- The entries that hold `vals` at consecutive keys from `a` on. -/
def Memory.cellsFrom {α : Type} : Nat → List α → List (Nat × α)
  | _, [] => []
  | a, v :: vs => (a, v) :: Memory.cellsFrom (a + 1) vs

/-- `vals` written to consecutive keys from `a` on. -/
def Memory.writeRun {α : Type} (l : List (Nat × α)) (a : Nat) (vals : List α) : List (Nat × α) :=
  l.filter (fun c => decide (c.1 < a)) ++ Memory.cellsFrom a vals
    ++ l.filter (fun c => decide (a + vals.length ≤ c.1))

/-! ### Where the byte buffers stand in the host space (R61) -/

/-- Offset of `TXT[0]`. -/
def txtBase : Nat := 0x100
/-- Offset of `CW[0]`. -/
def cwBase : Nat := 0x200
/-- Offset of `OUT[0]`. -/
def outBase : Nat := 0x300
/-- Offset of `RED[0]`. -/
def redBase : Nat := 0x400
/-- Offset of packed `BITS`. -/
def bitsBase : Nat := 0x500
/-- Offset of `INT[0]`. -/
def intBase : Nat := 0x1000

/-! ### Writes of the commands -/

/-- `OUT[0..] <- data`. -/
def writeOut (s : State) (data : List Byte) : State :=
  { s with mem := Memory.writeRun s.mem outBase data }

/-- `RED[0..] <- red`. -/
def writeRed (s : State) (red : List Byte) : State :=
  { s with mem := Memory.writeRun s.mem redBase red }

/-- `BITS[p..] <- bs`. -/
def writeBits (s : State) (p : Nat) (bs : List Bool) : State :=
  { s with bits := Memory.writeRun s.bits p bs }

/-- `INT[p..] <- es`. -/
def writeInts (s : State) (p : Nat) (es : List Word) : State :=
  { s with ints := Memory.writeRun s.ints p es }

/-! ### Acceptance, completion, reset -/

/-- The acceptance step (R33): `BUSY <- 1`, `DONE <- 0`, `LASTOP <- CMD[7:0]`, `CODE` kept. The list of events of the
command begins empty (R243; log 13). -/
def accept (w : Word) (s : State) : State :=
  { s with cmd := some w, done := false, lastOp := w.extractLsb' 0 8, events := [] }

/-- The completion step (R33): `CODE <- code`, `BUSY <- 0`, `DONE <- 1`. -/
def complete (code : Code) (s : State) : State :=
  { s with cmd := none, done := true, code := code }

/-- `raise <Status>` (R12): the command ends with the completion step and writes nothing else. It is no trap: nothing is
saved and no control is transferred (R236). -/
def raise (code : Code) (s : State) : StepOutcome := .next (complete code s)

/-- The outcome of a command that came to `e` in state `s`: completed; or still waiting, `BUSY` still 1 and the work
repeated at the engine's next turn (R268; log 8); or refused. -/
def finish (s : State) : Effect → StepOutcome
  | .ended code t => .next (complete code t)
  | .waiting events => .next { s with events := events }
  | .refused r => .refused r

/-- A word that encodes no command, at the engine's turn (R98, R99, R239). -/
def rejectWord (s : State) : StepOutcome := raise .illegalCommand s

/-- `RST` (R260 to R262): the reset state, whatever the engine was doing. What is not the block's stays: its parameters,
the tap-fetch unit, what the outside world is about to do and has seen (log 18). -/
def resetBlock (s : State) : State :=
  { State.reset with
    params := s.params, taps := s.taps, inputs := s.inputs, replies := s.replies, fresh := s.fresh }

/-- `emit Progress(var, nv)` (R12, R243). -/
def emitProgress (var nv : BitVec 3) (s : State) : State :=
  { s with
    events := s.events ++ [{ var := var, nv := nv }]
    progress := { s.progress with var := var, count := s.progress.count + 1 } }

end Sys2Proof.Machine
end

