-- ==== Sys2Proof/Syntax.lean ====
section
/-! DEFINITION. The nine commands, one constructor per row of spec/opcode_table.json (R96). A field has the width
its format gives it (R97), so every value of the type has an encoding; whether the field is in range is R100's
question (WellFormed.lean and the meanings). -/

namespace Sys2Proof

/-- The threshold strategy: field `mode` of format T, 0 percentile (R190), 1 histogram-split (R191). -/
inductive Mode
  | percentile
  | histogram
deriving DecidableEq, Repr

/-- A command of the block. -/
inductive Instr
  /-- `ENCF ecc` (R131): encode the frame of `TXT` into `BITS`. -/
  | encf (ecc : BitVec 2)
  /-- `DECF` (R140): decode the frame in `BITS`. -/
  | decf
  /-- `APRED n` (R162): `n` redundancy bytes of `TXT` into `RED`. -/
  | apred (n : BitVec 8)
  /-- `VALRED n` (R166): validate `CW` with `n` redundancy bytes. -/
  | valred (n : BitVec 8)
  /-- `MAPB idx` (R112): bit index to (ring, sector). -/
  | mapb (idx : BitVec 11)
  /-- `MAPS ring, sector` (R113): (ring, sector) to bit index. -/
  | maps (ring : BitVec 3) (sector : BitVec 11)
  /-- `SAMP ring, var, shift` (R185): sample one ring into `INT`. -/
  | samp (ring : BitVec 3) (var : BitVec 3) (shift : BitVec 11)
  /-- `THR ring, mode, inv, bias` (R193): threshold one ring of `INT` into `BITS`. -/
  | thr (ring : BitVec 3) (mode : Mode) (inv : Bool) (bias : BitVec 3)
  /-- `SWEEP nv` (R214): the hypothesis search over `nv` variants. -/
  | sweep (nv : BitVec 3)
deriving DecidableEq, Repr

/-- The opcode byte of a command (R96). -/
def Instr.opcode : Instr → Byte
  | .encf _ => 0x01
  | .decf => 0x02
  | .apred _ => 0x03
  | .valred _ => 0x04
  | .mapb _ => 0x05
  | .maps _ _ => 0x06
  | .samp _ _ _ => 0x07
  | .thr _ _ _ _ => 0x08
  | .sweep _ => 0x09

end Sys2Proof
end

