-- ==== Sys2Proof/WellFormed.lean ====
section
/-! DEFINITION. The operand ranges of R100 that do not depend on a length register. A command word out of these ranges
decodes and completes with `IllegalCommand`; the two ranges on `TXT_LEN` and `CW_LEN` are in Machine/Operands.lean. -/

namespace Sys2Proof

/-- The fields of a command are inside the ranges of R100, for the ring table of `p`. -/
def Instr.wf (p : Params) : Instr → Bool
  | .encf _ => true
  | .decf => true
  | .apred n => n.toNat ≤ 64
  | .valred _ => true
  | .mapb idx => idx.toNat ≤ 1343
  | .maps ring sector => ring.toNat ≤ 5 && sector.toNat < p.sectors ring.toNat
  | .samp ring var shift => ring.toNat ≤ 5 && var.toNat ≤ 4 && shift.toNat < p.sectors 0
  | .thr ring _ _ bias => ring.toNat ≤ 5 && bias.toNat ≤ 4
  | .sweep nv => nv.toNat ≤ 5

end Sys2Proof
end

