-- ==== Sys2Proof/Machine/Operands.lean ====
section
/-! DEFINITION. Every operand the commands take: the constants of R6 and R7, the ring offsets of R9, the ranges of R100,
the buffer elements a command reads, and the byte and bit order of a frame (R11, R86). -/

namespace Sys2Proof.Machine

/-! ### Constants (R6, R7) -/

/-- `CAP_TOTAL`. -/
def capTotal : Nat := 1344
/-- `START_LEN`. -/
def startLen : Nat := 32
/-- `HEADER_BITS`. -/
def headerBits : Nat := 56
/-- `CAP_DATA` (R111). -/
def capData : Nat := capTotal - startLen - headerBits
/-- `NUM_RINGS`. -/
def numRings : Nat := 6
/-- First bit of the codeword (R84). -/
def codewordAt : Nat := startLen + headerBits
/-- `CODEWORD_BYTES`. -/
def codewordBytes : Nat := 157
/-- `SUBSAMPLES`. -/
def subsamples : Nat := 8
/-- `SHIFT_STEP`. -/
def shiftStep : Nat := 4
/-- Size of `TXT` (R21). -/
def txtSize : Nat := 149
/-- Size of `RED` (R25). -/
def redSize : Nat := 64

/-- `ECC_BYTES[l]`. -/
def eccBytes : Nat → Nat
  | 0 => 8
  | 1 => 16
  | 2 => 32
  | _ => 64

/-- `MAX_PAYLOAD[l]` by its defining formula (R111). -/
def maxPayload (l : Nat) : Nat := (capData - eccBytes l * 8) / 8

/-- `BIAS_NUM[i]`, the bias factor in twentieths (R7). -/
def biasNum : Nat → Nat
  | 0 => 20
  | 1 => 19
  | 2 => 21
  | 3 => 18
  | _ => 22

/-- `OFF[r]` (R9). -/
def off (p : Params) : Nat → Nat
  | 0 => 0
  | r + 1 => off p r + p.sectors r

/-! ### Ranges (R100) -/

/-- A decoded command is legal (R100): its fields are in range and so are the length registers it depends on. -/
def legal (s : State) (i : Instr) : Bool :=
  i.wf s.params &&
  match i with
  | .apred _ => decide (s.txtLen.toNat ≤ txtSize)
  | .valred _ => decide (s.cwLen.toNat ≤ codewordBytes)
  | _ => true

/-! ### Bytes and bits of a frame (R11, R86) -/

/-- The bits of a byte, most significant first (R86). -/
def byteBits (b : Byte) : List Bool :=
  [b.getLsbD 7, b.getLsbD 6, b.getLsbD 5, b.getLsbD 4, b.getLsbD 3, b.getLsbD 2, b.getLsbD 1, b.getLsbD 0]

/-- The byte with the given bits, most significant first (R11). -/
def bitsByte (bs : List Bool) : Byte :=
  BitVec.ofNat 8 (bs.foldl (fun acc b => 2 * acc + b.toNat) 0)

/-- The bits of a sequence of bytes, flattened (R86). -/
def flattenBytes (l : List Byte) : List Bool := l.flatMap byteBits

/-! ### Buffer elements a command reads

Each is none where an element has not been written since reset (R264). -/

/-- `TXT[0..TXT_LEN-1]`. -/
def readTxt (s : State) : Option (List Byte) := Memory.readRun s.mem txtBase s.txtLen.toNat

/-- `CW[0..CW_LEN-1]`. -/
def readCw (s : State) : Option (List Byte) := Memory.readRun s.mem cwBase s.cwLen.toNat

/-- `INT[p..p+n-1]`. -/
def readInts (s : State) (p n : Nat) : Option (List Word) := Memory.readRun s.ints p n

/-- `byte_at(p)` (R11). -/
def byteAt (s : State) (p : Nat) : Option Byte := (Memory.readRun s.bits p 8).map bitsByte

/-- `byte_at(p), byte_at(p + 8), ..`: `n` bytes of the bitstream (R84). -/
def bytesAt (s : State) (p n : Nat) : Option (List Byte) :=
  allSome ((List.range n).map fun c => byteAt s (p + 8 * c))

end Sys2Proof.Machine
end

