-- ==== Sys2Proof/Machine/Layout.lean ====
section
/-! DEFINITION. The layout mapper: `MAPB` (R112) and `MAPS` (R113). -/

namespace Sys2Proof.Machine

/-- The ring that owns a linear index (R9, R112). -/
def ringOf (p : Params) (idx : Nat) : Nat :=
  if idx < off p 1 then 0
  else if idx < off p 2 then 1
  else if idx < off p 3 then 2
  else if idx < off p 4 then 3
  else if idx < off p 5 then 4
  else 5

/-- `MAPB idx` (R112). -/
def execMapb (idx : BitVec 11) (s : State) : StepOutcome :=
  if 1343 < idx.toNat then raise .illegalCommand s
  else
    let r := ringOf s.params idx.toNat
    .next (complete .ok
      { s with mapRs := { ring := BitVec.ofNat 3 r, sector := BitVec.ofNat 11 (idx.toNat - off s.params r) } })

/-- `MAPS ring, sector` (R113). -/
def execMaps (ring : BitVec 3) (sector : BitVec 11) (s : State) : StepOutcome :=
  if 5 < ring.toNat ∨ s.params.sectors ring.toNat ≤ sector.toNat then raise .illegalCommand s
  else .next (complete .ok { s with mapIdx := BitVec.ofNat 11 (off s.params ring.toNat + sector.toNat) })

end Sys2Proof.Machine
end

