-- ==== Sys2Proof/Machine/Flags.lean ====
section
/-! DEFINITION. The status register (R30, R42: the block's only flag register), the header checksum (R83), and the words
the host sees of the result and constant registers (R31 to R39). -/

namespace Sys2Proof.Machine

/-- The number of a status code (R231). -/
def codeBits : Code → BitVec 4
  | .noCode => 0
  | .ok => 1
  | .payloadTooLarge => 2
  | .headerChecksumMismatch => 3
  | .payloadLengthInvalid => 4
  | .insufficientBits => 5
  | .redundancyValidationFailed => 6
  | .searchExhausted => 7
  | .illegalCommand => 8

/-- `STATUS` (R30). -/
def statusWord (s : State) : Word :=
  0#16 ++ s.lastOp ++ codeBits s.code ++ 0#2 ++ BitVec.ofBool s.done ++ BitVec.ofBool s.busy

/-- The `DONE` line (R241). -/
def doneLine (s : State) : Bool := s.done

/-- The header checksum of the six bytes before it (R83). -/
def headerChecksum (b0 b1 b2 b3 b4 b5 : Byte) : Byte :=
  BitVec.ofNat 8 ((b0.toNat + b1.toNat + b2.toNat + b3.toNat + b4.toNat + b5.toNat) % 256)

/-- `HDR_LO` (R31). -/
def hdrLoWord (h : Header) : Word := h.payLen ++ h.ecc ++ h.ver

/-- `HDR_HI` (R31). -/
def hdrHiWord (h : Header) : Word := h.ckCalc ++ h.cksum ++ h.redLen

/-- `XORSUM` (R32). -/
def xorsumWord (x : Byte) : Word := 0#24 ++ x

/-- `HYP` (R34). -/
def hypWord (h : HypReg) : Word :=
  BitVec.ofBool h.valid ++ 0#12 ++ h.shift ++ BitVec.ofBool h.mode ++ h.bias ++ BitVec.ofBool h.inv ++ h.var

/-- `PROGRESS` (R36). -/
def progressWord (p : ProgressReg) : Word := 0#16 ++ p.count ++ 0#1 ++ p.nv ++ 0#1 ++ p.var

/-- `MAP_RS` (R38). -/
def mapRsWord (m : MapRs) : Word := 0#18 ++ m.sector ++ m.ring

/-- `MAP_IDX` (R38). -/
def mapIdxWord (i : BitVec 11) : Word := 0#21 ++ i

/-- `MAXPAY` (R39): the payload limits of levels 3, 2, 1, 0 from bit 31 down. -/
def maxPayWord : Word :=
  BitVec.ofNat 8 (maxPayload 3) ++ BitVec.ofNat 8 (maxPayload 2) ++ BitVec.ofNat 8 (maxPayload 1)
    ++ BitVec.ofNat 8 (maxPayload 0)

/-- `ECCTAB` (R39). -/
def eccTabWord : Word :=
  BitVec.ofNat 8 (eccBytes 3) ++ BitVec.ofNat 8 (eccBytes 2) ++ BitVec.ofNat 8 (eccBytes 1)
    ++ BitVec.ofNat 8 (eccBytes 0)

/-- `RINGTAB0`, `RINGTAB1`, `RINGTAB2` (R39): register `t` shows rings `2t` and `2t + 1`. -/
def ringTabWord (p : Params) (t : Nat) : Word :=
  BitVec.ofNat 16 (p.sectors (2 * t + 1)) ++ BitVec.ofNat 16 (p.sectors (2 * t))

/-- `PARAMS` (R39). -/
def paramsWord (p : Params) : Word :=
  0#8 ++ BitVec.ofNat 4 shiftStep ++ BitVec.ofNat 4 subsamples ++ p.radiusTap ++ 0#3
    ++ BitVec.ofBool p.startFirstBit ++ p.versionConst

end Sys2Proof.Machine
end

