-- ==== Sys2Proof/Machine/Redundancy.lean ====
section
/-! DEFINITION. The redundancy layer: the functions `apred` (R161) and `valred` (R165), and the commands `APRED` (R162) and
`VALRED` (R166). -/

namespace Sys2Proof.Machine

/-- Redundancy byte `i`: the exclusive or of every payload byte times `i + 1`, modulo 256 (R161). -/
def apredByte (p : List Byte) (i : Nat) : Byte :=
  p.foldl (fun acc b => acc ^^^ BitVec.ofNat 8 (b.toNat * (i + 1) % 256)) 0

/-- `apred(p, n)` (R161). -/
def apred (p : List Byte) (n : Nat) : List Byte := (List.range n).map (apredByte p)

/-- The exclusive or of all bytes (R32, R165). -/
def xorBytes (l : List Byte) : Byte := l.foldl (· ^^^ ·) 0

/-- The number of bytes equal to `0x00` or `0xFF`, the two counted together (R165). -/
def suspectCount (l : List Byte) : Nat := l.countP fun b => b = 0x00 || b = 0xFF

/-- `valred(cw, n)` (R165): the data bytes or none, and the exclusive or of the data. -/
def valred (cw : List Byte) (n : Nat) : Option (List Byte) × Byte :=
  if cw.length ≤ n then (none, 0)
  else
    let data := cw.take (cw.length - n)
    if 4 * data.length < 5 * suspectCount data then (none, xorBytes data)
    else (some data, xorBytes data)

/-- `APRED n` (R162). -/
def execApred (n : BitVec 8) (s : State) : StepOutcome :=
  if redSize < n.toNat ∨ txtSize < s.txtLen.toNat then raise .illegalCommand s
  else
    match readTxt s with
    | none => .refused (.unwritten .txt)
    | some p => .next (complete .ok { writeRed s (apred p n.toNat) with redLen := n })

/-- `VALRED n` (R166). -/
def execValred (n : BitVec 8) (s : State) : StepOutcome :=
  if codewordBytes < s.cwLen.toNat then raise .illegalCommand s
  else
    match readCw s with
    | none => .refused (.unwritten .cw)
    | some cw =>
      match valred cw n.toNat with
      | (none, x) => raise .redundancyValidationFailed { s with xorsum := x, outLen := 0 }
      | (some data, x) => .next (complete .ok { writeOut s data with xorsum := x, outLen := s.cwLen - n })

end Sys2Proof.Machine
end

