-- ==== Sys2Proof/Machine/Codec.lean ====
section
/-! DEFINITION. The frame codec: `ENCF` (R131) and `DECF` (R140). -/

namespace Sys2Proof.Machine

/-! ### ENCF -/

/-- The start pattern (R81). -/
def startPattern (p : Params) : List Bool :=
  (List.range startLen).map fun i => if i % 2 = 0 then p.startFirstBit else !p.startFirstBit

/-- The seven header bytes of a frame of level `l` with a payload of `len` bytes (R82, R131). -/
def headerBytes (p : Params) (l len : Nat) : List Byte :=
  let h0 := p.versionConst
  let h1 := BitVec.ofNat 8 l
  let h2 := BitVec.ofNat 8 (len / 256)
  let h3 := BitVec.ofNat 8 (len % 256)
  let h4 := BitVec.ofNat 8 (eccBytes l / 256)
  let h5 := BitVec.ofNat 8 (eccBytes l % 256)
  [h0, h1, h2, h3, h4, h5, headerChecksum h0 h1 h2 h3 h4 h5]

/-- The payload, zero-padded to the level's capacity (R84, R131). -/
def paddedPayload (l : Nat) (txt : List Byte) : List Byte :=
  txt ++ List.replicate (maxPayload l - txt.length) 0

/-- The codeword (R84): padded payload, then its redundancy bytes. -/
def codeword (l : Nat) (txt : List Byte) : List Byte :=
  paddedPayload l txt ++ apred (paddedPayload l txt) (eccBytes l)

/-- The frame (R80): start pattern, header, codeword; nothing is padded or cut (R87). -/
def frameBits (p : Params) (l : Nat) (txt : List Byte) : List Bool :=
  startPattern p ++ flattenBytes (headerBytes p l txt.length) ++ flattenBytes (codeword l txt)

/-- `ENCF ecc` (R131). The length is tested before any byte of `TXT` is read (R22). -/
def execEncf (ecc : BitVec 2) (s : State) : StepOutcome :=
  if maxPayload ecc.toNat < s.txtLen.toNat then raise .payloadTooLarge s
  else
    match readTxt s with
    | none => .refused (.unwritten .txt)
    | some txt => .next (complete .ok (writeBits s 0 (frameBits s.params ecc.toNat txt)))

/-! ### DECF -/

/-- The header fields of seven header bytes (R31, R82). -/
def headerOf : List Byte → Option Header
  | [b0, b1, b2, b3, b4, b5, b6] => some
      { ver := b0, ecc := b1, payLen := b2 ++ b3, redLen := b4 ++ b5, cksum := b6
        ckCalc := headerChecksum b0 b1 b2 b3 b4 b5 }
  | _ => none

/-- The header as `BITS` holds it; the start pattern is skipped (R140). -/
def readHeader (s : State) : Option Header :=
  (bytesAt s startLen 7).bind headerOf

/-- Capacity in bytes of a declared level: 157, and 0 above level 3 (R143). -/
def levelCapacity (ecc : Byte) : Nat := if ecc.toNat ≤ 3 then codewordBytes else 0

/-- `DECF` up to its completion step (R140), the checks in their order (R240). -/
def decfRun (s : State) : Effect :=
  match readHeader s with
  | none => .refused (.unwritten .bits)
  | some h =>
    let s1 : State := { s with hdr := h, outLen := 0 }
    let plen := h.payLen.toNat
    let rlen := h.redLen.toNat
    if h.ckCalc ≠ h.cksum then .ended .headerChecksumMismatch s1
    else if plen = 0 then .ended .payloadLengthInvalid s1
    else if levelCapacity h.ecc < plen + rlen then .ended .payloadLengthInvalid s1
    else if capTotal < codewordAt + 8 * (plen + rlen) then .ended .insufficientBits s1
    else
      match bytesAt s codewordAt (plen + rlen) with
      | none => .refused (.unwritten .bits)
      | some cw =>
        match valred cw rlen with
        | (none, x) => .ended .redundancyValidationFailed { s1 with xorsum := x }
        | (some data, x) =>
          .ended .ok { writeOut s1 (data.take plen) with xorsum := x, outLen := BitVec.ofNat 8 plen }

/-- `DECF` (R140). -/
def execDecf (s : State) : StepOutcome := finish s (decfRun s)

end Sys2Proof.Machine
end

