-- ==== Sys2Proof/Machine/TapPort.lean ====
section
/-! DEFINITION. The tap port (R183): what the tap-fetch unit answers, and which requests one sector makes (R182). -/

namespace Sys2Proof.Machine

/-- A field of a table row matches: it is open, or equal. -/
def fieldMatches {α : Type} [DecidableEq α] : Option α → α → Bool
  | none, _ => true
  | some x, y => decide (x = y)

/-- A table row matches a request. -/
def rowMatches (q : TapRequest) (r : TapRow) : Bool :=
  fieldMatches r.var q.var && fieldMatches r.ring q.ring && fieldMatches r.sector q.sector
    && fieldMatches r.sub q.sub && fieldMatches r.offset q.offset && fieldMatches r.shift q.shift

/-- `Tap(v, r, s, k, d, a)` (R183), or silence (R268). -/
def tapAnswer (u : TapUnit) (q : TapRequest) : TapAnswer :=
  match u with
  | .table rows other =>
    match rows.find? (rowMatches q) with
    | some r => r.answer
    | none => other
  | .free n => Config.tap n q

/-- The radial offsets `-T, .., T` (R182). -/
def tapOffsets (t : Nat) : List Int := (List.range (2 * t + 1)).map fun j : Nat => (j : Int) - (t : Int)

/-- The requests of one sector (R182, R184): sub-samples 0..7, and for each the radial offsets. -/
def sectorRequests (t var ring sector shift : Nat) : List TapRequest :=
  (List.range subsamples).flatMap fun k =>
    (tapOffsets t).map fun d =>
      { var := var, ring := ring, sector := sector, sub := k, offset := d, shift := shift }

end Sys2Proof.Machine
end

