-- ==== Sys2Proof/Machine/Sampler.lean ====
section
/-! DEFINITION. The ring intensity sampler: aggregation of taps (R184) and the command `SAMP` (R185). -/

namespace Sys2Proof.Machine

/-- `(SUM, CNT)` over a list of requests (R184); none if the tap-fetch unit leaves one without an answer (R268). -/
def aggregate (u : TapUnit) : List TapRequest → Option (Nat × Nat)
  | [] => some (0, 0)
  | q :: qs =>
    match tapAnswer u q with
    | .silent => none
    | .outOfBounds => aggregate u qs
    | .pixel b => (aggregate u qs).map fun sc => (sc.1 + b.toNat, sc.2 + 1)

/-- An `INT` entry as the engine writes it (R28, R185). -/
def entryWord (sc : Nat × Nat) : Word := 0#8 ++ BitVec.ofNat 8 sc.2 ++ BitVec.ofNat 16 sc.1

/-- The entry of one sector. -/
def sectorEntry (s : State) (var ring shift sector : Nat) : Option Word :=
  (aggregate s.taps (sectorRequests s.params.radiusTap.toNat var ring sector shift)).map entryWord

/-- The state changes of `SAMP` (R185), none while the tap-fetch unit is silent. -/
def sampRun (ring var shift : Nat) (s : State) : Option State :=
  (allSome ((List.range (s.params.sectors ring)).map (sectorEntry s var ring shift))).map
    (writeInts s (off s.params ring))

/-- `SAMP ring, var, shift` (R185). A silent tap-fetch unit leaves the engine waiting (R268; log 8). -/
def execSamp (ring var : BitVec 3) (shift : BitVec 11) (s : State) : StepOutcome :=
  if 5 < ring.toNat ∨ 4 < var.toNat ∨ s.params.sectors 0 ≤ shift.toNat then raise .illegalCommand s
  else
    .next (match sampRun ring.toNat var.toNat shift.toNat s with
      | some t => complete .ok t
      | none => s)

end Sys2Proof.Machine
end

