-- ==== Sys2Proof/Machine/Threshold.lean ====
section
/-! DEFINITION. The thresholds: the intensity of an entry (R28), the percentile (R190) and the histogram-split (R191)
strategies over exact rationals (R10), the bit decision (R192) and the command `THR` (R193). -/

namespace Sys2Proof.Machine

/-- `SUM` of an entry (R28). -/
def entrySum (e : Word) : Nat := (e.extractLsb' 0 16).toNat

/-- `CNT` of an entry (R28). -/
def entryCnt (e : Word) : Nat := (e.extractLsb' 16 8).toNat

/-- `val(e)` (R28): `SUM/CNT`, and 255 when `CNT = 0`. Bits 31:24 are ignored. -/
def intensity (e : Word) : Rat := if entryCnt e = 0 then 255 else (entrySum e : Rat) / (entryCnt e : Rat)

/-- The bias factor `BIAS[i] = BIAS_NUM[i]/20` (R7). -/
def bias (i : Nat) : Rat := (biasNum i : Rat) / 20

/-- Insertion into an ascending list. -/
def insertAscending (x : Rat) : List Rat → List Rat
  | [] => [x]
  | y :: ys => if x ≤ y then x :: y :: ys else y :: insertAscending x ys

/-- The values in ascending order (R190). -/
def sortAscending : List Rat → List Rat
  | [] => []
  | x :: xs => insertAscending x (sortAscending xs)

/-- `S[floor(tenths * N / 10)]` of the ascending values (R190). -/
def percentile (tenths : Nat) (vals : List Rat) : Rat :=
  (sortAscending vals).getD (tenths * vals.length / 10) 0

/-- `Tpct` (R190). -/
def percentileThreshold (i : Nat) (vals : List Rat) : Rat :=
  (percentile 3 vals + percentile 7 vals) / 2 * bias i

/-- The 8-bit bin of an intensity: its floor, at most 255 (R191). -/
def binOf (v : Rat) : Nat := min 255 v.floor.toNat

/-- The running values of the split search (R191). -/
structure Split where
  w0 : Nat
  s0 : Nat
  best : Option (Nat × Nat)
  tstar : Nat
deriving DecidableEq, Repr

/-- Score `A/Bq` of a split with weights `w0`, `w1` and sums `s0`, `s1` (R191). -/
def splitScore (w0 s0 w1 s1 : Nat) : Nat × Nat :=
  (((s0 * w1 : Nat) - (s1 * w0 : Nat) : Int).natAbs ^ 2, w0 * w1)

/-- A split beats the best so far: strictly greater score (R191). -/
def beats (new : Nat × Nat) : Option (Nat × Nat) → Bool
  | none => true
  | some old => decide (old.1 * new.2 < new.1 * old.2)

/-- One turn of the split search, for candidate `t` (R191). -/
def splitStep (bins : List Nat) (acc : Split) (t : Nat) : Split :=
  let w0 := acc.w0 + bins.count t
  let s0 := acc.s0 + t * bins.count t
  let w1 := bins.length - w0
  let s1 := bins.sum - s0
  if w0 = 0 ∨ w1 = 0 then { acc with w0 := w0, s0 := s0 }
  else
    let score := splitScore w0 s0 w1 s1
    if beats score acc.best then { w0 := w0, s0 := s0, best := some score, tstar := t }
    else { acc with w0 := w0, s0 := s0 }

/-- `tstar` (R191): 0 when no candidate splits the bins into two non-empty classes. -/
def histogramSplit (bins : List Nat) : Nat :=
  ((List.range 256).foldl (splitStep bins) { w0 := 0, s0 := 0, best := none, tstar := 0 }).tstar

/-- `Thist` (R191). -/
def histogramThreshold (i : Nat) (vals : List Rat) : Rat := (histogramSplit (vals.map binOf) : Rat) * bias i

/-- The threshold of the chosen mode (R192). -/
def threshold (mode : Mode) (i : Nat) (vals : List Rat) : Rat :=
  match mode with
  | .percentile => percentileThreshold i vals
  | .histogram => histogramThreshold i vals

/-- The bits of one ring (R192): strictly below the threshold is 1, then inversion. -/
def thrBits (mode : Mode) (inv : Bool) (i : Nat) (vals : List Rat) : List Bool :=
  let tm := threshold mode i vals
  vals.map fun v => Bool.xor (decide (v < tm)) inv

/-- The state changes of `THR` (R193), none where an entry of the ring has not been written. -/
def thrRun (ring : Nat) (mode : Mode) (inv : Bool) (i : Nat) (s : State) : Option State :=
  (readInts s (off s.params ring) (s.params.sectors ring)).map fun es =>
    writeBits s (off s.params ring) (thrBits mode inv i (es.map intensity))

/-- `THR ring, mode, inv, bias` (R193). -/
def execThr (ring : BitVec 3) (mode : Mode) (inv : Bool) (i : BitVec 3) (s : State) : StepOutcome :=
  if 5 < ring.toNat ∨ 4 < i.toNat then raise .illegalCommand s
  else
    match thrRun ring.toNat mode inv i.toNat s with
    | none => .refused (.unwritten .int)
    | some t => .next (complete .ok t)

end Sys2Proof.Machine
end

