-- ==== Sys2Proof/Machine/Sweep.lean ====
section
/-! DEFINITION. The threshold-sweep validator: hypotheses and their order (R211, R212), the evaluation of one (R213), the
command `SWEEP` (R214), and the pseudo-command `HYP1` (R102). -/

namespace Sys2Proof.Machine

/-- A hypothesis `(var, inv, bias, mode, shift)` (R211). -/
structure Hypothesis where
  var : Nat
  inv : Bool
  bias : Nat
  mode : Mode
  shift : Nat
deriving DecidableEq, Repr

/-- `ceil(N0/4)`, the number of anchor shifts (R211). -/
def shiftCount (n0 : Nat) : Nat := (n0 + 3) / shiftStep

/-- The anchor shifts `0, 4, 8, .. < N0` (R211). -/
def shifts (n0 : Nat) : List Nat := (List.range (shiftCount n0)).map (shiftStep * ·)

/-- The hypotheses of one variant in their order (R212): inversion, bias, mode, shift, the last innermost. -/
def hypothesesOf (n0 var : Nat) : List Hypothesis :=
  [false, true].flatMap fun inv =>
    (List.range 5).flatMap fun bias =>
      [Mode.percentile, Mode.histogram].flatMap fun mode =>
        (shifts n0).map fun shift =>
          { var := var, inv := inv, bias := bias, mode := mode, shift := shift }

/-- `SAMP r, var, shift` for each ring of a list, in order; none while the tap-fetch unit is silent. -/
def sampRings (var shift : Nat) : List Nat → State → Option State
  | [], s => some s
  | r :: rs, s =>
    match sampRun r var shift s with
    | none => none
    | some t => sampRings var shift rs t

/-- `THR r, mode, inv, bias` for each ring of a list, in order. -/
def thrRings (mode : Mode) (inv : Bool) (i : Nat) : List Nat → State → Option State
  | [], s => some s
  | r :: rs, s =>
    match thrRun r mode inv i s with
    | none => none
    | some t => thrRings mode inv i rs t

/-- The evaluation of one hypothesis (R213): the state changes of six `SAMP`, six `THR` and `DECF`, without their
acceptance and completion steps. -/
def evaluate (h : Hypothesis) (s : State) : Effect :=
  match sampRings h.var h.shift (List.range numRings) s with
  | none => .waiting s.events
  | some s1 =>
    match thrRings h.mode h.inv h.bias (List.range numRings) s1 with
    | none => .refused (.unwritten .int)
    | some s2 => decfRun s2

/-- `HYP` for a hypothesis (R34). -/
def hypRegOf (h : Hypothesis) : HypReg where
  var := BitVec.ofNat 3 h.var
  inv := h.inv
  bias := BitVec.ofNat 3 h.bias
  mode := h.mode == .histogram
  shift := BitVec.ofNat 11 h.shift
  valid := true

/-- `HYPCNT <- HYPCNT + 1` and `HYP <- (..)` after a hypothesis (R214). -/
def recordHypothesis (h : Hypothesis) (s : State) : State :=
  { s with hypCnt := s.hypCnt + 1, hyp := hypRegOf h }

/-- The hypotheses of a list in order, up to the first that validates (R214, R215). A failing hypothesis is swallowed. -/
def tryHypotheses : List Hypothesis → State → Effect
  | [], s => .ended .searchExhausted s
  | h :: hs, s =>
    match evaluate h s with
    | .ended code t =>
      if code = .ok then .ended .ok (recordHypothesis h t)
      else tryHypotheses hs (recordHypothesis h t)
    | .waiting events => .waiting events
    | .refused r => .refused r

/-- The variants of a list in order (R214): one progress event, then the variant's hypotheses. -/
def tryVariants (nv : BitVec 3) : List Nat → State → Effect
  | [], s => .ended .searchExhausted s
  | v :: vs, s =>
    match tryHypotheses (hypothesesOf s.params.ring0 v) (emitProgress (BitVec.ofNat 3 v) nv s) with
    | .ended code t => if code = .ok then .ended .ok t else tryVariants nv vs t
    | .waiting events => .waiting events
    | .refused r => .refused r

/-- The first line of the loop of R214; the list of events begins empty (R243). -/
def sweepStart (nv : BitVec 3) (s : State) : State :=
  { s with
    hypCnt := 0
    hyp := { var := 0, inv := false, bias := 0, mode := false, shift := 0, valid := false }
    progress := { var := 0, nv := nv, count := 0 }
    outLen := 0
    events := [] }

/-- `SWEEP nv` up to its completion step (R214). -/
def sweepRun (nv : BitVec 3) (s : State) : Effect :=
  tryVariants nv (List.range nv.toNat) (sweepStart nv s)

/-- `SWEEP nv` (R214). -/
def execSweep (nv : BitVec 3) (s : State) : StepOutcome :=
  if 5 < nv.toNat then raise .illegalCommand s else finish s (sweepRun nv s)

/-- The thirteen commands of `HYP1 var, inv, bias, mode, shift` (R102). -/
def hyp1 (var : BitVec 3) (inv : Bool) (i : BitVec 3) (mode : Mode) (shift : BitVec 11) : List Instr :=
  [0, 1, 2, 3, 4, 5].map (fun r => Instr.samp r var shift)
    ++ [0, 1, 2, 3, 4, 5].map (fun r => Instr.thr r mode inv i) ++ [Instr.decf]

end Sys2Proof.Machine
end

