-- ==== Sys2Proof/Machine/Dispatch.lean ====
section
/-! DEFINITION. The command dispatch: one arm per constructor of Instr. -/

namespace Sys2Proof.Machine

def exec (i : Instr) (s : State) : Host.Outcome State Fault Refusal :=
  match i with
  | .encf ecc => Sys2Proof.Machine.execEncf ecc s
  | .decf => Sys2Proof.Machine.execDecf s
  | .apred n => Sys2Proof.Machine.execApred n s
  | .valred n => Sys2Proof.Machine.execValred n s
  | .mapb idx => Sys2Proof.Machine.execMapb idx s
  | .maps ring sector => Sys2Proof.Machine.execMaps ring sector s
  | .samp ring var shift => Sys2Proof.Machine.execSamp ring var shift s
  | .thr ring mode inv bias => Sys2Proof.Machine.execThr ring mode inv bias s
  | .sweep nv => Sys2Proof.Machine.execSweep nv s

end Sys2Proof.Machine
end

