-- ==== Sys2Proof/Decode.lean ====
section
/-! DEFINITION. Decoding of command words (R95 to R99), total on all 32-bit words and rejecting by name, and after it the
encoder, written from the same formats (R97). -/

namespace Sys2Proof

/-- Why a word is no command: both complete with `IllegalCommand` (R98, R99, R239). -/
inductive DecodeError
  /-- Opcode `0x00` or `0x0A` to `0xFF` (R99). -/
  | reservedOpcode
  /-- A 1 in a must-be-zero bit of the opcode's format (R98). -/
  | mustBeZero
deriving DecidableEq, Repr

/-- Field `w[lo + n - 1 : lo]`, an unsigned number used as is (R97). -/
def field (w : Word) (lo n : Nat) : BitVec n := w.extractLsb' lo n

/-- Field `mode` of format T (R97, R193). -/
def decodeMode (b : BitVec 1) : Mode := if b = 1#1 then .histogram else .percentile

/-- The must-be-zero test of a format whose fields end below bit `used` (R97, R98). -/
def checkedZero (w : Word) (used : Nat) (i : Instr) : Except DecodeError Instr :=
  if w >>> used = 0#32 then .ok i else .error .mustBeZero

/-- The command a word encodes (R96, R97), or why there is none (R98, R99). -/
def decode (w : Word) : Except DecodeError Instr :=
  match (field w 0 8).toNat with
  | 0x01 => checkedZero w 10 (.encf (field w 8 2))
  | 0x02 => checkedZero w 8 .decf
  | 0x03 => checkedZero w 16 (.apred (field w 8 8))
  | 0x04 => checkedZero w 16 (.valred (field w 8 8))
  | 0x05 => checkedZero w 19 (.mapb (field w 8 11))
  | 0x06 => checkedZero w 22 (.maps (field w 8 3) (field w 11 11))
  | 0x07 => checkedZero w 25 (.samp (field w 8 3) (field w 11 3) (field w 14 11))
  | 0x08 => checkedZero w 16 (.thr (field w 8 3) (decodeMode (field w 11 1)) (field w 12 1 == 1#1) (field w 13 3))
  | 0x09 => checkedZero w 11 (.sweep (field w 8 3))
  | _ => .error .reservedOpcode

/-- The command an instruction word of `nbits` bits, numbered as spec/opcode_table.json numbers them, stands for. All
commands are one 32-bit word (R95); bits above `nbits` are 0. -/
def decodeTableWord (nbits w : Nat) : Option Instr :=
  match decode (BitVec.ofNat 32 (w % 2 ^ nbits)) with
  | .ok i => some i
  | .error _ => none

/-- Bit 11 of format T (R97, R193). -/
def encodeMode : Mode → BitVec 1
  | .percentile => 0#1
  | .histogram => 1#1

/-- The word of a command: its format's fields from bit 31 down, must-be-zero bits first (R96, R97). -/
def encode : Instr → Word
  | .encf ecc => 0#22 ++ ecc ++ 0x01#8
  | .decf => 0#24 ++ 0x02#8
  | .apred n => 0#16 ++ n ++ 0x03#8
  | .valred n => 0#16 ++ n ++ 0x04#8
  | .mapb idx => 0#13 ++ idx ++ 0x05#8
  | .maps ring sector => 0#10 ++ sector ++ ring ++ 0x06#8
  | .samp ring var shift => 0#7 ++ shift ++ var ++ ring ++ 0x07#8
  | .thr ring mode inv bias => 0#16 ++ bias ++ BitVec.ofBool inv ++ encodeMode mode ++ ring ++ 0x08#8
  | .sweep nv => 0#21 ++ nv ++ 0x09#8

end Sys2Proof
end

