-- ==== Sys2Proof/Machine/HostPort.lean ====
section
/-! DEFINITION. The host space (R60 to R68): the register and buffer map, reads and writes of 1, 2 and 4 bytes, the busy
handshake (R70 to R72), and the other acts of the outside world: reset and new surfaces (R262, R267). -/

namespace Sys2Proof.Machine

/-- Bytes of an access (R62). -/
def sizeBytes : AccessSize → Nat
  | .byte => 1
  | .half => 2
  | .word => 4

/-- Offset `a` lies in the window of `size` bytes at `base`. -/
def inWindow (base size a : Nat) : Bool := decide (base ≤ a) && decide (a < base + size)

/-- End of the registers (R62: offsets `0x000` to `0x05F`). -/
def regEnd : Nat := 0x60
/-- Packed size of `BITS` (R65). -/
def bitsBytes : Nat := 168
/-- Size of the `INT` window. -/
def intBytes : Nat := 4 * capTotal

/-- A word's bytes, the byte at the lowest offset first (R63). -/
def wordBytes (w : Word) : List Byte :=
  [w.extractLsb' 0 8, w.extractLsb' 8 8, w.extractLsb' 16 8, w.extractLsb' 24 8]

/-- The value of an access whose bytes are given, the byte at the lowest offset first (R63). -/
def leWord (l : List Byte) : Word := BitVec.ofNat 32 (l.foldr (fun b acc => b.toNat + 256 * acc) 0)

/-! ### Reads -/

/-- What a host read returns. -/
inductive ReadResult
  /-- A value the spec gives. -/
  | value (w : Word)
  /-- An unspecified value (R62, R72; U2, U3). -/
  | unspecified
  /-- No meaning: an element nothing has written since reset (U6). -/
  | unwritten (b : Buffer)
deriving DecidableEq, Repr

/-- The register at an offset below `0x060` (R61); `CMD` and the unmapped offsets read 0 (R67, R68). -/
def regWord (s : State) (a : Nat) : Word :=
  match a with
  | 0x000 => 0
  | 0x004 => statusWord s
  | 0x008 => 0#16 ++ s.txtLen
  | 0x00C => 0#24 ++ s.cwLen
  | 0x010 => 0#24 ++ s.outLen
  | 0x014 => 0#24 ++ s.redLen
  | 0x018 => hdrLoWord s.hdr
  | 0x01C => hdrHiWord s.hdr
  | 0x020 => xorsumWord s.xorsum
  | 0x024 => hypWord s.hyp
  | 0x028 => s.hypCnt
  | 0x02C => progressWord s.progress
  | 0x030 => mapRsWord s.mapRs
  | 0x034 => mapIdxWord s.mapIdx
  | 0x040 => BitVec.ofNat 32 capTotal
  | 0x044 => BitVec.ofNat 32 capData
  | 0x048 => maxPayWord
  | 0x04C => eccTabWord
  | 0x050 => ringTabWord s.params 0
  | 0x054 => ringTabWord s.params 1
  | 0x058 => ringTabWord s.params 2
  | 0x05C => paramsWord s.params
  | _ => 0

/-- A byte of a buffer, or the buffer it is missing from. -/
def orUnwritten (b : Buffer) : Option Byte → Except Buffer Byte
  | some v => .ok v
  | none => .error b

/-- The byte at an offset outside the registers and the `INT` window (R61, R65); unmapped offsets read 0 (R67). -/
def hostByte (s : State) (a : Nat) : Except Buffer Byte :=
  if inWindow txtBase txtSize a then orUnwritten .txt (Memory.read s.mem a)
  else if inWindow cwBase codewordBytes a then orUnwritten .cw (Memory.read s.mem a)
  else if inWindow outBase codewordBytes a then orUnwritten .out (Memory.read s.mem a)
  else if inWindow redBase redSize a then orUnwritten .red (Memory.read s.mem a)
  else if inWindow bitsBase bitsBytes a then orUnwritten .bits (byteAt s (8 * (a - bitsBase)))
  else .ok 0

/-- The `n` bytes from offset `a` on, each by the map for its own offset (R62). -/
def hostBytes (s : State) : Nat → Nat → Except Buffer (List Byte)
  | _, 0 => .ok []
  | a, n + 1 =>
    match hostByte s a with
    | .error b => .error b
    | .ok v =>
      match hostBytes s (a + 1) n with
      | .error b => .error b
      | .ok vs => .ok (v :: vs)

/-- `MemRead(addr, n)` (R62, R72). -/
def hostRead (s : State) (addr : Offset) (size : AccessSize) : ReadResult :=
  let a := addr.toNat
  let n := sizeBytes size
  if s.busy then
    if a = 0x004 ∧ n = 4 then .value (statusWord s) else .unspecified
  else if a % n ≠ 0 then .unspecified
  else if a < regEnd then
    if n = 4 then .value (regWord s a) else .unspecified
  else if inWindow intBase intBytes a then
    if n = 4 then
      match Memory.read s.ints ((a - intBase) / 4) with
      | some e => .value e
      | none => .unwritten .int
    else .unspecified
  else
    match hostBytes s a n with
    | .ok bs => .value (leWord bs)
    | .error b => .unwritten b

/-! ### Writes -/

/-- A write to the register at an offset below `0x060` (R61): `CMD` starts a command (R29, R33), `TXT_LEN` and `CW_LEN`
keep their bits, everything else ignores it (R67, R68). -/
def writeReg (s : State) (a : Nat) (v : Word) : State :=
  match a with
  | 0x000 => accept v s
  | 0x008 => { s with txtLen := v.extractLsb' 0 16 }
  | 0x00C => { s with cwLen := v.extractLsb' 0 8 }
  | _ => s

/-- A byte write outside the registers and the `INT` window (R61, R65, R67, R68). -/
def writeHostByte (s : State) (a : Nat) (b : Byte) : State :=
  if inWindow txtBase txtSize a then { s with mem := Memory.writeRun s.mem a [b] }
  else if inWindow cwBase codewordBytes a then { s with mem := Memory.writeRun s.mem a [b] }
  else if inWindow bitsBase bitsBytes a then writeBits s (8 * (a - bitsBase)) (byteBits b)
  else s

/-- Byte writes from offset `a` on, each by the map for its own offset (R62). -/
def writeHostBytes (s : State) : Nat → List Byte → State
  | _, [] => s
  | a, b :: bs => writeHostBytes (writeHostByte s a b) (a + 1) bs

/-- `MemWrite(addr, n, v)` (R62, R72). -/
def hostWrite (s : State) (addr : Offset) (size : AccessSize) (v : Word) : State :=
  let a := addr.toNat
  let n := sizeBytes size
  if s.busy then s
  else if a % n ≠ 0 then s
  else if a < regEnd then
    if n = 4 then writeReg s a v else s
  else if inWindow intBase intBytes a then
    if n = 4 then writeInts s ((a - intBase) / 4) [v] else s
  else writeHostBytes s a ((wordBytes v).take n)

/-! ### The outside world's turns -/

/-- The value of the next unspecified read (log 10), as many bytes as the access has. -/
def unspecifiedReply (s : State) (size : AccessSize) : Word :=
  leWord ((wordBytes (Config.freeRead s.fresh)).take (sizeBytes size))

/-- One host access. A read leaves the block as it is (R68). -/
def hostTurn (s : State) : HostAccess → StepOutcome
  | .read addr size =>
    match hostRead s addr size with
    | .value w => .next { s with replies := s.replies ++ [w] }
    | .unspecified =>
      .next { s with replies := s.replies ++ [unspecifiedReply s size], fresh := s.fresh + 1 }
    | .unwritten b => .refused (.unwritten b)
  | .write addr size v => .next (hostWrite s addr size v)

/-- The running command is a legal `SAMP` or `SWEEP` (R267). -/
def sampling (s : State) : Bool :=
  match s.cmd with
  | none => false
  | some w =>
    match decode w with
    | .ok (.samp ring var shift) => legal s (.samp ring var shift)
    | .ok (.sweep nv) => legal s (.sweep nv)
    | .ok (.encf _) => false
    | .ok .decf => false
    | .ok (.apred _) => false
    | .ok (.valred _) => false
    | .ok (.mapb _) => false
    | .ok (.maps _ _) => false
    | .ok (.thr _ _ _ _) => false
    | .error _ => false

/-- New surfaces behind the tap port (R263); refused under a running `SAMP` or `SWEEP` (R267, U4). -/
def surfacesTurn (s : State) (unit : TapUnit) : StepOutcome :=
  if sampling s then .refused .surfacesChanged else .next { s with taps := unit }

end Sys2Proof.Machine
end

