-- ==== Sys2Proof/Machine/Step.lean ====
section
/-! DEFINITION. One step: the next act of the outside world, or the engine's turn (log 4), and the placing of a command
word where the engine takes its next one. -/

namespace Sys2Proof.Machine

/-- The engine's turn: the accepted command runs to its completion step (R5, R33); an idle engine does nothing. -/
def engineTurn (s : State) : StepOutcome :=
  match s.cmd with
  | none => .next s
  | some w =>
    match decode w with
    | .ok i => exec i s
    | .error _ => rejectWord s

/-- What one input does, taken off the list. -/
def inputTurn (s : State) : Input → StepOutcome
  | .engine => engineTurn s
  | .host access => hostTurn s access
  | .rst => .next (resetBlock s)
  | .surfaces unit => surfacesTurn s unit

/-- One step of the machine. With nothing due around it, the engine has its turn. -/
def step (s : State) : Host.Outcome State Fault Refusal :=
  match s.inputs with
  | [] => engineTurn s
  | x :: rest => inputTurn { s with inputs := rest } x

/-- The command word `w` accepted (the acceptance step of a `CMD` write, R33) and the engine's turn next, so that the very
next step runs it (log 6). Bits above `nbits` are 0. -/
def State.withFetchWord (s : State) (nbits w : Nat) : State :=
  { accept (BitVec.ofNat 32 (w % 2 ^ nbits)) s with inputs := .engine :: s.inputs }

end Sys2Proof.Machine
end

