-- ==== Sys2Proof/Machine/Geometry.lean ====
section
/-! DEFINITION. The angles of the layout in turns (R116, R181). The block computes none of them: they are what the units
around it must give a tap request and a bit of a frame. -/

namespace Sys2Proof.Machine

/-- The value of a rational parameter. -/
def fracValue (f : Frac) : Rat := (f.num : Rat) / (f.den : Rat)

/-- `x mod 1` (R181). -/
def turn (x : Rat) : Rat := x - (x.floor : Rat)

/-- `theta(r, s, k, a)`: the angle of sub-sample `k` of sector `s` of ring `r` under anchor shift `a` (R181). -/
def theta (p : Params) (r s k a : Nat) : Rat :=
  let keep := fracValue p.angleKeepFrac
  turn ((a : Rat) / (p.sectors 0 : Rat)
    + ((s : Rat) + (1 - keep) / 2 + keep * (2 * (k : Rat) + 1) / 16) / (p.sectors r : Rat))

/-- The span of sector `s` of ring `r` (R116). -/
def sectorSpan (p : Params) (r s : Nat) : Rat × Rat :=
  ((s : Rat) / (p.sectors r : Rat), ((s : Rat) + 1) / (p.sectors r : Rat))

/-- The painted arc of sector `s` of ring `r` (R116). -/
def arcSpan (p : Params) (r s : Nat) : Rat × Rat :=
  let fill := fracValue p.arcFillFrac
  (((s : Rat) + (1 - fill) / 2) / (p.sectors r : Rat), ((s : Rat) + (1 + fill) / 2) / (p.sectors r : Rat))

end Sys2Proof.Machine
end

