-- ==== Sys2Proof/Safety.lean ====
section
/-! DEFINITION. What counts as a good state and a safe step, in the terms the claims use. -/

namespace Sys2Proof.Machine

/-- An offset that holds a byte of `TXT`, `CW`, `OUT` or `RED` (R61). -/
def byteBuffer (a : Nat) : Bool :=
  inWindow txtBase txtSize a || inWindow cwBase codewordBytes a || inWindow outBase codewordBytes a
    || inWindow redBase redSize a

/-- Every byte from `base` on, `n` of them, has been written since reset. -/
def Written (l : List Host.Cell) (base n : Nat) : Prop := ∀ i < n, ∃ b, Memory.read l (base + i) = some b

/-- The invariant of the machine: the parameters are an instance of the block (R8, R110); the stores are canonical and
hold only elements that exist (R21 to R27); the result registers hold legal values (R24, R25, R34, R36, R38); the result
bytes the length registers announce are there; and `BUSY`, `DONE` and `CODE` agree (R30, R33). -/
structure Inv (s : State) : Prop where
  params : s.params.Valid
  memCanonical : Memory.wf s.mem
  memMapped : ∀ c ∈ s.mem, byteBuffer c.1 = true
  bitsCanonical : Memory.wf s.bits
  bitsMapped : ∀ c ∈ s.bits, c.1 < capTotal
  intsCanonical : Memory.wf s.ints
  intsMapped : ∀ c ∈ s.ints, c.1 < capTotal
  outLegal : s.outLen.toNat ≤ codewordBytes
  outWritten : Written s.mem outBase s.outLen.toNat
  redLegal : s.redLen.toNat ≤ redSize
  redWritten : Written s.mem redBase s.redLen.toNat
  hypLegal : s.hyp.var.toNat ≤ 4 ∧ s.hyp.bias.toNat ≤ 4 ∧ s.hyp.shift.toNat < s.params.sectors 0
  progressLegal : s.progress.var.toNat ≤ 4 ∧ s.progress.nv.toNat ≤ 5 ∧ s.progress.count.toNat ≤ 5
  mapRsLegal : s.mapRs.ring.toNat ≤ 5 ∧ s.mapRs.sector.toNat < s.params.sectors s.mapRs.ring.toNat
  mapIdxLegal : s.mapIdx.toNat < capTotal
  busyNotDone : s.busy = true → s.done = false
  doneWithCode : s.busy = false → (s.done = true ↔ s.code ≠ .noCode)

/-- The tap-fetch unit answers every request of one ring (R221, R268). -/
def RingAnswered (s : State) (var ring shift : Nat) : Prop :=
  ∀ sector < s.params.sectors ring,
    ∀ q ∈ sectorRequests s.params.radiusTap.toNat var ring sector shift, tapAnswer s.taps q ≠ .silent

/-- A step that has a meaning. -/
def SafeStep (s : State) : Prop := ∃ t, step s = .next t

end Sys2Proof.Machine
end

