-- ==== Sys2Proof/Certificates/Slice0/Obligations.lean ====
section
/-! DEFINITION. The statements for the provers, each named for what it says, after the vocabulary they are written in: the
spec's own tables and formulas, spelled out beside the model's definitions and not by them. -/

namespace Sys2Proof.Spec

open Sys2Proof.Machine

/-! ### Vocabulary -/

/-- The (mask, match) pairs of spec/opcode_table.json. -/
def tableRows : List (Word × Word) :=
  [(0xFFFFFCFF, 0x00000001), (0xFFFFFFFF, 0x00000002), (0xFFFF00FF, 0x00000003), (0xFFFF00FF, 0x00000004),
   (0xFFF800FF, 0x00000005), (0xFFC000FF, 0x00000006), (0xFE0000FF, 0x00000007), (0xFFFF00FF, 0x00000008),
   (0xFFFFF8FF, 0x00000009)]

/-- The word fits a row of the table. -/
def FitsTable (w : Word) : Prop := ∃ row ∈ tableRows, w &&& row.1 = row.2

/-- The table of R100. -/
def InRange (s : State) : Instr → Prop
  | .encf _ => True
  | .decf => True
  | .apred n => n.toNat ≤ 64 ∧ s.txtLen.toNat ≤ 149
  | .valred _ => s.cwLen.toNat ≤ 157
  | .mapb idx => idx.toNat ≤ 1343
  | .maps ring sector => ring.toNat ≤ 5 ∧ sector.toNat < s.params.sectors ring.toNat
  | .samp ring var shift => ring.toNat ≤ 5 ∧ var.toNat ≤ 4 ∧ shift.toNat < s.params.sectors 0
  | .thr ring _ _ bias => ring.toNat ≤ 5 ∧ bias.toNat ≤ 4
  | .sweep nv => nv.toNat ≤ 5

/-- The completion step (R33). -/
def ended (c : Code) (s : State) : State := { s with cmd := none, done := true, code := c }

/-- The numbers of the status codes (R231). -/
def codeNumber : Code → Nat
  | .noCode => 0
  | .ok => 1
  | .payloadTooLarge => 2
  | .headerChecksumMismatch => 3
  | .payloadLengthInvalid => 4
  | .insufficientBits => 5
  | .redundancyValidationFailed => 6
  | .searchExhausted => 7
  | .illegalCommand => 8

/-- `OFF[r]` as a sum of sector counts (R9). -/
def offset (p : Params) (r : Nat) : Nat := ((List.range r).map p.sectors).sum

/-- `MAX_PAYLOAD` (R6). -/
def payloadLimit : Nat → Nat
  | 0 => 149
  | 1 => 141
  | 2 => 125
  | _ => 93

/-- `ECC_BYTES` (R6). -/
def redundancyCount : Nat → Nat
  | 0 => 8
  | 1 => 16
  | 2 => 32
  | _ => 64

/-- The exclusive or of `f 0, .., f (m - 1)`. -/
def xorUpTo (m : Nat) (f : Nat → Byte) : Byte := (List.range m).foldl (fun acc j => acc ^^^ f j) 0

/-- Redundancy byte `i` of the payload `b 0, .., b (m - 1)` (R161). -/
def redundancyAt (m : Nat) (b : Nat → Byte) (i : Nat) : Byte :=
  xorUpTo m fun j => BitVec.ofNat 8 ((b j).toNat * (i + 1))

/-- How many of `b 0, .., b (m - 1)` are `0x00` or `0xFF` (R165). -/
def suspects (m : Nat) (b : Nat → Byte) : Nat :=
  ((List.range m).filter fun j => b j = 0x00 || b j = 0xFF).length

/-- The byte `v` stands at bit `p` of a bitstream, most significant bit first (R86). -/
def ByteAt (l : List (Nat × Bool)) (p : Nat) (v : Byte) : Prop :=
  ∀ k < 8, Memory.read l (p + k) = some (v.getLsbD (7 - k))

/-- The seven header bytes of `BITS` (R82). -/
def HeaderIs (s : State) (hb : Nat → Byte) : Prop := ∀ j < 7, ByteAt s.bits (32 + 8 * j) (hb j)

/-- The recomputed checksum (R83). -/
def checksumOf (hb : Nat → Byte) : Nat :=
  ((hb 0).toNat + (hb 1).toNat + (hb 2).toNat + (hb 3).toNat + (hb 4).toNat + (hb 5).toNat) % 256

/-- The declared payload length (R82). -/
def payLenOf (hb : Nat → Byte) : Nat := 256 * (hb 2).toNat + (hb 3).toNat

/-- The declared redundancy length (R82). -/
def redLenOf (hb : Nat → Byte) : Nat := 256 * (hb 4).toNat + (hb 5).toNat

/-- The capacity of the declared level (R143). -/
def capacityOf (hb : Nat → Byte) : Nat := if (hb 1).toNat ≤ 3 then 157 else 0

/-- `HDR_LO` and `HDR_HI` for the header bytes (R31). -/
def headerRegister (hb : Nat → Byte) : Header where
  ver := hb 0
  ecc := hb 1
  payLen := BitVec.ofNat 16 (payLenOf hb)
  redLen := BitVec.ofNat 16 (redLenOf hb)
  cksum := hb 6
  ckCalc := BitVec.ofNat 8 (checksumOf hb)

/-- The header passes the checks before validation (R141 to R143). -/
def HeaderAccepted (hb : Nat → Byte) : Prop :=
  checksumOf hb = (hb 6).toNat ∧ payLenOf hb ≠ 0 ∧ payLenOf hb + redLenOf hb ≤ capacityOf hb

/-- The answer of a unit that is never silent. -/
def answerOf : Option Byte → TapAnswer
  | some u => .pixel u
  | none => .outOfBounds

/-- The request of sub-sample `k` at the `j`-th radial offset, `d = j - T` (R182). -/
def requestAt (s : State) (var ring sector shift k j : Nat) : TapRequest :=
  { var := var, ring := ring, sector := sector, sub := k
    offset := (j : Int) - (s.params.radiusTap.toNat : Int), shift := shift }

/-- `SUM` of a sector (R184). -/
def sectorSum (s : State) (tap : TapRequest → Option Byte) (var ring sector shift : Nat) : Nat :=
  ∑ k ∈ Finset.range 8, ∑ j ∈ Finset.range (2 * s.params.radiusTap.toNat + 1),
    ((tap (requestAt s var ring sector shift k j)).map BitVec.toNat).getD 0

/-- `CNT` of a sector (R184). -/
def sectorCnt (s : State) (tap : TapRequest → Option Byte) (var ring sector shift : Nat) : Nat :=
  ∑ k ∈ Finset.range 8, ∑ j ∈ Finset.range (2 * s.params.radiusTap.toNat + 1),
    if (tap (requestAt s var ring sector shift k j)).isSome then 1 else 0

/-- `val(e)` (R28). -/
def valueOf (e : Word) : Rat :=
  if (e.extractLsb' 16 8).toNat = 0 then 255
  else ((e.extractLsb' 0 16).toNat : Rat) / ((e.extractLsb' 16 8).toNat : Rat)

/-- `BIAS` (R6): 1.00, 0.95, 1.05, 0.90, 1.10. -/
def biasFactor : Nat → Rat
  | 0 => 1
  | 1 => 95 / 100
  | 2 => 105 / 100
  | 3 => 90 / 100
  | _ => 110 / 100

/-- `BIAS_NUM` (R7): the bias factors in twentieths. -/
def biasTwentieths : Nat → Nat
  | 0 => 20
  | 1 => 19
  | 2 => 21
  | 3 => 18
  | _ => 22

/-- The intensities of ring `ring` are `vals` (R193). -/
def RingValues (s : State) (ring : Nat) (vals : List Rat) : Prop :=
  vals.length = s.params.sectors ring ∧
  ∀ i < s.params.sectors ring,
    ∃ e, Memory.read s.ints (offset s.params ring + i) = some e ∧ vals[i]? = some (valueOf e)

/-- The split of the bins at `t` has two non-empty classes (R191). -/
def Splits (bins : List Nat) (t : Nat) : Prop := t < 256 ∧ (∃ b ∈ bins, b ≤ t) ∧ ∃ b ∈ bins, t < b

/-- Numerator `A` of the score of the split at `t` (R191). -/
def scoreNum (bins : List Nat) (t : Nat) : Int :=
  (((bins.filter (· ≤ t)).sum : Int) * ((bins.filter (t < ·)).length : Int)
    - ((bins.filter (t < ·)).sum : Int) * ((bins.filter (· ≤ t)).length : Int)) ^ 2

/-- Denominator `Bq` of the score of the split at `t` (R191). -/
def scoreDen (bins : List Nat) (t : Nat) : Int :=
  ((bins.filter (· ≤ t)).length : Int) * ((bins.filter (t < ·)).length : Int)

/-- `t` is the `tstar` of R191: the lowest split of greatest score, 0 if there is no split. -/
def IsBestSplit (bins : List Nat) (t : Nat) : Prop :=
  (Splits bins t ∧ ∀ t', Splits bins t' →
      scoreNum bins t' * scoreDen bins t ≤ scoreNum bins t * scoreDen bins t' ∧
      (t' < t → scoreNum bins t' * scoreDen bins t < scoreNum bins t * scoreDen bins t')) ∨
  (t = 0 ∧ ∀ t', ¬ Splits bins t')

/-- The bin of an intensity (R191). -/
def binAt (v : Rat) : Nat := min 255 (Int.toNat ⌊v⌋)

/-- `ceil(N0/4)` (R211). -/
def shiftTotal (s : State) : Nat := (s.params.sectors 0 + 3) / 4

/-- The number of hypotheses of a full sweep (R211). -/
def hypothesisTotal (s : State) (nv : BitVec 3) : Nat := nv.toNat * 2 * 5 * 2 * shiftTotal s

/-- The hypothesis of rank `k` (R212): the inverse of the rank formula. -/
def hypothesisAt (s : State) (k : Nat) : Hypothesis :=
  let c := shiftTotal s
  { var := k / (20 * c)
    inv := decide (k / (10 * c) % 2 = 1)
    bias := k / (2 * c) % 5
    mode := if k / c % 2 = 1 then .histogram else .percentile
    shift := 4 * (k % c) }

/-- Commands one after the other. -/
def runAll : List Instr → State → StepOutcome
  | [], s => .next s
  | i :: is, s =>
    match exec i s with
    | .next t => runAll is t
    | .fault f => .fault f
    | .refused r => .refused r

/-- The thirteen commands that evaluate a hypothesis by hand (R102). -/
def byHand (h : Hypothesis) : List Instr :=
  let var := BitVec.ofNat 3 h.var
  let shift := BitVec.ofNat 11 h.shift
  let i := BitVec.ofNat 3 h.bias
  [.samp 0 var shift, .samp 1 var shift, .samp 2 var shift, .samp 3 var shift, .samp 4 var shift, .samp 5 var shift,
   .thr 0 h.mode h.inv i, .thr 1 h.mode h.inv i, .thr 2 h.mode h.inv i, .thr 3 h.mode h.inv i, .thr 4 h.mode h.inv i,
   .thr 5 h.mode h.inv i, .decf]

/-- A hypothesis that fails does so in the validation step: its `DECF` gives `RedundancyValidationFailed` (R148). -/
def ReachesValidation (s : State) (h : Hypothesis) : Prop :=
  ∃ v, runAll (byHand h) s = .next v ∧ v.code = .redundancyValidationFailed

/-- Every tap request of a hypothesis is answered (R221). -/
def HypothesisAnswered (s : State) (h : Hypothesis) : Prop := ∀ r < 6, RingAnswered s h.var r h.shift

/-- `HYP` after hypothesis `h` (R34). -/
def hypRegister (h : Hypothesis) : HypReg where
  var := BitVec.ofNat 3 h.var
  inv := h.inv
  bias := BitVec.ofNat 3 h.bias
  mode := decide (h.mode = .histogram)
  shift := BitVec.ofNat 11 h.shift
  valid := true

/-- The progress events of variants `0, .., m - 1` (R243). -/
def eventsUpTo (nv : BitVec 3) (m : Nat) : List ProgressEvent :=
  (List.range m).map fun v => { var := BitVec.ofNat 3 v, nv := nv }

/-- An offset whose byte a host write can change: `CMD`, `TXT_LEN`, `CW_LEN`, `TXT`, `CW`, `BITS`, `INT` (R61). -/
def HostWritable (a : Nat) : Prop :=
  a < 0x004 ∨ (0x008 ≤ a ∧ a < 0x010) ∨ (0x100 ≤ a ∧ a < 0x195) ∨ (0x200 ≤ a ∧ a < 0x29D) ∨
  (0x500 ≤ a ∧ a < 0x5A8) ∨ (0x1000 ≤ a ∧ a < 0x2500)

/-- The unmapped offsets (R67). -/
def Unmapped (a : Nat) : Prop :=
  (0x038 ≤ a ∧ a < 0x040) ∨ (0x060 ≤ a ∧ a < 0x100) ∨ (0x195 ≤ a ∧ a < 0x200) ∨ (0x29D ≤ a ∧ a < 0x300) ∨
  (0x39D ≤ a ∧ a < 0x400) ∨ (0x440 ≤ a ∧ a < 0x500) ∨ (0x5A8 ≤ a ∧ a < 0x1000) ∨ (0x2500 ≤ a ∧ a < 0x4000)

/-- An offset of a register or an `INT` word, which take only 4-byte accesses (R62). -/
def WordOnly (a : Nat) : Prop := a < 0x060 ∨ (0x1000 ≤ a ∧ a < 0x2500)

/-- An access the block refuses (R62): wrong alignment, or wrong size for the location. -/
def RefusedAccess (a : Nat) (size : AccessSize) : Prop :=
  a % sizeBytes size ≠ 0 ∨ (WordOnly a ∧ size ≠ .word)

/-- Offset `a` holds a byte of the buffer (R61); `BITS` and `INT` are not kept as bytes. -/
def ByteOf (a : Nat) : Buffer → Prop
  | .txt => 0x100 ≤ a ∧ a < 0x195
  | .cw => 0x200 ≤ a ∧ a < 0x29D
  | .out => 0x300 ≤ a ∧ a < 0x39D
  | .red => 0x400 ≤ a ∧ a < 0x440
  | .bits => False
  | .int => False

/-- A byte of `TXT` or `CW` (R21, R23). -/
def HostByteBuffer (a : Nat) : Prop := (0x100 ≤ a ∧ a < 0x195) ∨ (0x200 ≤ a ∧ a < 0x29D)

end Sys2Proof.Spec

open Sys2Proof Sys2Proof.Machine Sys2Proof.Spec

/-! ### Decoding and stepping -/

/-- Decoding the word of a command gives it back, every field at every value (R95 to R97). -/
def Obligations.DecodeOfEncode : Prop := ∀ i : Instr, decode (encode i) = .ok i

/-- A word that decodes is the word of its command: no bit is dropped (R97, R98). -/
def Obligations.EncodeOfDecode : Prop := ∀ (w : Word) (i : Instr), decode w = .ok i → encode i = w

/-- A word decodes exactly when it fits a row of the opcode table (R96 to R99). -/
def Obligations.WordDecodesIffItFitsTheTable : Prop := ∀ w : Word, (∃ i, decode w = .ok i) ↔ FitsTable w

/-- The worked encodings of R103. -/
def Obligations.WorkedEncodings : Prop :=
  ∀ c ∈ ([(.encf 0, 0x00000001), (.encf 3, 0x00000301), (.decf, 0x00000002), (.apred 8, 0x00000803),
      (.valred 8, 0x00000804), (.mapb 1343, 0x00053F05), (.maps 5 303, 0x00097D06), (.samp 0 0 8, 0x00020007),
      (.samp 5 4 140, 0x00232507), (.thr 0 .percentile false 0, 0x00000008), (.thr 5 .histogram true 4, 0x00009D08),
      (.sweep 1, 0x00000109), (.sweep 5, 0x00000509)] : List (Instr × Word)),
    encode c.1 = c.2 ∧ decode c.2 = .ok c.1

/-- A step runs the command of the accepted word; an engine's turn is taken off the list of inputs first. -/
def Obligations.StepRunsTheAcceptedCommand : Prop :=
  ∀ (s : State) (w : Word) (i : Instr), s.cmd = some w → decode w = .ok i →
    (s.inputs = [] → step s = exec i s) ∧
    (∀ rest, s.inputs = .engine :: rest → step s = exec i { s with inputs := rest })

/-- After a word is placed, the very next step runs the command the decoder reads from it. -/
def Obligations.PlacedWordRunsNext : Prop :=
  ∀ (s : State) (nbits w : Nat) (i : Instr), decodeTableWord nbits w = some i →
    step (s.withFetchWord nbits w) = exec i (accept (BitVec.ofNat 32 (w % 2 ^ nbits)) s)

/-- At the engine's turn a word with a reserved opcode or a must-be-zero bit set completes with `IllegalCommand` and writes
nothing else (R98, R99). -/
def Obligations.WordOutsideTheTableIsIllegal : Prop :=
  ∀ (s : State) (w : Word), s.cmd = some w → ¬ FitsTable w →
    (s.inputs = [] → step s = .next (ended .illegalCommand s)) ∧
    (∀ rest, s.inputs = .engine :: rest → step s = .next (ended .illegalCommand { s with inputs := rest }))

/-- The ranges of R100: out of range completes with `IllegalCommand` and writes nothing else; in range never does. -/
def Obligations.OperandRangesDecideIllegality : Prop :=
  ∀ (i : Instr) (s : State),
    (¬ InRange s i → exec i s = .next (ended .illegalCommand s)) ∧
    (InRange s i → ∀ t, exec i s = .next t → s.busy = true → t.busy = false → t.code ≠ .illegalCommand)

/-- A command that answers has completed with a status code, which is never `InsufficientBits`, or waits for the tap-fetch
unit with nothing changed but the progress events already raised (R230, R235, R268). -/
def Obligations.CommandCompletesOrWaits : Prop :=
  ∀ (i : Instr) (s t : State), exec i s = .next t →
    (t.busy = false ∧ t.done = true ∧ t.code ≠ .noCode ∧ t.code ≠ .insufficientBits) ∨
    (((∃ r v a, i = .samp r v a) ∨ ∃ nv, i = .sweep nv) ∧ t = { s with events := t.events })

/-! ### Invariants -/

/-- The reset state is a good state; that its parameters are an instance of the block is the model's choice (log 1). -/
def Obligations.InvariantHoldsAtReset : Prop := Inv State.reset

/-- Every step keeps the invariant: canonical stores, legal result registers, results present, `BUSY`, `DONE` and `CODE`
in agreement. -/
def Obligations.StepKeepsInvariant : Prop := ∀ s t : State, Inv s → step s = .next t → Inv t

/-- No step changes what the constant registers show (R39). -/
def Obligations.ConstantRegistersNeverChange : Prop :=
  ∀ s t : State, step s = .next t →
    t.params = s.params ∧
    ∀ a ∈ [0x040, 0x044, 0x048, 0x04C, 0x050, 0x054, 0x058, 0x05C], regWord t a = regWord s a

/-- No command writes what only the host or the acceptance step writes: `TXT`, `TXT_LEN`, `CW`, `CW_LEN`, `LASTOP`, and
what is not the block's. -/
def Obligations.CommandsLeaveOperandsOfTheHost : Prop :=
  ∀ (i : Instr) (s t : State), exec i s = .next t →
    t.txtLen = s.txtLen ∧ t.cwLen = s.cwLen ∧ t.lastOp = s.lastOp ∧ t.params = s.params ∧ t.taps = s.taps ∧
    t.inputs = s.inputs ∧ t.replies = s.replies ∧ t.fresh = s.fresh ∧
    ∀ a < 0x300, Memory.read t.mem a = Memory.read s.mem a

/-- Each result register and buffer is written only by the commands that name it. -/
def Obligations.OnlyTheNamedCommandsWrite : Prop :=
  ∀ (i : Instr) (s t : State), exec i s = .next t →
    ((∀ nv, i ≠ .sweep nv) →
      t.hyp = s.hyp ∧ t.hypCnt = s.hypCnt ∧ t.progress = s.progress ∧ t.events = s.events) ∧
    ((∀ n, i ≠ .apred n) →
      t.redLen = s.redLen ∧ ∀ a, 0x400 ≤ a → Memory.read t.mem a = Memory.read s.mem a) ∧
    ((∀ idx, i ≠ .mapb idx) → t.mapRs = s.mapRs) ∧
    ((∀ r sct, i ≠ .maps r sct) → t.mapIdx = s.mapIdx) ∧
    ((∀ r v a, i ≠ .samp r v a) → (∀ nv, i ≠ .sweep nv) → t.ints = s.ints) ∧
    ((∀ e, i ≠ .encf e) → (∀ r m v b, i ≠ .thr r m v b) → (∀ nv, i ≠ .sweep nv) → t.bits = s.bits) ∧
    (i ≠ .decf → (∀ nv, i ≠ .sweep nv) → t.hdr = s.hdr) ∧
    (i ≠ .decf → (∀ n, i ≠ .valred n) → (∀ nv, i ≠ .sweep nv) →
      t.outLen = s.outLen ∧ t.xorsum = s.xorsum ∧
      ∀ a, a < 0x400 → Memory.read t.mem a = Memory.read s.mem a)

/-! ### The host port -/

/-- The fields of `STATUS` (R30) with the numbers of R231; and what an idle host reads of `STATUS`, the length registers
(R22 to R25) and the result registers (R31, R32, R34 to R36, R38): every field at its place, every other bit 0. -/
def Obligations.StatusShowsItsFields : Prop :=
  ∀ s : State,
    (statusWord s).toNat =
      (if s.cmd.isSome then 1 else 0) + 2 * (if s.done then 1 else 0) + 16 * codeNumber s.code + 256 * s.lastOp.toNat ∧
    (s.busy = false →
      ∀ c ∈ ([(0x004, 2 * (if s.done then 1 else 0) + 16 * codeNumber s.code + 256 * s.lastOp.toNat),
          (0x008, s.txtLen.toNat), (0x00C, s.cwLen.toNat), (0x010, s.outLen.toNat), (0x014, s.redLen.toNat),
          (0x018, s.hdr.ver.toNat + 2 ^ 8 * s.hdr.ecc.toNat + 2 ^ 16 * s.hdr.payLen.toNat),
          (0x01C, s.hdr.redLen.toNat + 2 ^ 16 * s.hdr.cksum.toNat + 2 ^ 24 * s.hdr.ckCalc.toNat),
          (0x020, s.xorsum.toNat),
          (0x024, s.hyp.var.toNat + 2 ^ 3 * (if s.hyp.inv then 1 else 0) + 2 ^ 4 * s.hyp.bias.toNat
            + 2 ^ 7 * (if s.hyp.mode then 1 else 0) + 2 ^ 8 * s.hyp.shift.toNat + 2 ^ 31 * (if s.hyp.valid then 1 else 0)),
          (0x028, s.hypCnt.toNat),
          (0x02C, s.progress.var.toNat + 2 ^ 4 * s.progress.nv.toNat + 2 ^ 8 * s.progress.count.toNat),
          (0x030, s.mapRs.ring.toNat + 2 ^ 3 * s.mapRs.sector.toNat), (0x034, s.mapIdx.toNat)] : List (Nat × Nat)),
        ∃ w, hostRead s (BitVec.ofNat 14 c.1) .word = .value w ∧ w.toNat = c.2)

/-- A `CMD` write while idle is the acceptance step, and only that (R29, R33, R70). -/
def Obligations.CmdWriteStartsCommand : Prop :=
  ∀ (s : State) (w : Word) (rest : List Input), s.busy = false →
    s.inputs = .host (.write 0 .word w) :: rest →
    step s = .next { s with
      inputs := rest, cmd := some w, done := false, lastOp := BitVec.ofNat 8 (w.toNat % 256), events := [] }

/-- While `BUSY = 1` every host write is ignored, a read of `STATUS` is valid, and any other read returns some value (R72).
That value is a free one (log 10), and the replies and the count of unspecified reads are the model's own (log 10, log 12). -/
def Obligations.HostAccessWhileBusy : Prop :=
  ∀ (s : State) (rest : List Input) (addr : Offset) (size : AccessSize), s.busy = true →
    (∀ v, s.inputs = .host (.write addr size v) :: rest → step s = .next { s with inputs := rest }) ∧
    (s.inputs = .host (.read addr size) :: rest →
      (addr = 0x004 → size = .word →
        step s = .next { s with inputs := rest, replies := s.replies ++ [statusWord s] }) ∧
      (¬ (addr = 0x004 ∧ size = .word) →
        ∃ v, step s = .next { s with inputs := rest, replies := s.replies ++ [v], fresh := s.fresh + 1 }))

/-- A host access that is due is what `hostRead` and `hostWrite` say: a read changes nothing in the block (R68), its reply
is the value where there is one, a free value (log 10) where the spec leaves it unspecified, and the step is refused where
nothing has been written (U6); a write leaves what `hostWrite` leaves. The model notes the replies (log 12). -/
def Obligations.HostReadHasNoSideEffect : Prop :=
  ∀ (s : State) (rest : List Input) (addr : Offset) (size : AccessSize),
    (s.inputs = .host (.read addr size) :: rest →
      (∀ t, step s = .next t → ∃ v, t = { s with inputs := rest, replies := s.replies ++ [v], fresh := t.fresh }) ∧
      (∀ w, hostRead s addr size = .value w → step s = .next { s with inputs := rest, replies := s.replies ++ [w] }) ∧
      (hostRead s addr size = .unspecified →
        ∃ v, step s = .next { s with inputs := rest, replies := s.replies ++ [v], fresh := s.fresh + 1 }) ∧
      (∀ b, hostRead s addr size = .unwritten b → step s = .refused (.unwritten b))) ∧
    (∀ v, s.inputs = .host (.write addr size v) :: rest →
      step s = .next (hostWrite { s with inputs := rest } addr size v))

/-- Read-only and unmapped locations ignore writes; an idle block reads 0 at unmapped offsets and at `CMD`, where the
access is aligned and below `0x060` a 4-byte one (R67, R68; log 11). -/
def Obligations.ReadOnlyAndUnmappedLocations : Prop :=
  ∀ (s : State) (addr : Offset) (size : AccessSize),
    (∀ v : Word, (∀ j < sizeBytes size, ¬ HostWritable (addr.toNat + j)) → hostWrite s addr size v = s) ∧
    (s.busy = false → ¬ RefusedAccess addr.toNat size →
      (addr = 0 ∨ ∀ j < sizeBytes size, Unmapped (addr.toNat + j)) → hostRead s addr size = .value 0)

/-- A refused access: a read returns an unspecified value, a write changes nothing (R62). -/
def Obligations.RefusedAccessHasNoEffect : Prop :=
  ∀ (s : State) (addr : Offset) (size : AccessSize) (v : Word), RefusedAccess addr.toNat size →
    hostRead s addr size = .unspecified ∧ hostWrite s addr size v = s

/-- A byte written to `TXT` or `CW` by an idle host's access is read back, and no other byte, bit or entry changes; `TXT_LEN`
keeps bits 15:0 and `CW_LEN` bits 7:0 of what is written to them, and they read back so; a byte of `TXT`, `CW`, `OUT` or
`RED`, a packed byte of `BITS` and an `INT` word that nothing has written are unwritten to a read, and a byte that has been
written is read as it is (R21 to R25, R61, U6). -/
def Obligations.HostByteIsReadBack : Prop :=
  ∀ s : State, s.busy = false →
    (∀ (addr : Offset) (v : Word), HostByteBuffer addr.toNat →
      let t := hostWrite s addr .byte v
      hostRead t addr .byte = .value (BitVec.ofNat 32 (v.toNat % 256)) ∧
      (∀ a, a ≠ addr.toNat → Memory.read t.mem a = Memory.read s.mem a) ∧
      t = { s with mem := t.mem }) ∧
    (∀ v : Word,
      hostWrite s 0x008 .word v = { s with txtLen := BitVec.ofNat 16 v.toNat } ∧
      hostRead (hostWrite s 0x008 .word v) 0x008 .word = .value (BitVec.ofNat 32 (v.toNat % 65536)) ∧
      hostWrite s 0x00C .word v = { s with cwLen := BitVec.ofNat 8 v.toNat } ∧
      hostRead (hostWrite s 0x00C .word v) 0x00C .word = .value (BitVec.ofNat 32 (v.toNat % 256))) ∧
    (∀ (a : Nat) (buffer : Buffer), ByteOf a buffer →
      (∀ b, Memory.read s.mem a = some b →
        hostRead s (BitVec.ofNat 14 a) .byte = .value (BitVec.ofNat 32 b.toNat)) ∧
      (Memory.read s.mem a = none → hostRead s (BitVec.ofNat 14 a) .byte = .unwritten buffer)) ∧
    (∀ j k, j < 168 → k < 8 → Memory.read s.bits (8 * j + k) = none →
      hostRead s (BitVec.ofNat 14 (0x500 + j)) .byte = .unwritten .bits) ∧
    (∀ p < 1344, Memory.read s.ints p = none →
      hostRead s (BitVec.ofNat 14 (0x1000 + 4 * p)) .word = .unwritten .int)

/-- A 2- or 4-byte access outside the registers and the `INT` words is 2 or 4 byte accesses, the byte at the lowest offset
in bits 7:0: writes, and an idle host's reads, which are unwritten where the first byte that is missing is (R62, R63; log
17). -/
def Obligations.WordWriteIsFourByteWrites : Prop :=
  ∀ (s : State) (addr : Offset), ¬ WordOnly addr.toNat →
    (∀ v : Word, addr.toNat % 4 = 0 →
      hostWrite s addr .word v =
        hostWrite (hostWrite (hostWrite (hostWrite s addr .byte v) (addr + 1) .byte (v >>> 8))
          (addr + 2) .byte (v >>> 16)) (addr + 3) .byte (v >>> 24)) ∧
    (∀ v : Word, addr.toNat % 2 = 0 →
      hostWrite s addr .half v = hostWrite (hostWrite s addr .byte v) (addr + 1) .byte (v >>> 8)) ∧
    (s.busy = false →
      (∀ b0 b1 b2 b3 : Byte, addr.toNat % 4 = 0 →
        hostRead s addr .byte = .value (0#24 ++ b0) → hostRead s (addr + 1) .byte = .value (0#24 ++ b1) →
        hostRead s (addr + 2) .byte = .value (0#24 ++ b2) → hostRead s (addr + 3) .byte = .value (0#24 ++ b3) →
        hostRead s addr .word = .value (b3 ++ b2 ++ b1 ++ b0)) ∧
      (∀ b0 b1 : Byte, addr.toNat % 2 = 0 →
        hostRead s addr .byte = .value (0#24 ++ b0) → hostRead s (addr + 1) .byte = .value (0#24 ++ b1) →
        hostRead s addr .half = .value (0#16 ++ b1 ++ b0)) ∧
      (∀ (size : AccessSize) (j : Nat) (b : Buffer), addr.toNat % sizeBytes size = 0 → j < sizeBytes size →
        (∀ i < j, ∃ w, hostRead s (addr + BitVec.ofNat 14 i) .byte = .value w) →
        hostRead s (addr + BitVec.ofNat 14 j) .byte = .unwritten b → hostRead s addr size = .unwritten b))

/-- Packed byte `j` of `BITS` holds `BITS[8j .. 8j+7]` with `BITS[8j]` in bit 7, for writes and for reads (R65). -/
def Obligations.PackedBitsAreMostSignificantFirst : Prop :=
  ∀ (s : State) (j : Nat) (v : Word), s.busy = false → j < 168 →
    (ByteAt (hostWrite s (BitVec.ofNat 14 (0x500 + j)) .byte v).bits (8 * j) (BitVec.ofNat 8 v.toNat) ∧
      ∀ p, p < 8 * j ∨ 8 * j + 8 ≤ p →
        Memory.read (hostWrite s (BitVec.ofNat 14 (0x500 + j)) .byte v).bits p = Memory.read s.bits p) ∧
    ∀ b : Byte, ByteAt s.bits (8 * j) b →
      hostRead s (BitVec.ofNat 14 (0x500 + j)) .byte = .value (BitVec.ofNat 32 b.toNat)

/-- An `INT` word is stored with all 32 bits and read back so (R66). -/
def Obligations.IntWordIsStoredWhole : Prop :=
  ∀ (s : State) (p : Nat) (v : Word), s.busy = false → p < 1344 →
    let t := hostWrite s (BitVec.ofNat 14 (0x1000 + 4 * p)) .word v
    hostRead t (BitVec.ofNat 14 (0x1000 + 4 * p)) .word = .value v ∧
    (∀ q, q ≠ p → Memory.read t.ints q = Memory.read s.ints q) ∧ t = { s with ints := t.ints }

/-- What the constant registers show an idle host (R39, R110, R111). -/
def Obligations.ConstantRegistersShowTheConstants : Prop :=
  ∀ s : State, s.busy = false → s.params.Valid →
    hostRead s 0x040 .word = .value 1344 ∧ hostRead s 0x044 .word = .value 1256 ∧
    hostRead s 0x048 .word = .value 0x5D7D8D95 ∧ hostRead s 0x04C .word = .value 0x40201008 ∧
    (∀ t < 3, ∃ w, hostRead s (BitVec.ofNat 14 (0x050 + 4 * t)) .word = .value w ∧
      w.toNat = s.params.sectors (2 * t) + 65536 * s.params.sectors (2 * t + 1)) ∧
    ∃ w, hostRead s 0x05C .word = .value w ∧
      w.toNat = s.params.versionConst.toNat + 256 * (if s.params.startFirstBit then 1 else 0)
        + 4096 * s.params.radiusTap.toNat + 65536 * 8 + 1048576 * 4

/-- Reset in any state, a command running or not: registers at the values of R43, the command abandoned with no completion
step, nothing in the buffers has a value (R43, R261, R262). -/
def Obligations.ResetGivesTheResetState : Prop :=
  ∀ (s : State) (rest : List Input), s.inputs = .rst :: rest →
    ∃ t, step s = .next t ∧ statusWord t = 0 ∧ doneLine t = false ∧
      t.txtLen = 0 ∧ t.cwLen = 0 ∧ t.outLen = 0 ∧ t.redLen = 0 ∧
      hdrLoWord t.hdr = 0 ∧ hdrHiWord t.hdr = 0 ∧ xorsumWord t.xorsum = 0 ∧ hypWord t.hyp = 0 ∧ t.hypCnt = 0 ∧
      progressWord t.progress = 0 ∧ mapRsWord t.mapRs = 0 ∧ mapIdxWord t.mapIdx = 0 ∧
      t.params = s.params ∧ t.events = [] ∧
      (∀ a, Memory.read t.mem a = none) ∧ (∀ p, Memory.read t.bits p = none) ∧
      (∀ p, Memory.read t.ints p = none) ∧
      ∀ a ∈ [0x000, 0x004, 0x008, 0x00C, 0x010, 0x014, 0x018, 0x01C, 0x020, 0x024, 0x028, 0x02C, 0x030, 0x034],
        hostRead t (BitVec.ofNat 14 a) .word = .value 0

/-- Surfaces that change under a running `SAMP` or `SWEEP` give the run no meaning (R267, U4); an idle block only sees the
new ones. -/
def Obligations.SurfacesAreFrozenWhileSampling : Prop :=
  ∀ (s : State) (rest : List Input) (u : TapUnit), s.inputs = .surfaces u :: rest →
    (∀ w i, s.cmd = some w → decode w = .ok i → InRange s i →
      ((∃ r v a, i = .samp r v a) ∨ ∃ nv, i = .sweep nv) → step s = .refused .surfacesChanged) ∧
    (s.busy = false → step s = .next { s with inputs := rest, taps := u })

/-! ### MAPB, MAPS -/

/-- `MAPB idx` finds the ring that owns the index and the sector inside it, and writes `MAP_RS` only; above 1343 it is
illegal (R112). -/
def Obligations.MapbFindsTheOwningSector : Prop :=
  ∀ (s : State) (idx : BitVec 11), s.params.Valid →
    (idx.toNat ≤ 1343 → ∃ t, exec (.mapb idx) s = .next t ∧ t = { ended .ok s with mapRs := t.mapRs } ∧
      t.mapRs.ring.toNat ≤ 5 ∧ t.mapRs.sector.toNat < s.params.sectors t.mapRs.ring.toNat ∧
      offset s.params t.mapRs.ring.toNat + t.mapRs.sector.toNat = idx.toNat) ∧
    (1343 < idx.toNat → exec (.mapb idx) s = .next (ended .illegalCommand s))

/-- `MAPS ring, sector` gives `OFF[ring] + sector`, and writes `MAP_IDX` only; out of range it is illegal (R113). -/
def Obligations.MapsGivesTheLinearIndex : Prop :=
  ∀ (s : State) (ring : BitVec 3) (sector : BitVec 11), s.params.Valid →
    (ring.toNat ≤ 5 → sector.toNat < s.params.sectors ring.toNat →
      ∃ t, exec (.maps ring sector) s = .next t ∧ t = { ended .ok s with mapIdx := t.mapIdx } ∧
        t.mapIdx.toNat = offset s.params ring.toNat + sector.toNat) ∧
    (5 < ring.toNat ∨ s.params.sectors ring.toNat ≤ sector.toNat →
      exec (.maps ring sector) s = .next (ended .illegalCommand s))

/-- `MAPB` and `MAPS` are inverse to each other (R114). -/
def Obligations.MapperIsABijection : Prop :=
  ∀ s : State, s.params.Valid →
    (∀ idx : BitVec 11, idx.toNat ≤ 1343 → ∃ t u, exec (.mapb idx) s = .next t ∧ t.code = .ok ∧
      exec (.maps t.mapRs.ring t.mapRs.sector) t = .next u ∧ u.code = .ok ∧ u.mapIdx = idx) ∧
    (∀ (ring : BitVec 3) (sector : BitVec 11), ring.toNat ≤ 5 → sector.toNat < s.params.sectors ring.toNat →
      ∃ t u, exec (.maps ring sector) s = .next t ∧ t.code = .ok ∧ exec (.mapb t.mapIdx) t = .next u ∧ u.code = .ok ∧
        u.mapRs = { ring := ring, sector := sector })

/-! ### APRED, VALRED -/

/-- `APRED n` writes the redundancy bytes of `TXT` to `RED[0..n-1]` and `n` to `RED_LEN`, and nothing else; out of range it
is illegal (R161, R162). -/
def Obligations.ApredWritesTheRedundancyBytes : Prop :=
  ∀ (s : State) (n : BitVec 8) (b : Nat → Byte),
    (n.toNat ≤ 64 → s.txtLen.toNat ≤ 149 →
      (∀ j < s.txtLen.toNat, Memory.read s.mem (0x100 + j) = some (b j)) →
      ∃ t, exec (.apred n) s = .next t ∧ t = { ended .ok s with mem := t.mem, redLen := n } ∧
        (∀ i < n.toNat, Memory.read t.mem (0x400 + i) = some (redundancyAt s.txtLen.toNat b i)) ∧
        ∀ a, a < 0x400 ∨ 0x400 + n.toNat ≤ a → Memory.read t.mem a = Memory.read s.mem a) ∧
    (64 < n.toNat ∨ 149 < s.txtLen.toNat → exec (.apred n) s = .next (ended .illegalCommand s))

/-- The redundancy bytes do not depend on the order of the payload bytes, zero bytes change nothing, and the first of them
is the plain exclusive or (R163). -/
def Obligations.ApredIsSymmetricAndIgnoresZeros : Prop :=
  (∀ (p q : List Byte) (n : Nat), p.Perm q → apred p n = apred q n) ∧
  (∀ (p : List Byte) (n : Nat), apred (p.filter fun b => b ≠ 0) n = apred p n) ∧
  (∀ (p : List Byte) (n : Nat), 0 < n → (apred p n)[0]? = some (xorBytes p)) ∧
  ∀ (b : Byte) (n i : Nat), i < n → (apred [b] n)[i]? = some (BitVec.ofNat 8 (b.toNat * (i + 1)))

/-- The payload's zero padding does not change the redundancy bytes (R133). -/
def Obligations.PaddingKeepsTheRedundancyBytes : Prop :=
  ∀ (txt : List Byte) (z n : Nat), apred (txt ++ List.replicate z 0) n = apred txt n

/-- `VALRED n` on a codeword whose data part is not empty and has at most four fifths `00` and `FF` bytes delivers the
data (R165, R166). -/
def Obligations.ValredDeliversTheData : Prop :=
  ∀ (s : State) (n : BitVec 8) (b : Nat → Byte), s.cwLen.toNat ≤ 157 → n.toNat < s.cwLen.toNat →
    (∀ j < s.cwLen.toNat, Memory.read s.mem (0x200 + j) = some (b j)) →
    5 * suspects (s.cwLen.toNat - n.toNat) b ≤ 4 * (s.cwLen.toNat - n.toNat) →
    ∃ t, exec (.valred n) s = .next t ∧
      t = { ended .ok s with
        mem := t.mem, xorsum := xorUpTo (s.cwLen.toNat - n.toNat) b, outLen := t.outLen } ∧
      t.outLen.toNat = s.cwLen.toNat - n.toNat ∧
      (∀ j < s.cwLen.toNat - n.toNat, Memory.read t.mem (0x300 + j) = some (b j)) ∧
      ∀ a, a < 0x300 ∨ 0x300 + (s.cwLen.toNat - n.toNat) ≤ a → Memory.read t.mem a = Memory.read s.mem a

/-- `VALRED n` fails where no data is left, with `XORSUM = 0`, and where more than four fifths of the data bytes are `00`
or `FF`; `OUT` keeps its bytes (R24, R165, R166). -/
def Obligations.ValredRejects : Prop :=
  ∀ (s : State) (n : BitVec 8) (b : Nat → Byte), s.cwLen.toNat ≤ 157 →
    (∀ j < s.cwLen.toNat, Memory.read s.mem (0x200 + j) = some (b j)) →
    (s.cwLen.toNat ≤ n.toNat →
      exec (.valred n) s = .next { ended .redundancyValidationFailed s with xorsum := 0, outLen := 0 }) ∧
    (n.toNat < s.cwLen.toNat →
      4 * (s.cwLen.toNat - n.toNat) < 5 * suspects (s.cwLen.toNat - n.toNat) b →
      exec (.valred n) s = .next { ended .redundancyValidationFailed s with
        xorsum := xorUpTo (s.cwLen.toNat - n.toNat) b, outLen := 0 })

/-! ### ENCF, DECF -/

/-- `ENCF ecc` writes the frame of `TXT`, bit by bit as the wire format has it, and nothing else (R81 to R86, R131). -/
def Obligations.EncfWritesTheFrame : Prop :=
  ∀ (s : State) (ecc : BitVec 2) (b : Nat → Byte), s.txtLen.toNat ≤ payloadLimit ecc.toNat →
    (∀ j < s.txtLen.toNat, Memory.read s.mem (0x100 + j) = some (b j)) →
    ∃ t, exec (.encf ecc) s = .next t ∧ t = { ended .ok s with bits := t.bits } ∧
      (∀ i < 32, Memory.read t.bits i =
        some (if i % 2 = 0 then s.params.startFirstBit else !s.params.startFirstBit)) ∧
      ByteAt t.bits 32 s.params.versionConst ∧
      ByteAt t.bits 40 (BitVec.ofNat 8 ecc.toNat) ∧
      ByteAt t.bits 48 (BitVec.ofNat 8 (s.txtLen.toNat / 256)) ∧
      ByteAt t.bits 56 (BitVec.ofNat 8 (s.txtLen.toNat % 256)) ∧
      ByteAt t.bits 64 0 ∧
      ByteAt t.bits 72 (BitVec.ofNat 8 (redundancyCount ecc.toNat)) ∧
      ByteAt t.bits 80 (BitVec.ofNat 8 (s.params.versionConst.toNat + ecc.toNat + s.txtLen.toNat / 256
        + s.txtLen.toNat % 256 + redundancyCount ecc.toNat)) ∧
      (∀ c < s.txtLen.toNat, ByteAt t.bits (88 + 8 * c) (b c)) ∧
      (∀ c, s.txtLen.toNat ≤ c → c < payloadLimit ecc.toNat → ByteAt t.bits (88 + 8 * c) 0) ∧
      (∀ i < redundancyCount ecc.toNat, ByteAt t.bits (88 + 8 * payloadLimit ecc.toNat + 8 * i)
        (redundancyAt s.txtLen.toNat b i)) ∧
      ∀ p, 1344 ≤ p → Memory.read t.bits p = Memory.read s.bits p

/-- `ENCF ecc` raises `PayloadTooLarge` exactly where `TXT_LEN` is above the level's limit, whatever `TXT` holds, and then
writes nothing else (R132, R232). -/
def Obligations.EncfRefusesALongerText : Prop :=
  ∀ (s : State) (ecc : BitVec 2),
    (payloadLimit ecc.toNat < s.txtLen.toNat → exec (.encf ecc) s = .next (ended .payloadTooLarge s)) ∧
    ∀ t, exec (.encf ecc) s = .next t → t.code = .payloadTooLarge → payloadLimit ecc.toNat < s.txtLen.toNat

/-- Two `ENCF` with equal operands write equal `BITS` (R152). -/
def Obligations.EncfIsDeterministic : Prop :=
  ∀ (s s' t t' : State) (ecc : BitVec 2), s.params = s'.params → s.txtLen = s'.txtLen →
    (∀ j < s.txtLen.toNat, Memory.read s.mem (0x100 + j) = Memory.read s'.mem (0x100 + j)) →
    s.txtLen.toNat ≤ payloadLimit ecc.toNat →
    exec (.encf ecc) s = .next t → exec (.encf ecc) s' = .next t' →
    ∀ p < 1344, Memory.read t.bits p = Memory.read t'.bits p

/-- `DECF` on a header that fails a check reports the first that fails, with the header shown, `OUT_LEN = 0` and nothing
else written; on a header that passes, neither code is given (R31, R141 to R143, R147, R233, R234, R240). -/
def Obligations.DecfReportsTheFirstFailingCheck : Prop :=
  ∀ (s : State) (hb : Nat → Byte), HeaderIs s hb →
    (¬ HeaderAccepted hb → exec .decf s = .next { ended
      (if checksumOf hb ≠ (hb 6).toNat then .headerChecksumMismatch else .payloadLengthInvalid) s with
      hdr := headerRegister hb, outLen := 0 }) ∧
    (HeaderAccepted hb → ∀ t, exec .decf s = .next t →
      t.code ≠ .headerChecksumMismatch ∧ t.code ≠ .payloadLengthInvalid)

/-- `DECF` on an accepted header whose payload passes the filter delivers the declared payload (R140, R144). -/
def Obligations.DecfDeliversThePayload : Prop :=
  ∀ (s : State) (hb cw : Nat → Byte), HeaderIs s hb → HeaderAccepted hb →
    (∀ c < payLenOf hb + redLenOf hb, ByteAt s.bits (88 + 8 * c) (cw c)) →
    5 * suspects (payLenOf hb) cw ≤ 4 * payLenOf hb →
    ∃ t, exec .decf s = .next t ∧
      t = { ended .ok s with
        mem := t.mem, hdr := headerRegister hb, xorsum := xorUpTo (payLenOf hb) cw, outLen := t.outLen } ∧
      t.outLen.toNat = payLenOf hb ∧
      (∀ j < payLenOf hb, Memory.read t.mem (0x300 + j) = some (cw j)) ∧
      ∀ a, a < 0x300 ∨ 0x300 + payLenOf hb ≤ a → Memory.read t.mem a = Memory.read s.mem a

/-- `DECF` on an accepted header whose payload fails the filter: more than four fifths `00` or `FF` (R147, R148). -/
def Obligations.DecfRejectsACorruptPayload : Prop :=
  ∀ (s : State) (hb cw : Nat → Byte), HeaderIs s hb → HeaderAccepted hb →
    (∀ c < payLenOf hb + redLenOf hb, ByteAt s.bits (88 + 8 * c) (cw c)) →
    4 * payLenOf hb < 5 * suspects (payLenOf hb) cw →
    exec .decf s = .next { ended .redundancyValidationFailed s with
      hdr := headerRegister hb, xorsum := xorUpTo (payLenOf hb) cw, outLen := 0 }

/-- `DECF` looks at no bit before 32 and none after the extracted codeword (R149). -/
def Obligations.DecfIgnoresStartPatternAndTail : Prop :=
  ∀ (s t : State) (hb : Nat → Byte) (bits : List (Nat × Bool)), HeaderIs s hb →
    (∀ p, 32 ≤ p → p < 88 + 8 * (payLenOf hb + redLenOf hb) → Memory.read bits p = Memory.read s.bits p) →
    exec .decf s = .next t → exec .decf { s with bits := bits } = .next { t with bits := bits }

/-- Flipping one bit of a header whose checksum matches gives `HeaderChecksumMismatch` (R151). -/
def Obligations.HeaderBitFlipIsDetected : Prop :=
  ∀ (s : State) (hb : Nat → Byte) (j k : Nat), j < 7 → k < 8 → checksumOf hb = (hb 6).toNat →
    HeaderIs s (fun i => if i = j then hb i ^^^ (1#8 <<< k) else hb i) →
    ∃ t, exec .decf s = .next t ∧ t.code = .headerChecksumMismatch

/-- The round trip (R150): every payload of 1 to `MAX_PAYLOAD[l]` bytes of which at most four fifths are `00` or `FF`. -/
def Obligations.RoundTripReturnsTheText : Prop :=
  ∀ (s : State) (ecc : BitVec 2) (b : Nat → Byte), 1 ≤ s.txtLen.toNat →
    s.txtLen.toNat ≤ payloadLimit ecc.toNat →
    (∀ j < s.txtLen.toNat, Memory.read s.mem (0x100 + j) = some (b j)) →
    5 * suspects s.txtLen.toNat b ≤ 4 * s.txtLen.toNat →
    ∃ t u, exec (.encf ecc) s = .next t ∧ exec .decf t = .next u ∧ u.code = .ok ∧
      u.outLen.toNat = s.txtLen.toNat ∧ ∀ j < s.txtLen.toNat, Memory.read u.mem (0x300 + j) = some (b j)

/-- The all-zero bitstream is rejected for its length, the all-one bitstream for its checksum (R153). -/
def Obligations.UniformBitstreamsAreRejected : Prop :=
  ∀ (s : State) (v : Bool), (∀ p < 1344, Memory.read s.bits p = some v) →
    ∃ t, exec .decf s = .next t ∧
      t.code = (if v then .headerChecksumMismatch else .payloadLengthInvalid)

/-! ### SAMP -/

/-- `SAMP ring, var, shift` writes, for each sector of the ring, the exact sum and count of its valid taps, and nothing
else; out of range it is illegal (R28, R182, R184, R185). -/
def Obligations.SampWritesSumAndCount : Prop :=
  ∀ (s : State) (ring var : BitVec 3) (shift : BitVec 11) (tap : TapRequest → Option Byte),
    (ring.toNat ≤ 5 → var.toNat ≤ 4 → shift.toNat < s.params.sectors 0 →
      (∀ sct < s.params.sectors ring.toNat, ∀ k < 8, ∀ j < 2 * s.params.radiusTap.toNat + 1,
        tapAnswer s.taps (requestAt s var.toNat ring.toNat sct shift.toNat k j)
          = answerOf (tap (requestAt s var.toNat ring.toNat sct shift.toNat k j))) →
      ∃ t, exec (.samp ring var shift) s = .next t ∧ t = { ended .ok s with ints := t.ints } ∧
        (∀ sct < s.params.sectors ring.toNat, ∃ e, Memory.read t.ints (offset s.params ring.toNat + sct) = some e ∧
          (e.extractLsb' 0 16).toNat = sectorSum s tap var.toNat ring.toNat sct shift.toNat ∧
          (e.extractLsb' 16 8).toNat = sectorCnt s tap var.toNat ring.toNat sct shift.toNat ∧
          e.extractLsb' 24 8 = 0) ∧
        ∀ p, p < offset s.params ring.toNat ∨ offset s.params ring.toNat + s.params.sectors ring.toNat ≤ p →
          Memory.read t.ints p = Memory.read s.ints p) ∧
    (5 < ring.toNat ∨ 4 < var.toNat ∨ s.params.sectors 0 ≤ shift.toNat →
      exec (.samp ring var shift) s = .next (ended .illegalCommand s))

/-- `SAMP` waits, `BUSY` and everything else as they were, while a request of the ring has no answer (R268). -/
def Obligations.SampWaitsForASilentUnit : Prop :=
  ∀ (s : State) (ring var : BitVec 3) (shift : BitVec 11),
    ring.toNat ≤ 5 → var.toNat ≤ 4 → shift.toNat < s.params.sectors 0 →
    ¬ RingAnswered s var.toNat ring.toNat shift.toNat → exec (.samp ring var shift) s = .next s

/-- Every intensity `SAMP` writes is between 0 and 255 (R186). -/
def Obligations.SampledIntensitiesAreBytes : Prop :=
  ∀ (s t : State) (ring var : BitVec 3) (shift : BitVec 11), exec (.samp ring var shift) s = .next t →
    t.code = .ok → s.busy = true → t.busy = false →
    ∀ sct < s.params.sectors ring.toNat, ∃ e, Memory.read t.ints (offset s.params ring.toNat + sct) = some e ∧
      0 ≤ valueOf e ∧ valueOf e ≤ 255

/-! ### THR -/

/-- `THR` in mode 0: the threshold is the midpoint of the 30th and the 70th percentile of the sorted intensities, times
the bias; a bit is 1 strictly below it, then inverted as asked; only the ring's bits are written (R190, R192, R193). -/
def Obligations.ThrPercentileWritesTheBits : Prop :=
  ∀ (s : State) (ring i : BitVec 3) (inv : Bool) (vals sorted : List Rat) (p30 p70 : Rat),
    ring.toNat ≤ 5 → i.toNat ≤ 4 → RingValues s ring.toNat vals → sorted.Perm vals → sorted.Pairwise (· ≤ ·) →
    sorted[3 * vals.length / 10]? = some p30 → sorted[7 * vals.length / 10]? = some p70 →
    ∃ t, exec (.thr ring .percentile inv i) s = .next t ∧ t = { ended .ok s with bits := t.bits } ∧
      (∀ j (v : Rat), vals[j]? = some v → Memory.read t.bits (offset s.params ring.toNat + j) =
        some (Bool.xor (decide (v < (p30 + p70) / 2 * biasFactor i.toNat)) inv)) ∧
      ∀ p, p < offset s.params ring.toNat ∨ offset s.params ring.toNat + s.params.sectors ring.toNat ≤ p →
        Memory.read t.bits p = Memory.read s.bits p

/-- `THR` in mode 1: the threshold is the best split of the histogram, times the bias (R191, R192, R193). -/
def Obligations.ThrHistogramWritesTheBits : Prop :=
  ∀ (s : State) (ring i : BitVec 3) (inv : Bool) (vals : List Rat) (tstar : Nat),
    ring.toNat ≤ 5 → i.toNat ≤ 4 → RingValues s ring.toNat vals → IsBestSplit (vals.map binAt) tstar →
    ∃ t, exec (.thr ring .histogram inv i) s = .next t ∧ t = { ended .ok s with bits := t.bits } ∧
      (∀ j (v : Rat), vals[j]? = some v → Memory.read t.bits (offset s.params ring.toNat + j) =
        some (Bool.xor (decide (v < (tstar : Rat) * biasFactor i.toNat)) inv)) ∧
      ∀ p, p < offset s.params ring.toNat ∨ offset s.params ring.toNat + s.params.sectors ring.toNat ≤ p →
        Memory.read t.bits p = Memory.read s.bits p

/-- The split search finds the lowest split of greatest score, 0 where there is none (R191). -/
def Obligations.HistogramSplitIsTheBest : Prop :=
  ∀ bins : List Nat, (∀ b ∈ bins, b < 256) → IsBestSplit bins (histogramSplit bins)

/-- `THR` in mode 0 decides each bit by the integer test of R190: for an intensity `n/d`, `P30 = n1/d1` and `P70 = n2/d2`
the bit before inversion is `40 n d1 d2 < (n1 d2 + n2 d1) BIAS_NUM[i] d`. -/
def Obligations.PercentileTestIsTheIntegerTest : Prop :=
  ∀ (s : State) (ring i : BitVec 3) (inv : Bool) (vals sorted : List Rat),
    ring.toNat ≤ 5 → i.toNat ≤ 4 → RingValues s ring.toNat vals → sorted.Perm vals → sorted.Pairwise (· ≤ ·) →
    ∃ t, exec (.thr ring .percentile inv i) s = .next t ∧ t.code = .ok ∧
      ∀ j n d n1 d1 n2 d2 : Nat, 0 < d → 0 < d1 → 0 < d2 → vals[j]? = some ((n : Rat) / d) →
        sorted[3 * vals.length / 10]? = some ((n1 : Rat) / d1) → sorted[7 * vals.length / 10]? = some ((n2 : Rat) / d2) →
        Memory.read t.bits (offset s.params ring.toNat + j) = some (Bool.xor
          (decide (40 * n * d1 * d2 < (n1 * d2 + n2 * d1) * biasTwentieths i.toNat * d)) inv)

/-- A ring of one intensity `c` (R194): with `c > 0` mode 0 reads all 1 for the biases above 1 and all 0 for the others,
with `c = 0` all 0; mode 1 reads all 0; then inversion. -/
def Obligations.ThrOnAConstantRing : Prop :=
  ∀ (s : State) (ring i : BitVec 3) (mode : Mode) (inv : Bool) (c : Rat),
    s.params.Valid → ring.toNat ≤ 5 → i.toNat ≤ 4 → 0 ≤ c →
    RingValues s ring.toNat (List.replicate (s.params.sectors ring.toNat) c) →
    ∃ t, exec (.thr ring mode inv i) s = .next t ∧ t.code = .ok ∧
      ∀ j < s.params.sectors ring.toNat, Memory.read t.bits (offset s.params ring.toNat + j) =
        some (Bool.xor (decide (mode = .percentile ∧ 0 < c ∧ (i = 2 ∨ i = 4))) inv)

/-- A two-valued ring of `m` sectors at 0 and the others at 255, with a bias of at most 1 (R194): mode 0 reads it exactly
where `m` is at most `floor(7N/10)`. -/
def Obligations.ThrReadsATwoValuedRing : Prop :=
  ∀ (s : State) (ring i : BitVec 3) (inv : Bool) (vals : List Rat),
    ring.toNat ≤ 5 → (i = 0 ∨ i = 1 ∨ i = 3) → RingValues s ring.toNat vals → (∀ v ∈ vals, v = 0 ∨ v = 255) →
    0 < vals.count 0 → vals.count 0 < vals.length →
    ∃ t, exec (.thr ring .percentile inv i) s = .next t ∧ t.code = .ok ∧
      ∀ j (v : Rat), vals[j]? = some v → Memory.read t.bits (offset s.params ring.toNat + j) =
        some (Bool.xor (decide (v = 0 ∧ vals.count 0 ≤ 7 * vals.length / 10)) inv)

/-! ### SWEEP -/

/-- `SWEEP nv` ends at the hypothesis of lowest rank that validates by hand, with that hypothesis's results, its rank plus
one in `HYPCNT`, itself in `HYP`, and one progress event per variant begun (R212 to R215). -/
def Obligations.SweepEndsAtTheFirstThatValidates : Prop :=
  ∀ (s u : State) (nv : BitVec 3) (k : Nat), s.params.Valid → nv.toNat ≤ 5 → k < hypothesisTotal s nv →
    (∀ k' ≤ k, HypothesisAnswered s (hypothesisAt s k')) →
    (∀ k' < k, ∃ v, runAll (byHand (hypothesisAt s k')) s = .next v ∧ v.code ≠ .ok) →
    runAll (byHand (hypothesisAt s k)) s = .next u → u.code = .ok →
    ∃ t, exec (.sweep nv) s = .next t ∧ t.busy = false ∧ t.done = true ∧ t.code = .ok ∧
      t.mem = u.mem ∧ t.outLen = u.outLen ∧ t.hdr = u.hdr ∧ t.xorsum = u.xorsum ∧
      (∀ p, Memory.read t.ints p = Memory.read u.ints p) ∧ (∀ p, Memory.read t.bits p = Memory.read u.bits p) ∧
      t.hypCnt.toNat = k + 1 ∧ t.hyp = hypRegister (hypothesisAt s k) ∧
      t.progress = { var := BitVec.ofNat 3 (hypothesisAt s k).var, nv := nv
                     count := BitVec.ofNat 8 ((hypothesisAt s k).var + 1) } ∧
      t.events = eventsUpTo nv ((hypothesisAt s k).var + 1)

/-- `SWEEP nv` where no hypothesis validates: `SearchExhausted`, the full count, every variant announced, the last
hypothesis in `HYP` and in the work buffers, `XORSUM` of the last hypothesis that reached validation (as before the sweep
if none did), `OUT_LEN = 0` and `OUT` as it was; with `nv = 0` the work buffers, the header and `XORSUM` as they were and
`HYP = 0` (R36, R211, R216, R217). -/
def Obligations.SweepExhaustsTheSearch : Prop :=
  ∀ (s : State) (nv : BitVec 3), s.params.Valid → nv.toNat ≤ 5 →
    (∀ k < hypothesisTotal s nv, HypothesisAnswered s (hypothesisAt s k) ∧
      ∃ v, runAll (byHand (hypothesisAt s k)) s = .next v ∧ v.code ≠ .ok) →
    ∃ t, exec (.sweep nv) s = .next t ∧ t.busy = false ∧ t.done = true ∧ t.code = .searchExhausted ∧
      t.mem = s.mem ∧ t.outLen = 0 ∧ t.hypCnt.toNat = hypothesisTotal s nv ∧ t.events = eventsUpTo nv nv.toNat ∧
      t.progress = { var := BitVec.ofNat 3 (nv.toNat - 1), nv := nv, count := BitVec.ofNat 8 nv.toNat } ∧
      (nv = 0 → hypWord t.hyp = 0 ∧ t.ints = s.ints ∧ t.bits = s.bits ∧ t.hdr = s.hdr) ∧
      (∀ v, 0 < nv.toNat → runAll (byHand (hypothesisAt s (hypothesisTotal s nv - 1))) s = .next v →
        t.hyp = hypRegister (hypothesisAt s (hypothesisTotal s nv - 1)) ∧ t.hdr = v.hdr ∧
        (∀ p, Memory.read t.ints p = Memory.read v.ints p) ∧ ∀ p, Memory.read t.bits p = Memory.read v.bits p) ∧
      ((∀ k < hypothesisTotal s nv, ¬ ReachesValidation s (hypothesisAt s k)) → t.xorsum = s.xorsum) ∧
      ∀ k < hypothesisTotal s nv, ReachesValidation s (hypothesisAt s k) →
        (∀ k', k < k' → k' < hypothesisTotal s nv → ¬ ReachesValidation s (hypothesisAt s k')) →
        ∀ v, runAll (byHand (hypothesisAt s k)) s = .next v → t.xorsum = v.xorsum

/-- `SWEEP nv` completes where the tap-fetch unit answers every request it can be asked (R221). -/
def Obligations.SweepCompletesWhenAnswered : Prop :=
  ∀ (s : State) (nv : BitVec 3), s.params.Valid → nv.toNat ≤ 5 →
    (∀ k < hypothesisTotal s nv, HypothesisAnswered s (hypothesisAt s k)) →
    ∃ t, exec (.sweep nv) s = .next t ∧ t.busy = false ∧ t.done = true ∧
      (t.code = .ok ∨ (t.code = .searchExhausted ∧ t.outLen = 0 ∧ t.mem = s.mem))

/-- `SWEEP nv` waits, with the events of the variants begun, at the first hypothesis with a request that has no answer
(R221, R268). -/
def Obligations.SweepWaitsForASilentUnit : Prop :=
  ∀ (s : State) (nv : BitVec 3) (k : Nat), s.params.Valid → nv.toNat ≤ 5 → k < hypothesisTotal s nv →
    (∀ k' < k, HypothesisAnswered s (hypothesisAt s k') ∧
      ∃ v, runAll (byHand (hypothesisAt s k')) s = .next v ∧ v.code ≠ .ok) →
    ¬ HypothesisAnswered s (hypothesisAt s k) →
    exec (.sweep nv) s = .next { s with events := eventsUpTo nv ((hypothesisAt s k).var + 1) }

/-! ### Operands nothing has written, and the angles -/

/-- A command that reads a buffer element nothing has written since reset has no meaning (R264, U1). That `VALRED` reads
the bytes it splits off too is read from R166 and R263 (log 14). -/
def Obligations.UnwrittenOperandIsRefused : Prop :=
  ∀ s : State,
    (∀ ecc j, s.txtLen.toNat ≤ payloadLimit (BitVec.toNat (ecc : BitVec 2)) → j < s.txtLen.toNat →
      Memory.read s.mem (0x100 + j) = none → exec (.encf ecc) s = .refused (.unwritten .txt)) ∧
    (∀ n j, InRange s (.apred n) → j < s.txtLen.toNat → Memory.read s.mem (0x100 + j) = none →
      exec (.apred n) s = .refused (.unwritten .txt)) ∧
    (∀ n j, InRange s (.valred n) → j < s.cwLen.toNat → Memory.read s.mem (0x200 + j) = none →
      exec (.valred n) s = .refused (.unwritten .cw)) ∧
    (∀ p, 32 ≤ p → p < 88 → Memory.read s.bits p = none → exec .decf s = .refused (.unwritten .bits)) ∧
    (∀ hb p, HeaderIs s hb → HeaderAccepted hb → 88 ≤ p → p < 88 + 8 * (payLenOf hb + redLenOf hb) →
      Memory.read s.bits p = none → exec .decf s = .refused (.unwritten .bits)) ∧
    (∀ ring mode inv i j, InRange s (.thr ring mode inv i) → j < s.params.sectors ring.toNat →
      Memory.read s.ints (offset s.params ring.toNat + j) = none →
      exec (.thr ring mode inv i) s = .refused (.unwritten .int))

/-- With no anchor shift every sub-sample lies strictly inside its sector's span (R116, R181). -/
def Obligations.SubsamplesLieInsideTheirSector : Prop :=
  ∀ (p : Params) (r sct k : Nat), p.Valid → r < 6 → sct < p.sectors r → k < 8 →
    (sectorSpan p r sct).1 < theta p r sct k 0 ∧ theta p r sct k 0 < (sectorSpan p r sct).2
end

