-- ==== Sys2Proof/Laws/Memory.lean ====
section
/-! SUPPORT. The laws of the store: a read after a write, and that every operation keeps the canonical form. -/

namespace Sys2Proof.Machine

variable {α : Type}

/-! ### allSome -/

@[simp] theorem allSome_nil : allSome ([] : List (Option α)) = some [] := rfl

theorem allSome_eq_some {l : List (Option α)} {vs : List α} : allSome l = some vs ↔ l = vs.map some := by
  induction l generalizing vs with
  | nil => cases vs <;> simp [allSome]
  | cons x xs ih =>
    cases x with
    | none => cases vs <;> simp [allSome]
    | some v =>
      cases vs with
      | nil => simp [allSome]
      | cons w ws =>
        simp only [allSome, Option.map_eq_some_iff, List.map_cons, List.cons.injEq, Option.some.injEq]
        constructor
        · rintro ⟨ys, hys, rfl, rfl⟩
          exact ⟨rfl, ih.mp hys⟩
        · rintro ⟨rfl, h⟩
          exact ⟨ws, ih.mpr h, rfl, rfl⟩

theorem allSome_map_some (vs : List α) : allSome (vs.map some) = some vs := allSome_eq_some.mpr rfl

theorem allSome_eq_none {l : List (Option α)} : allSome l = none ↔ none ∈ l := by
  induction l with
  | nil => simp [allSome]
  | cons x xs ih => cases x <;> simp [allSome, ih]

/-- A run of values is there exactly when each of them is. -/
theorem allSome_range_eq_some {f : Nat → Option α} {n : Nat} {vs : List α} :
    allSome ((List.range n).map f) = some vs ↔ vs.length = n ∧ ∀ i < n, f i = vs[i]? := by
  rw [allSome_eq_some]
  constructor
  · intro h
    have hl : vs.length = n := by simpa using (congrArg List.length h).symm
    refine ⟨hl, fun i hi => ?_⟩
    have := congrArg (fun l => l[i]?) h
    simpa [hi, hl, List.getElem?_eq_getElem (hl ▸ hi : i < vs.length)] using this
  · rintro ⟨rfl, h⟩
    refine List.ext_getElem (by simp) fun i h1 h2 => ?_
    have hi : i < vs.length := by simpa using h1
    simpa [List.getElem?_eq_getElem hi] using h i hi

/-! ### Reads and writes -/

@[simp] theorem Memory.read_nil (a : Nat) : Memory.read ([] : List (Nat × α)) a = none := rfl

theorem Memory.read_append (l m : List (Nat × α)) (a : Nat) :
    Memory.read (l ++ m) a = (Memory.read l a).or (Memory.read m a) := by
  induction l with
  | nil => simp
  | cons c l ih =>
    obtain ⟨k, v⟩ := c
    simp only [List.cons_append, Memory.read]
    split <;> simp [ih]

theorem Memory.read_filter (l : List (Nat × α)) (p : Nat → Bool) (a : Nat) :
    Memory.read (l.filter fun c => p c.1) a = if p a then Memory.read l a else none := by
  induction l with
  | nil => simp
  | cons c l ih =>
    obtain ⟨k, v⟩ := c
    by_cases hk : k = a
    · subst hk
      by_cases hp : p k = true
      · simp [hp, Memory.read]
      · simp [hp, ih]
    · by_cases hp : p k = true
      · simp [hp, Memory.read, hk, ih]
      · simp [hp, ih, Memory.read, hk]

theorem Memory.read_cellsFrom (vals : List α) (a b : Nat) :
    Memory.read (Memory.cellsFrom a vals) b = if a ≤ b then vals[b - a]? else none := by
  induction vals generalizing a with
  | nil => simp [Memory.cellsFrom]
  | cons v vs ih =>
    simp only [Memory.cellsFrom, Memory.read]
    by_cases hab : a = b
    · subst hab; simp
    · rw [if_neg hab, ih]
      by_cases hle : a ≤ b
      · have h1 : a + 1 ≤ b := by omega
        have h2 : b - a = (b - (a + 1)) + 1 := by omega
        simp [hle, h1, h2]
      · have h1 : ¬ a + 1 ≤ b := by omega
        simp [hle, h1]

/-- A read after a write: the written values inside the run, the old ones outside it. -/
theorem Memory.read_writeRun (l : List (Nat × α)) (a : Nat) (vals : List α) (b : Nat) :
    Memory.read (Memory.writeRun l a vals) b =
      if a ≤ b ∧ b < a + vals.length then vals[b - a]? else Memory.read l b := by
  unfold Memory.writeRun
  rw [Memory.read_append, Memory.read_append, Memory.read_cellsFrom,
    Memory.read_filter l (fun k => decide (k < a)), Memory.read_filter l (fun k => decide (a + vals.length ≤ k))]
  by_cases h1 : b < a
  · have h2 : ¬ a ≤ b := by omega
    have h3 : ¬ a + vals.length ≤ b := by omega
    simp [h1, h2, h3]
  · by_cases h3 : a + vals.length ≤ b
    · have h4 : ¬ (a ≤ b ∧ b < a + vals.length) := by omega
      have h5 : vals[b - a]? = none := by simp; omega
      simp [h1, h3, h4, h5]
    · have h4 : a ≤ b ∧ b < a + vals.length := by omega
      simp [h1, h3, h4]

theorem Memory.read_writeRun_outside {l : List (Nat × α)} {a : Nat} {vals : List α} {b : Nat}
    (h : b < a ∨ a + vals.length ≤ b) : Memory.read (Memory.writeRun l a vals) b = Memory.read l b := by
  rw [Memory.read_writeRun, if_neg (by omega)]

theorem Memory.read_writeRun_inside {l : List (Nat × α)} {a : Nat} {vals : List α} {i : Nat}
    (h : i < vals.length) : Memory.read (Memory.writeRun l a vals) (a + i) = some vals[i] := by
  rw [Memory.read_writeRun, if_pos (by omega)]
  simp [h]

/-- A run is read exactly when each element is. -/
theorem Memory.readRun_eq_some {l : List (Nat × α)} {a n : Nat} {vs : List α} :
    Memory.readRun l a n = some vs ↔ vs.length = n ∧ ∀ i < n, Memory.read l (a + i) = vs[i]? :=
  allSome_range_eq_some

theorem Memory.readRun_eq_none {l : List (Nat × α)} {a n : Nat} :
    Memory.readRun l a n = none ↔ ∃ i < n, Memory.read l (a + i) = none := by
  simp [Memory.readRun, allSome_eq_none]

theorem Memory.readRun_congr {l m : List (Nat × α)} {a n : Nat}
    (h : ∀ i < n, Memory.read l (a + i) = Memory.read m (a + i)) : Memory.readRun l a n = Memory.readRun m a n := by
  unfold Memory.readRun
  exact congrArg allSome (List.map_congr_left fun i hi => h i (by simpa using hi))

/-- Reading back what was just written. -/
theorem Memory.readRun_writeRun (l : List (Nat × α)) (a : Nat) (vals : List α) :
    Memory.readRun (Memory.writeRun l a vals) a vals.length = some vals := by
  rw [Memory.readRun_eq_some]
  exact ⟨rfl, fun i hi => by rw [Memory.read_writeRun_inside hi, List.getElem?_eq_getElem hi]⟩

/-! ### The canonical form -/

theorem Memory.wf_nil : Memory.wf ([] : List (Nat × α)) := List.Pairwise.nil

theorem Memory.mem_cellsFrom_key {vals : List α} {a : Nat} {c : Nat × α} (h : c ∈ Memory.cellsFrom a vals) :
    a ≤ c.1 ∧ c.1 < a + vals.length := by
  induction vals generalizing a with
  | nil => simp [Memory.cellsFrom] at h
  | cons v vs ih =>
    simp only [Memory.cellsFrom, List.mem_cons] at h
    rcases h with rfl | h
    · simp
    · have := ih h
      simp only [List.length_cons]
      omega

theorem Memory.wf_cellsFrom (a : Nat) (vals : List α) : Memory.wf (Memory.cellsFrom a vals) := by
  induction vals generalizing a with
  | nil => exact Memory.wf_nil
  | cons v vs ih =>
    simp only [Memory.wf, Memory.cellsFrom, List.map_cons, List.pairwise_cons]
    refine ⟨fun k hk => ?_, ih (a + 1)⟩
    obtain ⟨c, hc, rfl⟩ := List.mem_map.mp hk
    have := Memory.mem_cellsFrom_key hc
    omega

theorem Memory.wf_filter {l : List (Nat × α)} (h : Memory.wf l) (p : Nat × α → Bool) : Memory.wf (l.filter p) := by
  unfold Memory.wf at *
  exact h.sublist ((List.filter_sublist).map _)

/-- A write keeps the canonical form. -/
theorem Memory.wf_writeRun {l : List (Nat × α)} (h : Memory.wf l) (a : Nat) (vals : List α) :
    Memory.wf (Memory.writeRun l a vals) := by
  have h1 := Memory.wf_filter h (fun c => decide (c.1 < a))
  have h2 := Memory.wf_cellsFrom a vals
  have h3 := Memory.wf_filter h (fun c => decide (a + vals.length ≤ c.1))
  unfold Memory.wf at *
  unfold Memory.writeRun
  rw [List.map_append, List.map_append, List.pairwise_append, List.pairwise_append]
  refine ⟨⟨h1, h2, ?_⟩, h3, ?_⟩
  · intro x hx y hy
    obtain ⟨c, hc, rfl⟩ := List.mem_map.mp hx
    obtain ⟨d, hd, rfl⟩ := List.mem_map.mp hy
    have := Memory.mem_cellsFrom_key hd
    have hc' := (List.mem_filter.mp hc).2
    simp only [decide_eq_true_eq] at hc'
    omega
  · intro x hx y hy
    obtain ⟨d, hd, rfl⟩ := List.mem_map.mp hy
    have hd' := (List.mem_filter.mp hd).2
    simp only [decide_eq_true_eq] at hd'
    rcases List.mem_append.mp hx with hx | hx
    · obtain ⟨c, hc, rfl⟩ := List.mem_map.mp hx
      have hc' := (List.mem_filter.mp hc).2
      simp only [decide_eq_true_eq] at hc'
      omega
    · obtain ⟨c, hc, rfl⟩ := List.mem_map.mp hx
      have := Memory.mem_cellsFrom_key hc
      omega

/-- The keys of a store after a write: old ones, and the run's. -/
theorem Memory.mem_writeRun_key {l : List (Nat × α)} {a : Nat} {vals : List α} {c : Nat × α}
    (h : c ∈ Memory.writeRun l a vals) : c ∈ l ∨ (a ≤ c.1 ∧ c.1 < a + vals.length) := by
  unfold Memory.writeRun at h
  rcases List.mem_append.mp h with h | h
  · rcases List.mem_append.mp h with h | h
    · exact .inl (List.mem_filter.mp h).1
    · exact .inr (Memory.mem_cellsFrom_key h)
  · exact .inl (List.mem_filter.mp h).1

/-- Canonical stores that read alike are equal: equal buffers are equal data. -/
theorem Memory.ext_of_wf {l m : List (Nat × α)} (hl : Memory.wf l) (hm : Memory.wf m)
    (h : ∀ a, Memory.read l a = Memory.read m a) : l = m := by
  induction l generalizing m with
  | nil =>
    cases m with
    | nil => rfl
    | cons c m => have := h c.1; simp [Memory.read] at this
  | cons c l ih =>
    obtain ⟨k, v⟩ := c
    cases m with
    | nil => have := h k; simp [Memory.read] at this
    | cons d m =>
      obtain ⟨k', v'⟩ := d
      simp only [Memory.wf, List.map_cons, List.pairwise_cons] at hl hm
      have none_below : ∀ {x : List (Nat × α)} {a : Nat}, (∀ b ∈ x.map Prod.fst, a < b) → Memory.read x a = none := by
        intro x a hx
        induction x with
        | nil => rfl
        | cons e x ihx =>
          obtain ⟨ke, ve⟩ := e
          have he : a < ke := hx ke (by simp)
          simp only [Memory.read, if_neg (by omega : ¬ ke = a)]
          exact ihx fun b hb => hx b (by simp at hb ⊢; exact .inr hb)
      have hk : k = k' := by
        by_contra hne
        rcases Nat.lt_or_gt_of_ne hne with hlt | hgt
        · have h1 := h k
          rw [Memory.read, if_pos rfl, Memory.read, if_neg (by omega),
            none_below fun b hb => Nat.lt_trans hlt (hm.1 b hb)] at h1
          simp at h1
        · have h1 := h k'
          rw [Memory.read, if_neg (by omega), Memory.read, if_pos rfl,
            none_below fun b hb => Nat.lt_trans hgt (hl.1 b hb)] at h1
          simp at h1
      subst hk
      have hv : v = v' := by have h1 := h k; simpa [Memory.read] using h1
      subst hv
      congr 1
      refine ih hl.2 hm.2 fun a => ?_
      by_cases ha : k = a
      · subst ha; rw [none_below hl.1, none_below hm.1]
      · have h1 := h a; simpa [Memory.read, ha] using h1

/-! ### Every write of a command keeps the canonical form -/

theorem writeOut_wf {s : State} (h : Memory.wf s.mem) (l : List Byte) : Memory.wf (writeOut s l).mem :=
  Memory.wf_writeRun h _ _

theorem writeRed_wf {s : State} (h : Memory.wf s.mem) (l : List Byte) : Memory.wf (writeRed s l).mem :=
  Memory.wf_writeRun h _ _

theorem writeBits_wf {s : State} (h : Memory.wf s.bits) (p : Nat) (l : List Bool) : Memory.wf (writeBits s p l).bits :=
  Memory.wf_writeRun h _ _

theorem writeInts_wf {s : State} (h : Memory.wf s.ints) (p : Nat) (l : List Word) : Memory.wf (writeInts s p l).ints :=
  Memory.wf_writeRun h _ _

/-- The stores of the state after reset are canonical: nothing is listed (R43). -/
theorem reset_wf : Memory.wf State.reset.mem ∧ Memory.wf State.reset.bits ∧ Memory.wf State.reset.ints :=
  ⟨Memory.wf_nil, Memory.wf_nil, Memory.wf_nil⟩

end Sys2Proof.Machine
end

