-- ==== Sys2Proof/Laws/Operands.lean ====
section
/-! SUPPORT. The ring offsets, the bytes and bits of a frame, and the redundancy functions: what the operands and pure functions of
the commands are, said once. -/

namespace Sys2Proof.Machine

/-! ### Ring offsets -/

/-- `OFF[r]` is the sum of the sector counts before ring `r` (R9). -/
theorem off_eq_sum (p : Params) (r : Nat) : off p r = ((List.range r).map p.sectors).sum := by
  induction r with
  | zero => rfl
  | succ r ih => rw [off, ih, List.range_succ, List.map_append, List.sum_append]; simp

/-- `OFF[6] = 1344` (R9). -/
theorem off_six {p : Params} (h : p.Valid) : off p 6 = 1344 := by
  have := h.2.1; simp [off, Params.sectors]; omega

/-- A ring ends inside the bitstream. -/
theorem off_le_capTotal {p : Params} (h : p.Valid) {r : Nat} (hr : r < 6) :
    off p r + p.sectors r ≤ capTotal := by
  have := h.2.1
  interval_cases r <;> simp [off, Params.sectors, capTotal] <;> omega

theorem off_disjoint {p : Params} {r r' : Nat} (h : r < r') : off p r + p.sectors r ≤ off p r' := by
  induction r' with
  | zero => omega
  | succ n ih =>
    by_cases e : r = n
    · subst e; exact le_refl _
    · have := ih (by omega); simp only [off]; omega

/-- The ring found for an index owns it (R112). -/
theorem ringOf_spec {p : Params} (h : p.Valid) {idx : Nat} (hi : idx < 1344) :
    ringOf p idx ≤ 5 ∧ off p (ringOf p idx) ≤ idx ∧ idx - off p (ringOf p idx) < p.sectors (ringOf p idx) := by
  have h6 := h.2.1
  unfold ringOf
  simp only [off, Params.sectors]
  split_ifs <;> simp only [off, Params.sectors] <;> omega

/-- The ring of `OFF[r] + k` is `r` (R113). -/
theorem ringOf_off {p : Params} {r k : Nat} (hr : r ≤ 5) (hk : k < p.sectors r) : ringOf p (off p r + k) = r := by
  unfold ringOf
  interval_cases r <;> simp only [off, Params.sectors] at * <;> split_ifs <;> omega

theorem ring_of_index {p : Params} (hv : p.Valid) {n : Nat} (hn : n < 1344) :
    ∃ r ∈ List.range numRings, ∃ k < p.sectors r, n = off p r + k := by
  obtain ⟨h1, h2, h3⟩ := ringOf_spec hv hn
  exact ⟨ringOf p n, by simp [numRings]; omega, _, h3, by omega⟩

/-! ### Bytes and bits -/

@[simp] theorem byteBits_length (b : Byte) : (byteBits b).length = 8 := rfl

theorem byteBits_getElem? (b : Byte) {k : Nat} (hk : k < 8) : (byteBits b)[k]? = some (b.getLsbD (7 - k)) := by
  interval_cases k <;> rfl

theorem bitsByte_byteBits : ∀ b : Byte, bitsByte (byteBits b) = b := by decide +kernel

theorem byteBits_bitsByte {l : List Bool} (h : l.length = 8) : byteBits (bitsByte l) = l := by
  obtain ⟨a, b, c, d, e, f, g, i, rfl⟩ : ∃ a b c d e f g i, l = [a, b, c, d, e, f, g, i] := by
    match l, h with
    | [a, b, c, d, e, f, g, i], _ => exact ⟨a, b, c, d, e, f, g, i, rfl⟩
  revert a b c d e f g i; decide

/-- A byte of the bitstream, bit by bit (R11, R86). -/
theorem byteAt_eq_some {s : State} {p : Nat} {v : Byte} :
    byteAt s p = some v ↔ ∀ k < 8, Memory.read s.bits (p + k) = some (v.getLsbD (7 - k)) := by
  unfold byteAt
  rw [Option.map_eq_some_iff]
  constructor
  · rintro ⟨l, hl, rfl⟩ k hk
    rw [Memory.readRun_eq_some] at hl
    rw [hl.2 k hk, ← byteBits_getElem? _ hk, byteBits_bitsByte hl.1]
  · intro h
    refine ⟨byteBits v, Memory.readRun_eq_some.mpr ⟨rfl, fun i hi => ?_⟩, bitsByte_byteBits v⟩
    rw [h i hi, byteBits_getElem? _ hi]

theorem byteAt_eq_none {s : State} {p : Nat} : byteAt s p = none ↔ ∃ k < 8, Memory.read s.bits (p + k) = none := by
  rw [byteAt, Option.map_eq_none_iff, Memory.readRun_eq_none]

/-- A run of bytes of the bitstream, byte by byte. -/
theorem bytesAt_eq_some {s : State} {p n : Nat} {l : List Byte} :
    bytesAt s p n = some l ↔ l.length = n ∧ ∀ c < n, byteAt s (p + 8 * c) = l[c]? := allSome_range_eq_some

theorem bytesAt_eq_none {s : State} {p n : Nat} :
    bytesAt s p n = none ↔ ∃ c < n, byteAt s (p + 8 * c) = none := by
  simp [bytesAt, allSome_eq_none]

theorem byteAt_congr {a b : State} {p : Nat} (h : ∀ k < 8, Memory.read a.bits (p + k) = Memory.read b.bits (p + k)) : byteAt a p = byteAt b p := by
  unfold byteAt; rw [Memory.readRun_congr h]

theorem bytesAt_congr {a b : State} {p n : Nat} (h : ∀ k < 8 * n, Memory.read a.bits (p + k) = Memory.read b.bits (p + k)) : bytesAt a p n = bytesAt b p n := by
  unfold bytesAt
  congr 1
  refine List.map_congr_left fun c hc => byteAt_congr fun k hk => ?_
  have := List.mem_range.mp hc
  rw [show p + 8 * c + k = p + (8 * c + k) by omega]; exact h _ (by omega)

theorem flattenBytes_length (l : List Byte) : (flattenBytes l).length = 8 * l.length := by
  induction l with
  | nil => rfl
  | cons b l ih => simp only [flattenBytes, List.flatMap_cons, List.length_append, byteBits_length] at *; simp; omega

/-- Bit `8c + k` of flattened bytes (R86). -/
theorem flattenBytes_getElem? {l : List Byte} {c k : Nat} {b : Byte} (hb : l[c]? = some b) (hk : k < 8) :
    (flattenBytes l)[8 * c + k]? = some (b.getLsbD (7 - k)) := by
  induction l generalizing c with
  | nil => simp at hb
  | cons a l ih =>
    simp only [flattenBytes, List.flatMap_cons]
    cases c with
    | zero =>
      obtain rfl : a = b := by simpa using hb
      rw [List.getElem?_append_left (by simp; omega)]; simpa using byteBits_getElem? a hk
    | succ c =>
      rw [List.getElem?_append_right (by simp; omega)]
      have := ih (c := c) (by simpa using hb)
      simp only [byteBits_length]
      rw [show 8 * (c + 1) + k - 8 = 8 * c + k by omega]; exact this

/-! ### Redundancy -/

@[simp] theorem apred_length (p : List Byte) (n : Nat) : (apred p n).length = n := by simp [apred]

theorem apred_getElem? (p : List Byte) {n i : Nat} (h : i < n) : (apred p n)[i]? = some (apredByte p i) := by
  simp [apred, h]

/-- A redundancy byte of joined payloads (R161). -/
theorem apredByte_append (p q : List Byte) (i : Nat) :
    apredByte (p ++ q) i = apredByte p i ^^^ apredByte q i := by
  have gen : ∀ (q : List Byte) (a : Byte),
      q.foldl (fun acc b => acc ^^^ BitVec.ofNat 8 (b.toNat * (i + 1) % 256)) a = a ^^^ apredByte q i := by
    intro q
    induction q with
    | nil => intro a; simp [apredByte]
    | cons b q ih =>
      intro a
      simp only [apredByte, List.foldl_cons]
      rw [ih, ih, ← BitVec.xor_assoc]; simp
  unfold apredByte
  rw [List.foldl_append, gen]; rfl

theorem apredByte_cons (b : Byte) (q : List Byte) (i : Nat) :
    apredByte (b :: q) i = BitVec.ofNat 8 (b.toNat * (i + 1)) ^^^ apredByte q i := by
  rw [← List.singleton_append, apredByte_append]; congr 1
  simp [apredByte]
  apply BitVec.eq_of_toNat_eq; simp

theorem apredByte_replicate_zero (z i : Nat) : apredByte (List.replicate z 0) i = 0 := by
  induction z with
  | zero => rfl
  | succ z ih => rw [List.replicate_succ, apredByte_cons, ih]; simp

/-- No data is left (R165). -/
theorem valred_of_le {cw : List Byte} {n : Nat} (h : cw.length ≤ n) : valred cw n = (none, 0) := by
  simp [valred, h]

/-- The filter on data followed by redundancy bytes (R165). -/
theorem valred_append (data red : List Byte) (h : 0 < data.length) :
    valred (data ++ red) red.length =
      (if 4 * data.length < 5 * suspectCount data then none else some data, xorBytes data) := by
  simp only [valred, List.length_append, Nat.add_sub_cancel]
  rw [if_neg (by omega), List.take_left]
  split <;> rfl

/-! ### The frame -/

theorem maxPayload_add_eccBytes {l : Nat} (_ : l < 4) : maxPayload l + eccBytes l = codewordBytes := by
  interval_cases l <;> rfl

/-- A codeword has 157 bytes at every level (R7). -/
theorem codeword_length {l : Nat} (hl : l < 4) {txt : List Byte} (h : txt.length ≤ maxPayload l) :
    (codeword l txt).length = codewordBytes := by
  simp only [codeword, paddedPayload, List.length_append, List.length_replicate, apred_length]
  have := maxPayload_add_eccBytes hl; omega

/-- A frame fills the bitstream exactly (R7, R87). -/
theorem frameBits_length (p : Params) {l : Nat} (hl : l < 4) {txt : List Byte} (h : txt.length ≤ maxPayload l) :
    (frameBits p l txt).length = capTotal := by
  simp only [frameBits, List.length_append, flattenBytes_length, codeword_length hl h]
  simp [startPattern, headerBytes, startLen, codewordBytes, capTotal]

/-- Frame byte `j`, counted from bit 32: header, then codeword. -/
theorem frameBits_byte (p : Params) (l : Nat) (txt : List Byte) {j k : Nat} {b : Byte}
    (hb : (headerBytes p l txt.length ++ codeword l txt)[j]? = some b) (hk : k < 8) :
    (frameBits p l txt)[32 + 8 * j + k]? = some (b.getLsbD (7 - k)) := by
  have : frameBits p l txt = startPattern p ++ flattenBytes (headerBytes p l txt.length ++ codeword l txt) := by
    simp [frameBits, flattenBytes, List.append_assoc]
  rw [this, List.getElem?_append_right (by simp [startPattern, startLen]; omega)]
  have hs : (startPattern p).length = 32 := by simp [startPattern, startLen]
  rw [hs, show 32 + 8 * j + k - 32 = 8 * j + k by omega]
  exact flattenBytes_getElem? hb hk

theorem readTxt_length {s : State} {txt : List Byte} (h : readTxt s = some txt) : txt.length = s.txtLen.toNat :=
  (Memory.readRun_eq_some.mp h).1

end Sys2Proof.Machine
end

