-- ==== Sys2Proof/Laws/Sampler.lean ====
section
/-! SUPPORT. What sampling and thresholding a ring, or a list of rings, leave behind. -/

namespace Sys2Proof.Machine

/-! ### One ring -/

/-- What `SAMP` leaves: the ring's entries. -/
theorem sampRun_eq_some {ring var shift : Nat} {s t : State} :
    sampRun ring var shift s = some t ↔
      ∃ es : List Word, es.length = s.params.sectors ring ∧
        (∀ i < s.params.sectors ring, sectorEntry s var ring shift i = es[i]?) ∧
        t = writeInts s (off s.params ring) es := by
  unfold sampRun
  rw [Option.map_eq_some_iff]
  simp only [allSome_range_eq_some]
  constructor
  · rintro ⟨es, ⟨h1, h2⟩, rfl⟩; exact ⟨es, h1, h2, rfl⟩
  · rintro ⟨es, h1, h2, rfl⟩; exact ⟨es, ⟨h1, h2⟩, rfl⟩

theorem thrBits_length (mode : Mode) (inv : Bool) (i : Nat) (vals : List Rat) :
    (thrBits mode inv i vals).length = vals.length := by simp [thrBits]

/-- What `THR` writes: the bits of the ring (R193). -/
theorem thrRun_eq_some {ring i : Nat} {mode : Mode} {inv : Bool} {s t : State} :
    thrRun ring mode inv i s = some t ↔
      ∃ es : List Word, readInts s (off s.params ring) (s.params.sectors ring) = some es ∧
        t = writeBits s (off s.params ring) (thrBits mode inv i (es.map intensity)) := by
  unfold thrRun
  rw [Option.map_eq_some_iff]
  constructor
  · rintro ⟨es, h, rfl⟩; exact ⟨es, h, rfl⟩
  · rintro ⟨es, h, rfl⟩; exact ⟨es, h, rfl⟩

/-- A canonical store of the elements of a bitstream. -/
def StoreOk {α : Type} (l : List (Nat × α)) : Prop := Memory.wf l ∧ ∀ c ∈ l, c.1 < capTotal

/-- A write inside the bitstream keeps a store canonical. -/
theorem StoreOk.writeRun {α : Type} {l : List (Nat × α)} (h : StoreOk l) {a : Nat} {vals : List α}
    (ha : a + vals.length ≤ capTotal) : StoreOk (Memory.writeRun l a vals) := by
  refine ⟨Memory.wf_writeRun h.1 _ _, fun c hc => ?_⟩
  rcases Memory.mem_writeRun_key hc with h1 | h1
  · exact h.2 c h1
  · omega

/-- `SAMP` writes `INT` only. -/
theorem sampRun_frame {ring var shift : Nat} {s t : State} (h : sampRun ring var shift s = some t) :
    t = { s with ints := t.ints } ∧ (s.params.Valid → ring < 6 → StoreOk s.ints → StoreOk t.ints) := by
  obtain ⟨es, h1, -, rfl⟩ := sampRun_eq_some.mp h
  refine ⟨rfl, fun hv hr hs => StoreOk.writeRun hs ?_⟩
  rw [h1]; exact off_le_capTotal hv hr

/-- `THR` writes `BITS` only. -/
theorem thrRun_frame {ring i : Nat} {mode : Mode} {inv : Bool} {s t : State} (h : thrRun ring mode inv i s = some t) :
    t = { s with bits := t.bits } ∧ (s.params.Valid → ring < 6 → StoreOk s.bits → StoreOk t.bits) := by
  obtain ⟨es, h1, rfl⟩ := thrRun_eq_some.mp h
  refine ⟨rfl, fun hv hr hs => StoreOk.writeRun hs ?_⟩
  have := (Memory.readRun_eq_some.mp h1).1
  rw [thrBits_length, List.length_map, this]; exact off_le_capTotal hv hr

theorem sectorEntry_congr {a b : State} (hp : a.params = b.params) (ht : a.taps = b.taps) (v r x k : Nat) : sectorEntry a v r x k = sectorEntry b v r x k := by
  unfold sectorEntry; rw [hp, ht]

/-- The aggregate is missing exactly where a tap is silent (R268). -/
theorem aggregate_none {u : TapUnit} {qs : List TapRequest} : aggregate u qs = none ↔ ∃ q ∈ qs, tapAnswer u q = .silent := by
  induction qs with
  | nil => simp [aggregate]
  | cons q qs ih =>
    unfold aggregate
    cases h : tapAnswer u q <;> simp [ih, h]

/-- `SAMP` waits exactly where the ring is not answered (R268). -/
theorem sampRun_none {s : State} {ring var shift : Nat} : sampRun ring var shift s = none ↔ ¬ RingAnswered s var ring shift := by
  unfold sampRun RingAnswered
  rw [Option.map_eq_none_iff, allSome_eq_none]
  simp only [List.mem_map, List.mem_range, sectorEntry, Option.map_eq_none_iff, aggregate_none]
  push Not
  rfl

theorem sectorEntry_some {s : State} {var r shift k : Nat} (h : RingAnswered s var r shift) (hk : k < s.params.sectors r) :
    sectorEntry s var r shift k ≠ none := by
  unfold sectorEntry
  rw [ne_eq, Option.map_eq_none_iff, aggregate_none]
  rintro ⟨q, hq, h2⟩
  exact h k hk q hq h2

/-! ### A list of rings -/

/-- Sampling rings writes `INT` only. -/
theorem sampRings_frame {var shift : Nat} {rs : List Nat} {s t : State} (h : sampRings var shift rs s = some t) :
    t = { s with ints := t.ints } ∧ (s.params.Valid → (∀ r ∈ rs, r < 6) → StoreOk s.ints → StoreOk t.ints) := by
  induction rs generalizing s with
  | nil => cases h; exact ⟨rfl, fun _ _ h => h⟩
  | cons r rs ih =>
    unfold sampRings at h
    split at h
    · cases h
    · rename_i u hu
      obtain ⟨h1, h2⟩ := sampRun_frame hu
      obtain ⟨h3, h4⟩ := ih h
      refine ⟨by rw [h3, h1], fun hv hr hs => h4 (by rw [h1]; exact hv) (fun r hr' => hr r (by simp [hr'])) (h2 hv (hr r (by simp)) hs)⟩

/-- Thresholding rings writes `BITS` only. -/
theorem thrRings_frame {i : Nat} {mode : Mode} {inv : Bool} {rs : List Nat} {s t : State} (h : thrRings mode inv i rs s = some t) :
    t = { s with bits := t.bits } ∧ (s.params.Valid → (∀ r ∈ rs, r < 6) → StoreOk s.bits → StoreOk t.bits) := by
  induction rs generalizing s with
  | nil => cases h; exact ⟨rfl, fun _ _ h => h⟩
  | cons r rs ih =>
    unfold thrRings at h
    split at h
    · cases h
    · rename_i u hu
      obtain ⟨h1, h2⟩ := thrRun_frame hu
      obtain ⟨h3, h4⟩ := ih h
      refine ⟨by rw [h3, h1], fun hv hr hs => h4 (by rw [h1]; exact hv) (fun r hr' => hr r (by simp [hr'])) (h2 hv (hr r (by simp)) hs)⟩

/-- What sampling a list of rings leaves in `INT`. -/
theorem sampRings_read {var shift : Nat} {rs : List Nat} (hnd : rs.Nodup) {s t : State} (h : sampRings var shift rs s = some t) :
    (∀ r ∈ rs, ∀ k < s.params.sectors r, Memory.read t.ints (off s.params r + k) = sectorEntry s var r shift k) ∧
    (∀ p, (∀ r ∈ rs, p < off s.params r ∨ off s.params r + s.params.sectors r ≤ p) → Memory.read t.ints p = Memory.read s.ints p) := by
  induction rs generalizing s with
  | nil => cases h; exact ⟨by simp, fun _ _ => rfl⟩
  | cons r rs ih =>
    unfold sampRings at h
    split at h
    · cases h
    · rename_i u hu
      obtain ⟨es, h1, h2, rfl⟩ := sampRun_eq_some.mp hu
      obtain ⟨i1, i2⟩ := ih (List.nodup_cons.mp hnd).2 h
      have hi : ∀ p, Memory.read (writeInts s (off s.params r) es).ints p = Memory.read (Memory.writeRun s.ints (off s.params r) es) p := fun _ => rfl
      refine ⟨fun r' hr' k hk => ?_, fun p hp => ?_⟩
      · rcases List.mem_cons.mp hr' with rfl | hr'
        · rw [i2 _ (fun r'' hr'' => ?_), hi, Memory.read_writeRun_inside (by omega), h2 k hk, List.getElem?_eq_getElem]
          show off s.params r' + k < off s.params r'' ∨ off s.params r'' + s.params.sectors r'' ≤ _
          have hne : r' ≠ r'' := fun e => (List.nodup_cons.mp hnd).1 (e ▸ hr'')
          rcases Nat.lt_or_gt_of_ne hne with g | g
          · have := off_disjoint (p := s.params) g; omega
          · have := off_disjoint (p := s.params) g; omega
        · exact (i1 r' hr' k hk).trans (sectorEntry_congr rfl rfl _ _ _ _)
      · rw [i2 p (fun r' hr' => hp r' (by simp [hr'])), hi, Memory.read_writeRun_outside]
        rw [h1]; exact hp r (by simp)

/-- What thresholding a list of rings leaves in `BITS`. -/
theorem thrRings_read {i : Nat} {mode : Mode} {inv : Bool} {rs : List Nat} (hnd : rs.Nodup) {s t : State} (h : thrRings mode inv i rs s = some t) :
    (∀ r ∈ rs, ∃ es, readInts s (off s.params r) (s.params.sectors r) = some es ∧
      ∀ k < s.params.sectors r, Memory.read t.bits (off s.params r + k) = (thrBits mode inv i (es.map intensity))[k]?) ∧
    (∀ p, (∀ r ∈ rs, p < off s.params r ∨ off s.params r + s.params.sectors r ≤ p) → Memory.read t.bits p = Memory.read s.bits p) := by
  induction rs generalizing s with
  | nil => cases h; exact ⟨by simp, fun _ _ => rfl⟩
  | cons r rs ih =>
    unfold thrRings at h
    split at h
    · cases h
    · rename_i u hu
      obtain ⟨es, h1, rfl⟩ := thrRun_eq_some.mp hu
      have hl := (Memory.readRun_eq_some.mp h1).1
      have hbl : (thrBits mode inv i (es.map intensity)).length = s.params.sectors r := by rw [thrBits_length, List.length_map, hl]
      obtain ⟨i1, i2⟩ := ih (List.nodup_cons.mp hnd).2 h
      have hi : ∀ p, Memory.read (writeBits s (off s.params r) (thrBits mode inv i (es.map intensity))).bits p = Memory.read (Memory.writeRun s.bits (off s.params r) (thrBits mode inv i (es.map intensity))) p := fun _ => rfl
      refine ⟨fun r' hr' => ?_, fun p hp => ?_⟩
      · rcases List.mem_cons.mp hr' with rfl | hr'
        · refine ⟨es, h1, fun k hk => ?_⟩
          rw [i2 _ (fun r'' hr'' => ?_), hi, Memory.read_writeRun_inside (by omega), List.getElem?_eq_getElem]
          show off s.params r' + k < off s.params r'' ∨ off s.params r'' + s.params.sectors r'' ≤ _
          have hne : r' ≠ r'' := fun e => (List.nodup_cons.mp hnd).1 (e ▸ hr'')
          rcases Nat.lt_or_gt_of_ne hne with g | g
          · have := off_disjoint (p := s.params) g; omega
          · have := off_disjoint (p := s.params) g; omega
        · exact i1 r' hr'
      · rw [i2 p (fun r' hr' => hp r' (by simp [hr'])), hi, Memory.read_writeRun_outside]
        rw [hbl]; exact hp r (by simp)

theorem sampRings_some {var shift : Nat} {rs : List Nat} {s : State} (h : ∀ r ∈ rs, RingAnswered s var r shift) :
    ∃ t, sampRings var shift rs s = some t := by
  induction rs generalizing s with
  | nil => exact ⟨s, rfl⟩
  | cons r rs ih =>
    unfold sampRings
    cases hs : sampRun r var shift s with
    | none => exact absurd (h r (by simp)) (sampRun_none.mp hs)
    | some u =>
      have e := (sampRun_frame hs).1
      refine ih fun r' hr' => ?_
      have := h r' (by simp [hr'])
      unfold RingAnswered at *
      rw [e]; exact this

theorem sampRings_none {var shift : Nat} {rs : List Nat} {s : State} (h : ∃ r ∈ rs, ¬ RingAnswered s var r shift) :
    sampRings var shift rs s = none := by
  induction rs generalizing s with
  | nil => simp at h
  | cons r rs ih =>
    unfold sampRings
    cases hs : sampRun r var shift s with
    | none => rfl
    | some u =>
      have e := (sampRun_frame hs).1
      obtain ⟨r', hr', hn⟩ := h
      rcases List.mem_cons.mp hr' with rfl | hr'
      · rw [sampRun_none.mpr hn] at hs; cases hs
      · refine ih ⟨r', hr', ?_⟩
        unfold RingAnswered at *
        rw [e]; exact hn

theorem thrRings_some {i : Nat} {mode : Mode} {inv : Bool} {rs : List Nat} {s : State}
    (h : ∀ r ∈ rs, ∀ k < s.params.sectors r, Memory.read s.ints (off s.params r + k) ≠ none) :
    ∃ t, thrRings mode inv i rs s = some t := by
  induction rs generalizing s with
  | nil => exact ⟨s, rfl⟩
  | cons r rs ih =>
    unfold thrRings
    cases hs : thrRun r mode inv i s with
    | none =>
      unfold thrRun at hs
      rw [Option.map_eq_none_iff] at hs
      obtain ⟨k, hk, hn⟩ := Memory.readRun_eq_none.mp hs
      exact absurd hn (h r (by simp) k hk)
    | some u =>
      have e := (thrRun_frame hs).1
      refine ih fun r' hr' k hk => ?_
      rw [e] at hk ⊢
      exact h r' (by simp [hr']) k hk

/-! ### Ascending order -/

/-- Insertion keeps the values. -/
theorem insertAscending_perm (x : Rat) (l : List Rat) : (insertAscending x l).Perm (x :: l) := by
  induction l with
  | nil => exact .refl _
  | cons y ys ih =>
    unfold insertAscending
    split
    · exact .refl _
    · exact (List.Perm.cons y ih).trans (List.Perm.swap x y ys)

/-- Insertion keeps the order. -/
theorem insertAscending_sorted {x : Rat} {l : List Rat} (h : l.Pairwise (· ≤ ·)) : (insertAscending x l).Pairwise (· ≤ ·) := by
  induction l with
  | nil => simp [insertAscending]
  | cons y ys ih =>
    rw [List.pairwise_cons] at h
    unfold insertAscending
    split
    · rename_i hxy
      refine List.pairwise_cons.mpr ⟨fun a ha => ?_, List.pairwise_cons.mpr h⟩
      rcases List.mem_cons.mp ha with rfl | ha
      · exact hxy
      · exact hxy.trans (h.1 a ha)
    · rename_i hxy
      refine List.pairwise_cons.mpr ⟨fun a ha => ?_, ih h.2⟩
      rcases List.mem_cons.mp ((insertAscending_perm x ys).mem_iff.mp ha) with rfl | ha
      · exact le_of_lt (not_le.mp hxy)
      · exact h.1 a ha

/-- Sorting gives the same values in ascending order (R190). -/
theorem sortAscending_spec (l : List Rat) : (sortAscending l).Perm l ∧ (sortAscending l).Pairwise (· ≤ ·) := by
  induction l with
  | nil => exact ⟨.refl _, .nil⟩
  | cons x l ih =>
    exact ⟨(insertAscending_perm _ _).trans (List.Perm.cons x ih.1), insertAscending_sorted ih.2⟩

/-- A sorted list is determined by its values. -/
theorem sorted_unique {a b l : List Rat} (h1 : a.Perm l) (h2 : a.Pairwise (· ≤ ·)) (h3 : b.Perm l) (h4 : b.Pairwise (· ≤ ·)) : a = b :=
  List.Perm.eq_of_pairwise (fun _ _ _ _ h h' => le_antisymm h h') h2 h4 (h1.trans h3.symm)

end Sys2Proof.Machine
end

