-- ==== Sys2Proof/Laws/State.lean ====
section
/-! SUPPORT. What each shared operation over the state leaves in each field: one lemma per field per update, true by rfl,
so that no proof unfolds a record update. -/

namespace Sys2Proof.Machine

/-! ### accept -/

@[simp] theorem accept_mem (w : Word) (s : State) : (accept w s).mem = s.mem := rfl
@[simp] theorem accept_bits (w : Word) (s : State) : (accept w s).bits = s.bits := rfl
@[simp] theorem accept_ints (w : Word) (s : State) : (accept w s).ints = s.ints := rfl
@[simp] theorem accept_txtLen (w : Word) (s : State) : (accept w s).txtLen = s.txtLen := rfl
@[simp] theorem accept_cwLen (w : Word) (s : State) : (accept w s).cwLen = s.cwLen := rfl
@[simp] theorem accept_outLen (w : Word) (s : State) : (accept w s).outLen = s.outLen := rfl
@[simp] theorem accept_redLen (w : Word) (s : State) : (accept w s).redLen = s.redLen := rfl
@[simp] theorem accept_cmd (w : Word) (s : State) : (accept w s).cmd = some w := rfl
@[simp] theorem accept_done (w : Word) (s : State) : (accept w s).done = false := rfl
@[simp] theorem accept_code (w : Word) (s : State) : (accept w s).code = s.code := rfl
@[simp] theorem accept_lastOp (w : Word) (s : State) : (accept w s).lastOp = w.extractLsb' 0 8 := rfl
@[simp] theorem accept_hdr (w : Word) (s : State) : (accept w s).hdr = s.hdr := rfl
@[simp] theorem accept_xorsum (w : Word) (s : State) : (accept w s).xorsum = s.xorsum := rfl
@[simp] theorem accept_hyp (w : Word) (s : State) : (accept w s).hyp = s.hyp := rfl
@[simp] theorem accept_hypCnt (w : Word) (s : State) : (accept w s).hypCnt = s.hypCnt := rfl
@[simp] theorem accept_progress (w : Word) (s : State) : (accept w s).progress = s.progress := rfl
@[simp] theorem accept_mapRs (w : Word) (s : State) : (accept w s).mapRs = s.mapRs := rfl
@[simp] theorem accept_mapIdx (w : Word) (s : State) : (accept w s).mapIdx = s.mapIdx := rfl
@[simp] theorem accept_params (w : Word) (s : State) : (accept w s).params = s.params := rfl
@[simp] theorem accept_events (w : Word) (s : State) : (accept w s).events = [] := rfl
@[simp] theorem accept_taps (w : Word) (s : State) : (accept w s).taps = s.taps := rfl
@[simp] theorem accept_inputs (w : Word) (s : State) : (accept w s).inputs = s.inputs := rfl
@[simp] theorem accept_replies (w : Word) (s : State) : (accept w s).replies = s.replies := rfl
@[simp] theorem accept_fresh (w : Word) (s : State) : (accept w s).fresh = s.fresh := rfl

/-! ### complete -/

@[simp] theorem complete_mem (c : Code) (s : State) : (complete c s).mem = s.mem := rfl
@[simp] theorem complete_bits (c : Code) (s : State) : (complete c s).bits = s.bits := rfl
@[simp] theorem complete_ints (c : Code) (s : State) : (complete c s).ints = s.ints := rfl
@[simp] theorem complete_txtLen (c : Code) (s : State) : (complete c s).txtLen = s.txtLen := rfl
@[simp] theorem complete_cwLen (c : Code) (s : State) : (complete c s).cwLen = s.cwLen := rfl
@[simp] theorem complete_outLen (c : Code) (s : State) : (complete c s).outLen = s.outLen := rfl
@[simp] theorem complete_redLen (c : Code) (s : State) : (complete c s).redLen = s.redLen := rfl
@[simp] theorem complete_cmd (c : Code) (s : State) : (complete c s).cmd = none := rfl
@[simp] theorem complete_done (c : Code) (s : State) : (complete c s).done = true := rfl
@[simp] theorem complete_code (c : Code) (s : State) : (complete c s).code = c := rfl
@[simp] theorem complete_lastOp (c : Code) (s : State) : (complete c s).lastOp = s.lastOp := rfl
@[simp] theorem complete_hdr (c : Code) (s : State) : (complete c s).hdr = s.hdr := rfl
@[simp] theorem complete_xorsum (c : Code) (s : State) : (complete c s).xorsum = s.xorsum := rfl
@[simp] theorem complete_hyp (c : Code) (s : State) : (complete c s).hyp = s.hyp := rfl
@[simp] theorem complete_hypCnt (c : Code) (s : State) : (complete c s).hypCnt = s.hypCnt := rfl
@[simp] theorem complete_progress (c : Code) (s : State) : (complete c s).progress = s.progress := rfl
@[simp] theorem complete_mapRs (c : Code) (s : State) : (complete c s).mapRs = s.mapRs := rfl
@[simp] theorem complete_mapIdx (c : Code) (s : State) : (complete c s).mapIdx = s.mapIdx := rfl
@[simp] theorem complete_params (c : Code) (s : State) : (complete c s).params = s.params := rfl
@[simp] theorem complete_events (c : Code) (s : State) : (complete c s).events = s.events := rfl
@[simp] theorem complete_taps (c : Code) (s : State) : (complete c s).taps = s.taps := rfl
@[simp] theorem complete_inputs (c : Code) (s : State) : (complete c s).inputs = s.inputs := rfl
@[simp] theorem complete_replies (c : Code) (s : State) : (complete c s).replies = s.replies := rfl
@[simp] theorem complete_fresh (c : Code) (s : State) : (complete c s).fresh = s.fresh := rfl

/-! ### writeOut -/

@[simp] theorem writeOut_mem (s : State) (l : List Byte) : (writeOut s l).mem = Memory.writeRun s.mem outBase l := rfl
@[simp] theorem writeOut_bits (s : State) (l : List Byte) : (writeOut s l).bits = s.bits := rfl
@[simp] theorem writeOut_ints (s : State) (l : List Byte) : (writeOut s l).ints = s.ints := rfl
@[simp] theorem writeOut_txtLen (s : State) (l : List Byte) : (writeOut s l).txtLen = s.txtLen := rfl
@[simp] theorem writeOut_cwLen (s : State) (l : List Byte) : (writeOut s l).cwLen = s.cwLen := rfl
@[simp] theorem writeOut_outLen (s : State) (l : List Byte) : (writeOut s l).outLen = s.outLen := rfl
@[simp] theorem writeOut_redLen (s : State) (l : List Byte) : (writeOut s l).redLen = s.redLen := rfl
@[simp] theorem writeOut_cmd (s : State) (l : List Byte) : (writeOut s l).cmd = s.cmd := rfl
@[simp] theorem writeOut_done (s : State) (l : List Byte) : (writeOut s l).done = s.done := rfl
@[simp] theorem writeOut_code (s : State) (l : List Byte) : (writeOut s l).code = s.code := rfl
@[simp] theorem writeOut_lastOp (s : State) (l : List Byte) : (writeOut s l).lastOp = s.lastOp := rfl
@[simp] theorem writeOut_hdr (s : State) (l : List Byte) : (writeOut s l).hdr = s.hdr := rfl
@[simp] theorem writeOut_xorsum (s : State) (l : List Byte) : (writeOut s l).xorsum = s.xorsum := rfl
@[simp] theorem writeOut_hyp (s : State) (l : List Byte) : (writeOut s l).hyp = s.hyp := rfl
@[simp] theorem writeOut_hypCnt (s : State) (l : List Byte) : (writeOut s l).hypCnt = s.hypCnt := rfl
@[simp] theorem writeOut_progress (s : State) (l : List Byte) : (writeOut s l).progress = s.progress := rfl
@[simp] theorem writeOut_mapRs (s : State) (l : List Byte) : (writeOut s l).mapRs = s.mapRs := rfl
@[simp] theorem writeOut_mapIdx (s : State) (l : List Byte) : (writeOut s l).mapIdx = s.mapIdx := rfl
@[simp] theorem writeOut_params (s : State) (l : List Byte) : (writeOut s l).params = s.params := rfl
@[simp] theorem writeOut_events (s : State) (l : List Byte) : (writeOut s l).events = s.events := rfl
@[simp] theorem writeOut_taps (s : State) (l : List Byte) : (writeOut s l).taps = s.taps := rfl
@[simp] theorem writeOut_inputs (s : State) (l : List Byte) : (writeOut s l).inputs = s.inputs := rfl
@[simp] theorem writeOut_replies (s : State) (l : List Byte) : (writeOut s l).replies = s.replies := rfl
@[simp] theorem writeOut_fresh (s : State) (l : List Byte) : (writeOut s l).fresh = s.fresh := rfl

/-! ### writeRed -/

@[simp] theorem writeRed_mem (s : State) (l : List Byte) : (writeRed s l).mem = Memory.writeRun s.mem redBase l := rfl
@[simp] theorem writeRed_bits (s : State) (l : List Byte) : (writeRed s l).bits = s.bits := rfl
@[simp] theorem writeRed_ints (s : State) (l : List Byte) : (writeRed s l).ints = s.ints := rfl
@[simp] theorem writeRed_txtLen (s : State) (l : List Byte) : (writeRed s l).txtLen = s.txtLen := rfl
@[simp] theorem writeRed_cwLen (s : State) (l : List Byte) : (writeRed s l).cwLen = s.cwLen := rfl
@[simp] theorem writeRed_outLen (s : State) (l : List Byte) : (writeRed s l).outLen = s.outLen := rfl
@[simp] theorem writeRed_redLen (s : State) (l : List Byte) : (writeRed s l).redLen = s.redLen := rfl
@[simp] theorem writeRed_cmd (s : State) (l : List Byte) : (writeRed s l).cmd = s.cmd := rfl
@[simp] theorem writeRed_done (s : State) (l : List Byte) : (writeRed s l).done = s.done := rfl
@[simp] theorem writeRed_code (s : State) (l : List Byte) : (writeRed s l).code = s.code := rfl
@[simp] theorem writeRed_lastOp (s : State) (l : List Byte) : (writeRed s l).lastOp = s.lastOp := rfl
@[simp] theorem writeRed_hdr (s : State) (l : List Byte) : (writeRed s l).hdr = s.hdr := rfl
@[simp] theorem writeRed_xorsum (s : State) (l : List Byte) : (writeRed s l).xorsum = s.xorsum := rfl
@[simp] theorem writeRed_hyp (s : State) (l : List Byte) : (writeRed s l).hyp = s.hyp := rfl
@[simp] theorem writeRed_hypCnt (s : State) (l : List Byte) : (writeRed s l).hypCnt = s.hypCnt := rfl
@[simp] theorem writeRed_progress (s : State) (l : List Byte) : (writeRed s l).progress = s.progress := rfl
@[simp] theorem writeRed_mapRs (s : State) (l : List Byte) : (writeRed s l).mapRs = s.mapRs := rfl
@[simp] theorem writeRed_mapIdx (s : State) (l : List Byte) : (writeRed s l).mapIdx = s.mapIdx := rfl
@[simp] theorem writeRed_params (s : State) (l : List Byte) : (writeRed s l).params = s.params := rfl
@[simp] theorem writeRed_events (s : State) (l : List Byte) : (writeRed s l).events = s.events := rfl
@[simp] theorem writeRed_taps (s : State) (l : List Byte) : (writeRed s l).taps = s.taps := rfl
@[simp] theorem writeRed_inputs (s : State) (l : List Byte) : (writeRed s l).inputs = s.inputs := rfl
@[simp] theorem writeRed_replies (s : State) (l : List Byte) : (writeRed s l).replies = s.replies := rfl
@[simp] theorem writeRed_fresh (s : State) (l : List Byte) : (writeRed s l).fresh = s.fresh := rfl

/-! ### writeBits -/

@[simp] theorem writeBits_mem (s : State) (p : Nat) (l : List Bool) : (writeBits s p l).mem = s.mem := rfl
@[simp] theorem writeBits_bits (s : State) (p : Nat) (l : List Bool) : (writeBits s p l).bits = Memory.writeRun s.bits p l := rfl
@[simp] theorem writeBits_ints (s : State) (p : Nat) (l : List Bool) : (writeBits s p l).ints = s.ints := rfl
@[simp] theorem writeBits_txtLen (s : State) (p : Nat) (l : List Bool) : (writeBits s p l).txtLen = s.txtLen := rfl
@[simp] theorem writeBits_cwLen (s : State) (p : Nat) (l : List Bool) : (writeBits s p l).cwLen = s.cwLen := rfl
@[simp] theorem writeBits_outLen (s : State) (p : Nat) (l : List Bool) : (writeBits s p l).outLen = s.outLen := rfl
@[simp] theorem writeBits_redLen (s : State) (p : Nat) (l : List Bool) : (writeBits s p l).redLen = s.redLen := rfl
@[simp] theorem writeBits_cmd (s : State) (p : Nat) (l : List Bool) : (writeBits s p l).cmd = s.cmd := rfl
@[simp] theorem writeBits_done (s : State) (p : Nat) (l : List Bool) : (writeBits s p l).done = s.done := rfl
@[simp] theorem writeBits_code (s : State) (p : Nat) (l : List Bool) : (writeBits s p l).code = s.code := rfl
@[simp] theorem writeBits_lastOp (s : State) (p : Nat) (l : List Bool) : (writeBits s p l).lastOp = s.lastOp := rfl
@[simp] theorem writeBits_hdr (s : State) (p : Nat) (l : List Bool) : (writeBits s p l).hdr = s.hdr := rfl
@[simp] theorem writeBits_xorsum (s : State) (p : Nat) (l : List Bool) : (writeBits s p l).xorsum = s.xorsum := rfl
@[simp] theorem writeBits_hyp (s : State) (p : Nat) (l : List Bool) : (writeBits s p l).hyp = s.hyp := rfl
@[simp] theorem writeBits_hypCnt (s : State) (p : Nat) (l : List Bool) : (writeBits s p l).hypCnt = s.hypCnt := rfl
@[simp] theorem writeBits_progress (s : State) (p : Nat) (l : List Bool) : (writeBits s p l).progress = s.progress := rfl
@[simp] theorem writeBits_mapRs (s : State) (p : Nat) (l : List Bool) : (writeBits s p l).mapRs = s.mapRs := rfl
@[simp] theorem writeBits_mapIdx (s : State) (p : Nat) (l : List Bool) : (writeBits s p l).mapIdx = s.mapIdx := rfl
@[simp] theorem writeBits_params (s : State) (p : Nat) (l : List Bool) : (writeBits s p l).params = s.params := rfl
@[simp] theorem writeBits_events (s : State) (p : Nat) (l : List Bool) : (writeBits s p l).events = s.events := rfl
@[simp] theorem writeBits_taps (s : State) (p : Nat) (l : List Bool) : (writeBits s p l).taps = s.taps := rfl
@[simp] theorem writeBits_inputs (s : State) (p : Nat) (l : List Bool) : (writeBits s p l).inputs = s.inputs := rfl
@[simp] theorem writeBits_replies (s : State) (p : Nat) (l : List Bool) : (writeBits s p l).replies = s.replies := rfl
@[simp] theorem writeBits_fresh (s : State) (p : Nat) (l : List Bool) : (writeBits s p l).fresh = s.fresh := rfl

/-! ### writeInts -/

@[simp] theorem writeInts_mem (s : State) (p : Nat) (l : List Word) : (writeInts s p l).mem = s.mem := rfl
@[simp] theorem writeInts_bits (s : State) (p : Nat) (l : List Word) : (writeInts s p l).bits = s.bits := rfl
@[simp] theorem writeInts_ints (s : State) (p : Nat) (l : List Word) : (writeInts s p l).ints = Memory.writeRun s.ints p l := rfl
@[simp] theorem writeInts_txtLen (s : State) (p : Nat) (l : List Word) : (writeInts s p l).txtLen = s.txtLen := rfl
@[simp] theorem writeInts_cwLen (s : State) (p : Nat) (l : List Word) : (writeInts s p l).cwLen = s.cwLen := rfl
@[simp] theorem writeInts_outLen (s : State) (p : Nat) (l : List Word) : (writeInts s p l).outLen = s.outLen := rfl
@[simp] theorem writeInts_redLen (s : State) (p : Nat) (l : List Word) : (writeInts s p l).redLen = s.redLen := rfl
@[simp] theorem writeInts_cmd (s : State) (p : Nat) (l : List Word) : (writeInts s p l).cmd = s.cmd := rfl
@[simp] theorem writeInts_done (s : State) (p : Nat) (l : List Word) : (writeInts s p l).done = s.done := rfl
@[simp] theorem writeInts_code (s : State) (p : Nat) (l : List Word) : (writeInts s p l).code = s.code := rfl
@[simp] theorem writeInts_lastOp (s : State) (p : Nat) (l : List Word) : (writeInts s p l).lastOp = s.lastOp := rfl
@[simp] theorem writeInts_hdr (s : State) (p : Nat) (l : List Word) : (writeInts s p l).hdr = s.hdr := rfl
@[simp] theorem writeInts_xorsum (s : State) (p : Nat) (l : List Word) : (writeInts s p l).xorsum = s.xorsum := rfl
@[simp] theorem writeInts_hyp (s : State) (p : Nat) (l : List Word) : (writeInts s p l).hyp = s.hyp := rfl
@[simp] theorem writeInts_hypCnt (s : State) (p : Nat) (l : List Word) : (writeInts s p l).hypCnt = s.hypCnt := rfl
@[simp] theorem writeInts_progress (s : State) (p : Nat) (l : List Word) : (writeInts s p l).progress = s.progress := rfl
@[simp] theorem writeInts_mapRs (s : State) (p : Nat) (l : List Word) : (writeInts s p l).mapRs = s.mapRs := rfl
@[simp] theorem writeInts_mapIdx (s : State) (p : Nat) (l : List Word) : (writeInts s p l).mapIdx = s.mapIdx := rfl
@[simp] theorem writeInts_params (s : State) (p : Nat) (l : List Word) : (writeInts s p l).params = s.params := rfl
@[simp] theorem writeInts_events (s : State) (p : Nat) (l : List Word) : (writeInts s p l).events = s.events := rfl
@[simp] theorem writeInts_taps (s : State) (p : Nat) (l : List Word) : (writeInts s p l).taps = s.taps := rfl
@[simp] theorem writeInts_inputs (s : State) (p : Nat) (l : List Word) : (writeInts s p l).inputs = s.inputs := rfl
@[simp] theorem writeInts_replies (s : State) (p : Nat) (l : List Word) : (writeInts s p l).replies = s.replies := rfl
@[simp] theorem writeInts_fresh (s : State) (p : Nat) (l : List Word) : (writeInts s p l).fresh = s.fresh := rfl

/-! ### emitProgress -/

@[simp] theorem emitProgress_mem (v n : BitVec 3) (s : State) : (emitProgress v n s).mem = s.mem := rfl
@[simp] theorem emitProgress_bits (v n : BitVec 3) (s : State) : (emitProgress v n s).bits = s.bits := rfl
@[simp] theorem emitProgress_ints (v n : BitVec 3) (s : State) : (emitProgress v n s).ints = s.ints := rfl
@[simp] theorem emitProgress_txtLen (v n : BitVec 3) (s : State) : (emitProgress v n s).txtLen = s.txtLen := rfl
@[simp] theorem emitProgress_cwLen (v n : BitVec 3) (s : State) : (emitProgress v n s).cwLen = s.cwLen := rfl
@[simp] theorem emitProgress_outLen (v n : BitVec 3) (s : State) : (emitProgress v n s).outLen = s.outLen := rfl
@[simp] theorem emitProgress_redLen (v n : BitVec 3) (s : State) : (emitProgress v n s).redLen = s.redLen := rfl
@[simp] theorem emitProgress_cmd (v n : BitVec 3) (s : State) : (emitProgress v n s).cmd = s.cmd := rfl
@[simp] theorem emitProgress_done (v n : BitVec 3) (s : State) : (emitProgress v n s).done = s.done := rfl
@[simp] theorem emitProgress_code (v n : BitVec 3) (s : State) : (emitProgress v n s).code = s.code := rfl
@[simp] theorem emitProgress_lastOp (v n : BitVec 3) (s : State) : (emitProgress v n s).lastOp = s.lastOp := rfl
@[simp] theorem emitProgress_hdr (v n : BitVec 3) (s : State) : (emitProgress v n s).hdr = s.hdr := rfl
@[simp] theorem emitProgress_xorsum (v n : BitVec 3) (s : State) : (emitProgress v n s).xorsum = s.xorsum := rfl
@[simp] theorem emitProgress_hyp (v n : BitVec 3) (s : State) : (emitProgress v n s).hyp = s.hyp := rfl
@[simp] theorem emitProgress_hypCnt (v n : BitVec 3) (s : State) : (emitProgress v n s).hypCnt = s.hypCnt := rfl
@[simp] theorem emitProgress_progress (v n : BitVec 3) (s : State) : (emitProgress v n s).progress = { s.progress with var := v, count := s.progress.count + 1 } := rfl
@[simp] theorem emitProgress_mapRs (v n : BitVec 3) (s : State) : (emitProgress v n s).mapRs = s.mapRs := rfl
@[simp] theorem emitProgress_mapIdx (v n : BitVec 3) (s : State) : (emitProgress v n s).mapIdx = s.mapIdx := rfl
@[simp] theorem emitProgress_params (v n : BitVec 3) (s : State) : (emitProgress v n s).params = s.params := rfl
@[simp] theorem emitProgress_events (v n : BitVec 3) (s : State) : (emitProgress v n s).events = s.events ++ [{ var := v, nv := n }] := rfl
@[simp] theorem emitProgress_taps (v n : BitVec 3) (s : State) : (emitProgress v n s).taps = s.taps := rfl
@[simp] theorem emitProgress_inputs (v n : BitVec 3) (s : State) : (emitProgress v n s).inputs = s.inputs := rfl
@[simp] theorem emitProgress_replies (v n : BitVec 3) (s : State) : (emitProgress v n s).replies = s.replies := rfl
@[simp] theorem emitProgress_fresh (v n : BitVec 3) (s : State) : (emitProgress v n s).fresh = s.fresh := rfl

/-! ### recordHypothesis -/

@[simp] theorem recordHypothesis_mem (h : Hypothesis) (s : State) : (recordHypothesis h s).mem = s.mem := rfl
@[simp] theorem recordHypothesis_bits (h : Hypothesis) (s : State) : (recordHypothesis h s).bits = s.bits := rfl
@[simp] theorem recordHypothesis_ints (h : Hypothesis) (s : State) : (recordHypothesis h s).ints = s.ints := rfl
@[simp] theorem recordHypothesis_txtLen (h : Hypothesis) (s : State) : (recordHypothesis h s).txtLen = s.txtLen := rfl
@[simp] theorem recordHypothesis_cwLen (h : Hypothesis) (s : State) : (recordHypothesis h s).cwLen = s.cwLen := rfl
@[simp] theorem recordHypothesis_outLen (h : Hypothesis) (s : State) : (recordHypothesis h s).outLen = s.outLen := rfl
@[simp] theorem recordHypothesis_redLen (h : Hypothesis) (s : State) : (recordHypothesis h s).redLen = s.redLen := rfl
@[simp] theorem recordHypothesis_cmd (h : Hypothesis) (s : State) : (recordHypothesis h s).cmd = s.cmd := rfl
@[simp] theorem recordHypothesis_done (h : Hypothesis) (s : State) : (recordHypothesis h s).done = s.done := rfl
@[simp] theorem recordHypothesis_code (h : Hypothesis) (s : State) : (recordHypothesis h s).code = s.code := rfl
@[simp] theorem recordHypothesis_lastOp (h : Hypothesis) (s : State) : (recordHypothesis h s).lastOp = s.lastOp := rfl
@[simp] theorem recordHypothesis_hdr (h : Hypothesis) (s : State) : (recordHypothesis h s).hdr = s.hdr := rfl
@[simp] theorem recordHypothesis_xorsum (h : Hypothesis) (s : State) : (recordHypothesis h s).xorsum = s.xorsum := rfl
@[simp] theorem recordHypothesis_hyp (h : Hypothesis) (s : State) : (recordHypothesis h s).hyp = hypRegOf h := rfl
@[simp] theorem recordHypothesis_hypCnt (h : Hypothesis) (s : State) : (recordHypothesis h s).hypCnt = s.hypCnt + 1 := rfl
@[simp] theorem recordHypothesis_progress (h : Hypothesis) (s : State) : (recordHypothesis h s).progress = s.progress := rfl
@[simp] theorem recordHypothesis_mapRs (h : Hypothesis) (s : State) : (recordHypothesis h s).mapRs = s.mapRs := rfl
@[simp] theorem recordHypothesis_mapIdx (h : Hypothesis) (s : State) : (recordHypothesis h s).mapIdx = s.mapIdx := rfl
@[simp] theorem recordHypothesis_params (h : Hypothesis) (s : State) : (recordHypothesis h s).params = s.params := rfl
@[simp] theorem recordHypothesis_events (h : Hypothesis) (s : State) : (recordHypothesis h s).events = s.events := rfl
@[simp] theorem recordHypothesis_taps (h : Hypothesis) (s : State) : (recordHypothesis h s).taps = s.taps := rfl
@[simp] theorem recordHypothesis_inputs (h : Hypothesis) (s : State) : (recordHypothesis h s).inputs = s.inputs := rfl
@[simp] theorem recordHypothesis_replies (h : Hypothesis) (s : State) : (recordHypothesis h s).replies = s.replies := rfl
@[simp] theorem recordHypothesis_fresh (h : Hypothesis) (s : State) : (recordHypothesis h s).fresh = s.fresh := rfl

/-! ### sweepStart -/

@[simp] theorem sweepStart_mem (n : BitVec 3) (s : State) : (sweepStart n s).mem = s.mem := rfl
@[simp] theorem sweepStart_bits (n : BitVec 3) (s : State) : (sweepStart n s).bits = s.bits := rfl
@[simp] theorem sweepStart_ints (n : BitVec 3) (s : State) : (sweepStart n s).ints = s.ints := rfl
@[simp] theorem sweepStart_txtLen (n : BitVec 3) (s : State) : (sweepStart n s).txtLen = s.txtLen := rfl
@[simp] theorem sweepStart_cwLen (n : BitVec 3) (s : State) : (sweepStart n s).cwLen = s.cwLen := rfl
@[simp] theorem sweepStart_outLen (n : BitVec 3) (s : State) : (sweepStart n s).outLen = 0 := rfl
@[simp] theorem sweepStart_redLen (n : BitVec 3) (s : State) : (sweepStart n s).redLen = s.redLen := rfl
@[simp] theorem sweepStart_cmd (n : BitVec 3) (s : State) : (sweepStart n s).cmd = s.cmd := rfl
@[simp] theorem sweepStart_done (n : BitVec 3) (s : State) : (sweepStart n s).done = s.done := rfl
@[simp] theorem sweepStart_code (n : BitVec 3) (s : State) : (sweepStart n s).code = s.code := rfl
@[simp] theorem sweepStart_lastOp (n : BitVec 3) (s : State) : (sweepStart n s).lastOp = s.lastOp := rfl
@[simp] theorem sweepStart_hdr (n : BitVec 3) (s : State) : (sweepStart n s).hdr = s.hdr := rfl
@[simp] theorem sweepStart_xorsum (n : BitVec 3) (s : State) : (sweepStart n s).xorsum = s.xorsum := rfl
@[simp] theorem sweepStart_hyp (n : BitVec 3) (s : State) : (sweepStart n s).hyp = { var := 0, inv := false, bias := 0, mode := false, shift := 0, valid := false } := rfl
@[simp] theorem sweepStart_hypCnt (n : BitVec 3) (s : State) : (sweepStart n s).hypCnt = 0 := rfl
@[simp] theorem sweepStart_progress (n : BitVec 3) (s : State) : (sweepStart n s).progress = { var := 0, nv := n, count := 0 } := rfl
@[simp] theorem sweepStart_mapRs (n : BitVec 3) (s : State) : (sweepStart n s).mapRs = s.mapRs := rfl
@[simp] theorem sweepStart_mapIdx (n : BitVec 3) (s : State) : (sweepStart n s).mapIdx = s.mapIdx := rfl
@[simp] theorem sweepStart_params (n : BitVec 3) (s : State) : (sweepStart n s).params = s.params := rfl
@[simp] theorem sweepStart_events (n : BitVec 3) (s : State) : (sweepStart n s).events = [] := rfl
@[simp] theorem sweepStart_taps (n : BitVec 3) (s : State) : (sweepStart n s).taps = s.taps := rfl
@[simp] theorem sweepStart_inputs (n : BitVec 3) (s : State) : (sweepStart n s).inputs = s.inputs := rfl
@[simp] theorem sweepStart_replies (n : BitVec 3) (s : State) : (sweepStart n s).replies = s.replies := rfl
@[simp] theorem sweepStart_fresh (n : BitVec 3) (s : State) : (sweepStart n s).fresh = s.fresh := rfl

/-! ### resetBlock -/

@[simp] theorem resetBlock_mem (s : State) : (resetBlock s).mem = State.reset.mem := rfl
@[simp] theorem resetBlock_bits (s : State) : (resetBlock s).bits = State.reset.bits := rfl
@[simp] theorem resetBlock_ints (s : State) : (resetBlock s).ints = State.reset.ints := rfl
@[simp] theorem resetBlock_txtLen (s : State) : (resetBlock s).txtLen = State.reset.txtLen := rfl
@[simp] theorem resetBlock_cwLen (s : State) : (resetBlock s).cwLen = State.reset.cwLen := rfl
@[simp] theorem resetBlock_outLen (s : State) : (resetBlock s).outLen = State.reset.outLen := rfl
@[simp] theorem resetBlock_redLen (s : State) : (resetBlock s).redLen = State.reset.redLen := rfl
@[simp] theorem resetBlock_cmd (s : State) : (resetBlock s).cmd = State.reset.cmd := rfl
@[simp] theorem resetBlock_done (s : State) : (resetBlock s).done = State.reset.done := rfl
@[simp] theorem resetBlock_code (s : State) : (resetBlock s).code = State.reset.code := rfl
@[simp] theorem resetBlock_lastOp (s : State) : (resetBlock s).lastOp = State.reset.lastOp := rfl
@[simp] theorem resetBlock_hdr (s : State) : (resetBlock s).hdr = State.reset.hdr := rfl
@[simp] theorem resetBlock_xorsum (s : State) : (resetBlock s).xorsum = State.reset.xorsum := rfl
@[simp] theorem resetBlock_hyp (s : State) : (resetBlock s).hyp = State.reset.hyp := rfl
@[simp] theorem resetBlock_hypCnt (s : State) : (resetBlock s).hypCnt = State.reset.hypCnt := rfl
@[simp] theorem resetBlock_progress (s : State) : (resetBlock s).progress = State.reset.progress := rfl
@[simp] theorem resetBlock_mapRs (s : State) : (resetBlock s).mapRs = State.reset.mapRs := rfl
@[simp] theorem resetBlock_mapIdx (s : State) : (resetBlock s).mapIdx = State.reset.mapIdx := rfl
@[simp] theorem resetBlock_params (s : State) : (resetBlock s).params = s.params := rfl
@[simp] theorem resetBlock_events (s : State) : (resetBlock s).events = State.reset.events := rfl
@[simp] theorem resetBlock_taps (s : State) : (resetBlock s).taps = s.taps := rfl
@[simp] theorem resetBlock_inputs (s : State) : (resetBlock s).inputs = s.inputs := rfl
@[simp] theorem resetBlock_replies (s : State) : (resetBlock s).replies = s.replies := rfl
@[simp] theorem resetBlock_fresh (s : State) : (resetBlock s).fresh = s.fresh := rfl

/-! ### BUSY -/

@[simp] theorem accept_busy (w : Word) (s : State) : (accept w s).busy = true := rfl
@[simp] theorem complete_busy (c : Code) (s : State) : (complete c s).busy = false := rfl
@[simp] theorem resetBlock_busy (s : State) : (resetBlock s).busy = false := rfl

end Sys2Proof.Machine
end

