-- ==== Sys2Proof/Laws/Commands.lean ====
section
/-! SUPPORT. Everything each command can answer, one lemma per command, and the frame of a sweep. -/

namespace Sys2Proof.Machine

/-! ### The dispatch -/

theorem exec_encf (ecc : BitVec 2) (s : State) : exec (.encf ecc) s = execEncf ecc s := rfl

theorem exec_decf (s : State) : exec .decf s = execDecf s := rfl

theorem exec_apred (n : BitVec 8) (s : State) : exec (.apred n) s = execApred n s := rfl

theorem exec_valred (n : BitVec 8) (s : State) : exec (.valred n) s = execValred n s := rfl

theorem exec_mapb (idx : BitVec 11) (s : State) : exec (.mapb idx) s = execMapb idx s := rfl

theorem exec_maps (r : BitVec 3) (x : BitVec 11) (s : State) : exec (.maps r x) s = execMaps r x s := rfl

theorem exec_samp (r v : BitVec 3) (a : BitVec 11) (s : State) : exec (.samp r v a) s = execSamp r v a s := rfl

theorem exec_thr (r : BitVec 3) (m : Mode) (v : Bool) (i : BitVec 3) (s : State) :
    exec (.thr r m v i) s = execThr r m v i s := rfl

theorem exec_sweep (nv : BitVec 3) (s : State) : exec (.sweep nv) s = execSweep nv s := rfl

/-! ### DECF -/

/-- Everything `DECF` can end in. -/
theorem decfRun_cases {s t : State} {c : Code} (h : decfRun s = .ended c t) :
    (c = .ok ∧ ∃ data : List Byte, 0 < data.length ∧ data.length ≤ codewordBytes ∧
      t = { writeOut s data with hdr := t.hdr, xorsum := t.xorsum, outLen := BitVec.ofNat 8 data.length }) ∨
    ((c = .headerChecksumMismatch ∨ c = .payloadLengthInvalid ∨ c = .redundancyValidationFailed) ∧
      t = { s with hdr := t.hdr, xorsum := t.xorsum, outLen := 0 }) := by
  unfold decfRun at h
  cases hh : readHeader s with
  | none => rw [hh] at h; cases h
  | some hd =>
    rw [hh] at h
    simp only at h
    have hcap : levelCapacity hd.ecc ≤ codewordBytes := by unfold levelCapacity; split <;> simp
    split_ifs at h with h1 h2 h3 h4
    · cases h; exact .inr ⟨.inl rfl, rfl⟩
    · cases h; exact .inr ⟨.inr (.inl rfl), rfl⟩
    · cases h; exact .inr ⟨.inr (.inl rfl), rfl⟩
    · simp [capTotal, codewordAt, startLen, headerBits, codewordBytes] at *; omega
    · cases hb : bytesAt s codewordAt (hd.payLen.toNat + hd.redLen.toNat) with
      | none => rw [hb] at h; cases h
      | some cw =>
        rw [hb] at h
        simp only at h
        have hlen := (bytesAt_eq_some.mp hb).1
        have hv := valred_append (cw.take hd.payLen.toNat) (cw.drop hd.payLen.toNat) (by
          rw [List.length_take, hlen]; omega)
        have hd1 : (cw.drop hd.payLen.toNat).length = hd.redLen.toNat := by rw [List.length_drop, hlen]; omega
        rw [List.take_append_drop, hd1] at hv
        rw [hv] at h
        split_ifs at h with h5
        · cases h; exact .inr ⟨.inr (.inr rfl), rfl⟩
        · cases h
          have hl : (cw.take hd.payLen.toNat).length = hd.payLen.toNat := by rw [List.length_take, hlen]; omega
          refine .inl ⟨rfl, cw.take hd.payLen.toNat, by omega, by omega, ?_⟩
          simp only [List.take_take, Nat.min_self, hl]; rfl

/-- `DECF` asks for no tap. -/
theorem decfRun_ne_waiting {s : State} {ev : List ProgressEvent} : decfRun s ≠ .waiting ev := by
  unfold decfRun
  split
  · simp
  · dsimp only
    split_ifs <;> simp
    split
    · simp
    · split <;> simp

/-- `DECF` is refused only for a bit nothing has written. -/
theorem decfRun_refused {s : State} {r : Refusal} (h : decfRun s = .refused r) : r = .unwritten .bits := by
  unfold decfRun at h
  split at h
  · cases h; rfl
  · dsimp only at h
    split_ifs at h
    split at h
    · cases h; rfl
    · split at h <;> cases h

/-- What `DECF` finds, a function of the bits alone. -/
def decfOut (s : State) : Option (Header × Code × Option Byte × Option (List Byte)) :=
  match readHeader s with
  | none => none
  | some h =>
    if h.ckCalc ≠ h.cksum then some (h, .headerChecksumMismatch, none, none)
    else if h.payLen.toNat = 0 ∨ levelCapacity h.ecc < h.payLen.toNat + h.redLen.toNat then some (h, .payloadLengthInvalid, none, none)
    else
      match bytesAt s codewordAt (h.payLen.toNat + h.redLen.toNat) with
      | none => none
      | some cw =>
        match valred cw h.redLen.toNat with
        | (none, x) => some (h, .redundancyValidationFailed, some x, none)
        | (some data, x) => some (h, .ok, some x, some data)

/-- The state `DECF` leaves for what it found. -/
def decfPut (s : State) (h : Header) (x : Option Byte) (d : Option (List Byte)) : State :=
  { s with
    hdr := h
    xorsum := x.getD s.xorsum
    outLen := match d with | none => 0 | some d => BitVec.ofNat 8 d.length
    mem := match d with | none => s.mem | some d => Memory.writeRun s.mem outBase d }

/-- `DECF` puts what it finds into the state. -/
theorem decfRun_eq (s : State) : decfRun s = match decfOut s with
    | none => .refused (.unwritten .bits)
    | some (h, c, x, d) => .ended c (decfPut s h x d) := by
  unfold decfRun decfOut
  cases hh : readHeader s with
  | none => rfl
  | some h =>
    simp only
    have hcap : levelCapacity h.ecc ≤ codewordBytes := by unfold levelCapacity; split <;> simp
    by_cases h1 : h.ckCalc ≠ h.cksum
    · rw [if_pos h1, if_pos h1]; rfl
    · rw [if_neg h1, if_neg h1]
      by_cases h2 : h.payLen.toNat = 0
      · rw [if_pos h2, if_pos (.inl h2)]; rfl
      · by_cases h3 : levelCapacity h.ecc < h.payLen.toNat + h.redLen.toNat
        · rw [if_neg h2, if_pos h3, if_pos (.inr h3)]; rfl
        · have h4 : ¬ capTotal < codewordAt + 8 * (h.payLen.toNat + h.redLen.toNat) := by
            simp [capTotal, codewordAt, startLen, headerBits, codewordBytes] at *; omega
          rw [if_neg h2, if_neg h3, if_neg h4, if_neg (by tauto)]
          cases hb : bytesAt s codewordAt (h.payLen.toNat + h.redLen.toNat) with
          | none => rfl
          | some cw =>
            have hlen := (bytesAt_eq_some.mp hb).1
            have hv := valred_append (cw.take h.payLen.toNat) (cw.drop h.payLen.toNat) (by
              rw [List.length_take, hlen]; omega)
            have hd1 : (cw.drop h.payLen.toNat).length = h.redLen.toNat := by rw [List.length_drop, hlen]; omega
            have hl : (cw.take h.payLen.toNat).length = h.payLen.toNat := by rw [List.length_take, hlen]; omega
            rw [List.take_append_drop, hd1] at hv
            simp only [hv]
            by_cases h5 : 4 * (cw.take h.payLen.toNat).length < 5 * suspectCount (cw.take h.payLen.toNat)
            · rw [if_pos h5]; rfl
            · rw [if_neg h5]
              simp only [decfPut, writeOut, List.take_take, Nat.min_self, hl]; rfl

/-- `DECF` depends on the bits alone. -/
theorem decfOut_congr {a b : State} (h : ∀ p < 1344, Memory.read a.bits p = Memory.read b.bits p) : decfOut a = decfOut b := by
  have e : readHeader a = readHeader b := by
    unfold readHeader; rw [bytesAt_congr (b := b) fun k hk => h _ (by simp only [startLen]; omega)]
  unfold decfOut
  rw [e]
  cases hh : readHeader b with
  | none => rfl
  | some h' =>
    simp only
    have hcap : levelCapacity h'.ecc ≤ codewordBytes := by unfold levelCapacity; split <;> simp
    split_ifs with h1 h2
    · rfl
    · rfl
    · rw [bytesAt_congr (b := b) fun k hk => h _ (by simp only [codewordAt, startLen, headerBits, codewordBytes] at *; omega)]

/-- There is an exclusive or exactly where the validation step was reached (R147, R148). -/
theorem decfOut_xor {s : State} {hd : Header} {c : Code} {x : Option Byte} {d : Option (List Byte)}
    (h : decfOut s = some (hd, c, x, d)) : x.isSome = true ↔ c = .ok ∨ c = .redundancyValidationFailed := by
  unfold decfOut at h
  split at h
  · cases h
  · split_ifs at h
    · cases h; simp
    · cases h; simp
    · split at h
      · cases h
      · split at h <;> cases h <;> simp

/-! ### Evaluations and the loops of a sweep -/

/-- Everything the evaluation of a hypothesis can end in. -/
theorem evaluate_cases {h : Hypothesis} {s t : State} {c : Code} (he : evaluate h s = .ended c t) :
    ∃ s1 s2, sampRings h.var h.shift (List.range numRings) s = some s1 ∧
      thrRings h.mode h.inv h.bias (List.range numRings) s1 = some s2 ∧ decfRun s2 = .ended c t := by
  unfold evaluate at he
  split at he
  · cases he
  · rename_i s1 h1
    split at he
    · cases he
    · rename_i s2 h2
      exact ⟨s1, s2, h1, h2, he⟩

/-- An evaluation waits exactly where the samples do. -/
theorem evaluate_waiting {h : Hypothesis} {s : State} {ev : List ProgressEvent} (he : evaluate h s = .waiting ev) :
    ev = s.events ∧ sampRings h.var h.shift (List.range numRings) s = none := by
  unfold evaluate at he
  split at he
  · rename_i h1; cases he; exact ⟨rfl, h1⟩
  · split at he
    · cases he
    · exact absurd he decfRun_ne_waiting

/-- The fields a sweep can write. -/
theorem evaluate_frame {h : Hypothesis} {s t : State} {c : Code} (he : evaluate h s = .ended c t) :
    t = { s with mem := t.mem, bits := t.bits, ints := t.ints, hdr := t.hdr, xorsum := t.xorsum, outLen := t.outLen } ∧
    (s.params.Valid → StoreOk s.bits → StoreOk s.ints → StoreOk t.bits ∧ StoreOk t.ints) ∧
    ((c = .ok ∧ ∃ data : List Byte, 0 < data.length ∧ data.length ≤ codewordBytes ∧
      t.mem = Memory.writeRun s.mem outBase data ∧ t.outLen = BitVec.ofNat 8 data.length) ∨
     ((c = .headerChecksumMismatch ∨ c = .payloadLengthInvalid ∨ c = .redundancyValidationFailed) ∧
      t.mem = s.mem ∧ t.outLen = 0)) := by
  obtain ⟨s1, s2, h1, h2, h3⟩ := evaluate_cases he
  obtain ⟨f1, g1⟩ := sampRings_frame h1
  obtain ⟨f2, g2⟩ := thrRings_frame h2
  have hall : ∀ r ∈ List.range numRings, r < 6 := fun r hr => List.mem_range.mp hr
  have hp : s1.params = s.params := by rw [f1]
  have key : t.bits = s2.bits ∧ t.ints = s2.ints := by
    rcases decfRun_cases h3 with ⟨-, d, -, -, ht⟩ | ⟨-, ht⟩ <;> rw [ht] <;> exact ⟨rfl, rfl⟩
  refine ⟨?_, fun hv hb hi => ?_, ?_⟩
  · rcases decfRun_cases h3 with ⟨-, d, -, -, ht⟩ | ⟨-, ht⟩ <;> rw [ht, f2, f1] <;> rfl
  · rw [key.1, key.2]
    have hi1 := g1 hv hall hi
    refine ⟨g2 (hp ▸ hv) hall (by rw [f1]; exact hb), by rw [f2]; exact hi1⟩
  · rcases decfRun_cases h3 with ⟨hc, d, h4, h5, ht⟩ | ⟨hc, ht⟩
    · exact .inl ⟨hc, d, h4, h5, by rw [ht, f2, f1]; rfl, by rw [ht]⟩
    · exact .inr ⟨hc, by rw [ht, f2, f1], by rw [ht]⟩

/-- Everything a run over a list of hypotheses can end in. -/
theorem tryHypotheses_cases {hs : List Hypothesis} {s t : State} {c : Code} (he : tryHypotheses hs s = .ended c t) :
    t = { s with mem := t.mem, bits := t.bits, ints := t.ints, hdr := t.hdr, xorsum := t.xorsum, outLen := t.outLen,
                 hyp := t.hyp, hypCnt := t.hypCnt } ∧
    (s.params.Valid → StoreOk s.bits → StoreOk s.ints → StoreOk t.bits ∧ StoreOk t.ints) ∧
    (t.hyp = s.hyp ∨ ∃ h ∈ hs, t.hyp = hypRegOf h) ∧
    ((c = .ok ∧ ∃ data : List Byte, 0 < data.length ∧ data.length ≤ codewordBytes ∧
      t.mem = Memory.writeRun s.mem outBase data ∧ t.outLen = BitVec.ofNat 8 data.length) ∨
     (c = .searchExhausted ∧ t.mem = s.mem ∧ (s.outLen = 0 → t.outLen = 0))) := by
  induction hs generalizing s with
  | nil => cases he; exact ⟨rfl, fun _ h1 h2 => ⟨h1, h2⟩, .inl rfl, .inr ⟨rfl, rfl, id⟩⟩
  | cons h hs ih =>
    unfold tryHypotheses at he
    split at he
    · rename_i c1 u hu
      obtain ⟨f, g, o⟩ := evaluate_frame hu
      split_ifs at he with hc
      · cases he
        refine ⟨by rw [f]; rfl, g, .inr ⟨h, by simp, rfl⟩, .inl ⟨rfl, ?_⟩⟩
        rcases o with ⟨-, d, h1, h2, h3, h4⟩ | ⟨h1, -⟩
        · exact ⟨d, h1, h2, h3, h4⟩
        · simp [hc] at h1
      · obtain ⟨f2, g2, y2, o2⟩ := ih he
        have hm : u.mem = s.mem ∧ u.outLen = 0 := by
          rcases o with ⟨h1, -⟩ | ⟨-, h1, h2⟩
          · exact absurd h1 hc
          · exact ⟨h1, h2⟩
        refine ⟨?_, fun hv hb hi => ?_, ?_, ?_⟩
        · rw [f2]; unfold recordHypothesis; rw [f]
        · obtain ⟨b1, b2⟩ := g hv hb hi
          exact g2 (by show u.params.Valid; rw [f]; exact hv) b1 b2
        · rcases y2 with y2 | ⟨h', hm', y2⟩
          · exact .inr ⟨h, by simp, y2⟩
          · exact .inr ⟨h', by simp [hm'], y2⟩
        · rcases o2 with ⟨h1, d, h2, h3, h4, h5⟩ | ⟨h1, h2, h3⟩
          · exact .inl ⟨h1, d, h2, h3, by rw [h4]; show Memory.writeRun u.mem _ _ = _; rw [hm.1], h5⟩
          · exact .inr ⟨h1, by rw [h2]; exact hm.1, fun _ => h3 hm.2⟩
    · cases he
    · cases he

/-- Everything a run over a list of variants can end in. -/
theorem tryVariants_cases {nv : BitVec 3} {vs : List Nat} {s t : State} {c : Code} (he : tryVariants nv vs s = .ended c t) :
    t = { s with mem := t.mem, bits := t.bits, ints := t.ints, hdr := t.hdr, xorsum := t.xorsum, outLen := t.outLen,
                 hyp := t.hyp, hypCnt := t.hypCnt, progress := t.progress, events := t.events } ∧
    (s.params.Valid → StoreOk s.bits → StoreOk s.ints → StoreOk t.bits ∧ StoreOk t.ints) ∧
    (t.hyp = s.hyp ∨ ∃ v ∈ vs, ∃ h ∈ hypothesesOf s.params.ring0 v, t.hyp = hypRegOf h) ∧
    (t.progress = s.progress ∨ ∃ v ∈ vs, ∃ n ≤ vs.length,
      t.progress = { s.progress with var := BitVec.ofNat 3 v, count := s.progress.count + BitVec.ofNat 8 n }) ∧
    ((c = .ok ∧ ∃ data : List Byte, 0 < data.length ∧ data.length ≤ codewordBytes ∧
      t.mem = Memory.writeRun s.mem outBase data ∧ t.outLen = BitVec.ofNat 8 data.length) ∨
     (c = .searchExhausted ∧ t.mem = s.mem ∧ (s.outLen = 0 → t.outLen = 0))) := by
  induction vs generalizing s with
  | nil => cases he; exact ⟨rfl, fun _ h1 h2 => ⟨h1, h2⟩, .inl rfl, .inl rfl, .inr ⟨rfl, rfl, id⟩⟩
  | cons v vs ih =>
    unfold tryVariants at he
    split at he
    · rename_i c1 u hu
      obtain ⟨f, g, y, o⟩ := tryHypotheses_cases hu
      have hpr : u.progress = { s.progress with var := BitVec.ofNat 3 v, count := s.progress.count + 1 } := by
        rw [f]; rfl
      split_ifs at he with hc
      · cases he
        refine ⟨by rw [f]; rfl, g, ?_, .inr ⟨v, by simp, 1, by simp, hpr⟩, .inl ⟨rfl, ?_⟩⟩
        · rcases y with y | ⟨h, hm, y⟩
          · exact .inl y
          · exact .inr ⟨v, by simp, h, hm, y⟩
        · rcases o with ⟨-, d, h1, h2, h3, h4⟩ | ⟨h1, -⟩
          · exact ⟨d, h1, h2, h3, h4⟩
          · simp [hc] at h1
      · obtain ⟨f2, g2, y2, p2, o2⟩ := ih he
        have hp : u.params = s.params := by rw [f]; rfl
        have hm : u.mem = s.mem ∧ (s.outLen = 0 → u.outLen = 0) := by
          rcases o with ⟨h1, -⟩ | ⟨-, h1, h2⟩
          · exact absurd h1 hc
          · exact ⟨h1, h2⟩
        refine ⟨?_, fun hv hb hi => ?_, ?_, ?_, ?_⟩
        · rw [f2, f]; rfl
        · obtain ⟨b1, b2⟩ := g hv hb hi
          exact g2 (hp ▸ hv) b1 b2
        · rcases y2 with y2 | ⟨v', hv', h', hm', y2⟩
          · rcases y with y | ⟨h, hm, y⟩
            · exact .inl (y2.trans y)
            · exact .inr ⟨v, by simp, h, hm, y2.trans y⟩
          · exact .inr ⟨v', by simp [hv'], h', hp ▸ hm', y2⟩
        · rcases p2 with p2 | ⟨v', hv', n, hn, p2⟩
          · exact .inr ⟨v, by simp, 1, by simp, p2.trans hpr⟩
          · refine .inr ⟨v', by simp [hv'], n + 1, by simpa using hn, ?_⟩
            rw [p2, hpr]
            simp only [ProgressReg.mk.injEq, true_and]
            rw [BitVec.ofNat_add, BitVec.add_assoc, BitVec.add_comm 1]; rfl
        · rcases o2 with ⟨h1, d, h2, h3, h4, h5⟩ | ⟨h1, h2, h3⟩
          · exact .inl ⟨h1, d, h2, h3, by rw [h4, hm.1], h5⟩
          · exact .inr ⟨h1, by rw [h2]; exact hm.1, fun h0 => h3 (hm.2 h0)⟩
    · cases he
    · cases he

/-! ### The commands -/

/-- Everything `ENCF` can answer (R131, R132). -/
theorem execEncf_cases {ecc : BitVec 2} {s t : State} (h : exec (.encf ecc) s = .next t) :
    (maxPayload ecc.toNat < s.txtLen.toNat ∧ t = complete .payloadTooLarge s) ∨
    (s.txtLen.toNat ≤ maxPayload ecc.toNat ∧ ∃ txt, readTxt s = some txt ∧
      t = complete .ok (writeBits s 0 (frameBits s.params ecc.toNat txt))) := by
  rw [exec_encf, execEncf] at h
  split_ifs at h with h1
  · cases h; exact .inl ⟨h1, rfl⟩
  · split at h
    · cases h
    · rename_i txt ht; cases h; exact .inr ⟨by omega, txt, ht, rfl⟩

/-- Everything `DECF` can answer (R140). -/
theorem execDecf_cases {s t : State} (h : exec .decf s = .next t) :
    ∃ c u, decfRun s = .ended c u ∧ t = complete c u := by
  rw [exec_decf, execDecf] at h
  cases hd : decfRun s with
  | ended c u => rw [hd] at h; cases h; exact ⟨c, u, rfl, rfl⟩
  | waiting ev => exact absurd hd decfRun_ne_waiting
  | refused r => rw [hd] at h; cases h

/-- Everything `APRED` can answer (R162). -/
theorem execApred_cases {n : BitVec 8} {s t : State} (h : exec (.apred n) s = .next t) :
    ((64 < n.toNat ∨ 149 < s.txtLen.toNat) ∧ t = complete .illegalCommand s) ∨
    (n.toNat ≤ 64 ∧ s.txtLen.toNat ≤ 149 ∧ ∃ p, readTxt s = some p ∧
      t = complete .ok { writeRed s (apred p n.toNat) with redLen := n }) := by
  rw [exec_apred, execApred] at h
  split_ifs at h with h1
  · cases h; exact .inl ⟨h1, rfl⟩
  · split at h
    · cases h
    · rename_i p hp; cases h; simp only [redSize, txtSize] at h1; exact .inr ⟨by omega, by omega, p, hp, rfl⟩

/-- Everything `VALRED` can answer (R166). -/
theorem execValred_cases {n : BitVec 8} {s t : State} (h : exec (.valred n) s = .next t) :
    (157 < s.cwLen.toNat ∧ t = complete .illegalCommand s) ∨
    (s.cwLen.toNat ≤ 157 ∧ ∃ cw, readCw s = some cw ∧
      ((∃ x, valred cw n.toNat = (none, x) ∧ t = complete .redundancyValidationFailed { s with xorsum := x, outLen := 0 }) ∨
       (∃ x, n.toNat < cw.length ∧ valred cw n.toNat = (some (cw.take (cw.length - n.toNat)), x) ∧
        t = complete .ok { writeOut s (cw.take (cw.length - n.toNat)) with xorsum := x, outLen := s.cwLen - n }))) := by
  rw [exec_valred, execValred] at h
  split_ifs at h with h1
  · cases h; exact .inl ⟨h1, rfl⟩
  · split at h
    · cases h
    · rename_i cw hcw
      refine .inr ⟨by simp only [codewordBytes] at h1; omega, cw, hcw, ?_⟩
      rcases hv : valred cw n.toNat with ⟨_ | d, x⟩
      · rw [hv] at h; cases h; exact .inl ⟨x, rfl, rfl⟩
      · rw [hv] at h; cases h
        by_cases h2 : cw.length ≤ n.toNat
        · rw [valred_of_le h2] at hv; cases hv
        · have h3 := valred_append (cw.take (cw.length - n.toNat)) (cw.drop (cw.length - n.toNat)) (by simp; omega)
          rw [List.take_append_drop, show (cw.drop (cw.length - n.toNat)).length = n.toNat by simp; omega, hv] at h3
          split_ifs at h3 <;> simp only [Prod.mk.injEq, Option.some.injEq, reduceCtorEq, false_and] at h3
          obtain ⟨rfl, -⟩ := h3
          exact .inr ⟨x, by omega, rfl, rfl⟩

/-- Everything `MAPB` can answer (R112). -/
theorem execMapb_cases {idx : BitVec 11} {s t : State} (h : exec (.mapb idx) s = .next t) :
    (1343 < idx.toNat ∧ t = complete .illegalCommand s) ∨
    (idx.toNat ≤ 1343 ∧ t = complete .ok { s with mapRs :=
      { ring := BitVec.ofNat 3 (ringOf s.params idx.toNat)
        sector := BitVec.ofNat 11 (idx.toNat - off s.params (ringOf s.params idx.toNat)) } }) := by
  rw [exec_mapb, execMapb] at h
  split_ifs at h with h1
  · cases h; exact .inl ⟨h1, rfl⟩
  · cases h; exact .inr ⟨by omega, rfl⟩

/-- Everything `MAPS` can answer (R113). -/
theorem execMaps_cases {ring : BitVec 3} {sector : BitVec 11} {s t : State} (h : exec (.maps ring sector) s = .next t) :
    ((5 < ring.toNat ∨ s.params.sectors ring.toNat ≤ sector.toNat) ∧ t = complete .illegalCommand s) ∨
    (ring.toNat ≤ 5 ∧ sector.toNat < s.params.sectors ring.toNat ∧
      t = complete .ok { s with mapIdx := BitVec.ofNat 11 (off s.params ring.toNat + sector.toNat) }) := by
  rw [exec_maps, execMaps] at h
  split_ifs at h with h1
  · cases h; exact .inl ⟨h1, rfl⟩
  · cases h; exact .inr ⟨by omega, by omega, rfl⟩

/-- Everything `SAMP` can answer (R185, R268). -/
theorem execSamp_cases {ring var : BitVec 3} {shift : BitVec 11} {s t : State} (h : exec (.samp ring var shift) s = .next t) :
    ((5 < ring.toNat ∨ 4 < var.toNat ∨ s.params.sectors 0 ≤ shift.toNat) ∧ t = complete .illegalCommand s) ∨
    (ring.toNat ≤ 5 ∧ var.toNat ≤ 4 ∧ shift.toNat < s.params.sectors 0 ∧
      ((sampRun ring.toNat var.toNat shift.toNat s = none ∧ t = s) ∨
       ∃ u, sampRun ring.toNat var.toNat shift.toNat s = some u ∧ t = complete .ok u)) := by
  rw [exec_samp, execSamp] at h
  split_ifs at h with h1
  · cases h; exact .inl ⟨h1, rfl⟩
  · refine .inr ⟨by omega, by omega, by omega, ?_⟩
    cases hs : sampRun ring.toNat var.toNat shift.toNat s with
    | none => rw [hs] at h; cases h; exact .inl ⟨rfl, rfl⟩
    | some u => rw [hs] at h; cases h; exact .inr ⟨u, rfl, rfl⟩

/-- Everything `THR` can answer (R193). -/
theorem execThr_cases {ring i : BitVec 3} {mode : Mode} {inv : Bool} {s t : State} (h : exec (.thr ring mode inv i) s = .next t) :
    ((5 < ring.toNat ∨ 4 < i.toNat) ∧ t = complete .illegalCommand s) ∨
    (ring.toNat ≤ 5 ∧ i.toNat ≤ 4 ∧ ∃ u, thrRun ring.toNat mode inv i.toNat s = some u ∧ t = complete .ok u) := by
  rw [exec_thr, execThr] at h
  split_ifs at h with h1
  · cases h; exact .inl ⟨h1, rfl⟩
  · split at h
    · cases h
    · rename_i u hu; cases h; exact .inr ⟨by omega, by omega, u, hu, rfl⟩

/-- Everything `SWEEP` can answer (R214, R268). -/
theorem execSweep_cases {nv : BitVec 3} {s t : State} (h : exec (.sweep nv) s = .next t) :
    (5 < nv.toNat ∧ t = complete .illegalCommand s) ∨
    (nv.toNat ≤ 5 ∧ ((∃ ev, sweepRun nv s = .waiting ev ∧ t = { s with events := ev }) ∨
      ∃ c u, sweepRun nv s = .ended c u ∧ t = complete c u)) := by
  rw [exec_sweep, execSweep] at h
  split_ifs at h with h1
  · cases h; exact .inl ⟨h1, rfl⟩
  · refine .inr ⟨by omega, ?_⟩
    cases hs : sweepRun nv s with
    | ended c u => rw [hs] at h; cases h; exact .inr ⟨c, u, rfl, rfl⟩
    | waiting ev => rw [hs] at h; cases h; exact .inl ⟨ev, rfl, rfl⟩
    | refused r => rw [hs] at h; cases h

/-! ### All commands -/

/-- Every command's writes to the byte buffers. -/
theorem exec_mem {i : Instr} {s t : State} (h : exec i s = .next t) :
    (t.mem = s.mem ∧ (t.outLen = s.outLen ∨ t.outLen = 0) ∧ t.redLen = s.redLen) ∨
    ((i = .decf ∨ (∃ n, i = .valred n) ∨ ∃ nv, i = .sweep nv) ∧ ∃ data : List Byte, data.length ≤ codewordBytes ∧
      t.outLen.toNat = data.length ∧ t.redLen = s.redLen ∧ t.mem = Memory.writeRun s.mem outBase data) ∨
    (∃ n p, i = .apred n ∧ n.toNat ≤ 64 ∧ t.redLen = n ∧ t.outLen = s.outLen ∧ t.mem = Memory.writeRun s.mem redBase (apred p n.toNat)) := by
  cases i with
  | encf e => rcases execEncf_cases h with ⟨-, rfl⟩ | ⟨-, _, -, rfl⟩ <;> exact .inl ⟨rfl, .inl rfl, rfl⟩
  | decf =>
    obtain ⟨c, u, hd, rfl⟩ := execDecf_cases h
    rcases decfRun_cases hd with ⟨-, d, h1, h2, ht⟩ | ⟨-, ht⟩
    · refine .inr (.inl ⟨.inl rfl, d, h2, ?_, by rw [ht]; rfl, by rw [ht]; rfl⟩)
      rw [ht]; simp only [codewordBytes] at h2; simp [complete]; omega
    · exact .inl ⟨by rw [ht]; rfl, .inr (by rw [ht]; rfl), by rw [ht]; rfl⟩
  | apred n =>
    rcases execApred_cases h with ⟨-, rfl⟩ | ⟨h1, -, p, -, rfl⟩
    · exact .inl ⟨rfl, .inl rfl, rfl⟩
    · exact .inr (.inr ⟨n, p, rfl, h1, rfl, rfl, rfl⟩)
  | valred n =>
    rcases execValred_cases h with ⟨-, rfl⟩ | ⟨h0, cw, hcw, ⟨_, -, rfl⟩ | ⟨_, h1, -, rfl⟩⟩
    · exact .inl ⟨rfl, .inl rfl, rfl⟩
    · exact .inl ⟨rfl, .inr rfl, rfl⟩
    · have hl := (Memory.readRun_eq_some.mp hcw).1
      refine .inr (.inl ⟨.inr (.inl ⟨n, rfl⟩), cw.take (cw.length - n.toNat), ?_, ?_, rfl, rfl⟩)
      · simp [codewordBytes]; omega
      · simp [complete]; omega
  | mapb idx => rcases execMapb_cases h with ⟨-, rfl⟩ | ⟨-, rfl⟩ <;> exact .inl ⟨rfl, .inl rfl, rfl⟩
  | maps r x => rcases execMaps_cases h with ⟨-, rfl⟩ | ⟨-, -, rfl⟩ <;> exact .inl ⟨rfl, .inl rfl, rfl⟩
  | samp r v a =>
    rcases execSamp_cases h with ⟨-, rfl⟩ | ⟨-, -, -, ⟨-, rfl⟩ | ⟨u, hu, rfl⟩⟩
    · exact .inl ⟨rfl, .inl rfl, rfl⟩
    · exact .inl ⟨rfl, .inl rfl, rfl⟩
    · rw [(sampRun_frame hu).1]; exact .inl ⟨rfl, .inl rfl, rfl⟩
  | thr r m v b =>
    rcases execThr_cases h with ⟨-, rfl⟩ | ⟨-, -, u, hu, rfl⟩
    · exact .inl ⟨rfl, .inl rfl, rfl⟩
    · rw [(thrRun_frame hu).1]; exact .inl ⟨rfl, .inl rfl, rfl⟩
  | sweep nv =>
    rcases execSweep_cases h with ⟨-, rfl⟩ | ⟨-, ⟨ev, -, rfl⟩ | ⟨c, u, hu, rfl⟩⟩
    · exact .inl ⟨rfl, .inl rfl, rfl⟩
    · exact .inl ⟨rfl, .inl rfl, rfl⟩
    · obtain ⟨f, -, -, -, o⟩ := tryVariants_cases hu
      have hr : u.redLen = s.redLen := by rw [f]; rfl
      rcases o with ⟨-, d, h1, h2, h3, h4⟩ | ⟨-, h1, h2⟩
      · refine .inr (.inl ⟨.inr (.inr ⟨nv, rfl⟩), d, h2, ?_, hr, h3⟩)
        show u.outLen.toNat = _
        simp only [codewordBytes] at h2
        rw [h4]; simp; omega
      · exact .inl ⟨h1, .inr (h2 rfl), hr⟩

/-- The fields no command writes, beside those each kind of command leaves. -/
theorem exec_frame {i : Instr} {s t : State} (h : exec i s = .next t) :
    t = { s with mem := t.mem, bits := t.bits, ints := t.ints, outLen := t.outLen, redLen := t.redLen, cmd := t.cmd,
                 done := t.done, code := t.code, hdr := t.hdr, xorsum := t.xorsum, hyp := t.hyp, hypCnt := t.hypCnt,
                 progress := t.progress, mapRs := t.mapRs, mapIdx := t.mapIdx, events := t.events } := by
  cases i with
  | encf e => rcases execEncf_cases h with ⟨-, rfl⟩ | ⟨-, _, -, rfl⟩ <;> rfl
  | decf =>
    obtain ⟨c, u, hd, rfl⟩ := execDecf_cases h
    rcases decfRun_cases hd with ⟨-, d, h1, h2, ht⟩ | ⟨-, ht⟩ <;> rw [ht] <;> rfl
  | apred n => rcases execApred_cases h with ⟨-, rfl⟩ | ⟨h1, -, p, -, rfl⟩ <;> rfl
  | valred n => rcases execValred_cases h with ⟨-, rfl⟩ | ⟨h0, cw, hcw, ⟨_, -, rfl⟩ | ⟨_, h1, -, rfl⟩⟩ <;> rfl
  | mapb idx => rcases execMapb_cases h with ⟨-, rfl⟩ | ⟨-, rfl⟩ <;> rfl
  | maps r x => rcases execMaps_cases h with ⟨-, rfl⟩ | ⟨-, -, rfl⟩ <;> rfl
  | samp r v a =>
    rcases execSamp_cases h with ⟨-, rfl⟩ | ⟨-, -, -, ⟨-, rfl⟩ | ⟨u, hu, rfl⟩⟩
    · rfl
    · rfl
    · rw [(sampRun_frame hu).1]; rfl
  | thr r m v b =>
    rcases execThr_cases h with ⟨-, rfl⟩ | ⟨-, -, u, hu, rfl⟩
    · rfl
    · rw [(thrRun_frame hu).1]; rfl
  | sweep nv =>
    rcases execSweep_cases h with ⟨-, rfl⟩ | ⟨-, ⟨ev, -, rfl⟩ | ⟨c, u, hu, rfl⟩⟩
    · rfl
    · rfl
    · rw [(tryVariants_cases hu).1]; rfl

end Sys2Proof.Machine
end

