-- ==== Sys2Proof/Laws/Sweep.lean ====
section
/-! SUPPORT. A hypothesis comes to the same from every state with the same parameters and taps, and the order of the hypotheses. -/

namespace Sys2Proof.Machine

/-! ### Enumeration -/

/-- Two nested loops as one, by quotient and remainder. -/
theorem flatMap_range {α : Type} (a b : Nat) (hb : 0 < b) (f : Nat → Nat → α) :
    (List.range a).flatMap (fun i => (List.range b).map (f i)) = (List.range (a * b)).map fun k => f (k / b) (k % b) := by
  induction a with
  | zero => simp
  | succ a ih =>
    rw [List.range_succ, List.flatMap_append, ih, Nat.add_mul, Nat.one_mul, List.range_add, List.map_append, List.map_map]
    congr 1
    simp only [List.flatMap_cons, List.flatMap_nil, List.append_nil]
    refine List.map_congr_left fun k hk => ?_
    have := List.mem_range.mp hk
    simp only [Function.comp]
    rw [Nat.mul_comm a b, Nat.mul_add_div hb, Nat.div_eq_of_lt this, Nat.mul_add_mod, Nat.mod_eq_of_lt this, Nat.add_zero]

/-- The hypothesis of rank `m` inside variant `v`, with `c` anchor shifts (R212). -/
def hypOf (c v m : Nat) : Hypothesis where
  var := v
  inv := decide (m / (10 * c) % 2 = 1)
  bias := m / (2 * c) % 5
  mode := if m / c % 2 = 1 then .histogram else .percentile
  shift := 4 * (m % c)

/-- The hypotheses of a variant by rank (R212). -/
theorem hypothesesOf_eq {n0 : Nat} (h0 : 0 < n0) (v : Nat) :
    hypothesesOf n0 v = (List.range (20 * ((n0 + 3) / 4))).map (hypOf ((n0 + 3) / 4) v) := by
  have hc : 0 < (n0 + 3) / 4 := by omega
  unfold hypothesesOf shifts shiftCount shiftStep
  set c := (n0 + 3) / 4 with hcd
  have e1 : ∀ (inv : Bool) (b : Nat), [Mode.percentile, Mode.histogram].flatMap (fun mode => ((List.range c).map (4 * ·)).map fun shift => ({ var := v, inv := inv, bias := b, mode := mode, shift := shift } : Hypothesis))
      = (List.range (2 * c)).map fun m => { var := v, inv := inv, bias := b, mode := if m / c = 1 then .histogram else .percentile, shift := 4 * (m % c) } := by
    intro inv b
    rw [← flatMap_range 2 c hc (fun i k => ({ var := v, inv := inv, bias := b, mode := if i = 1 then .histogram else .percentile, shift := 4 * k } : Hypothesis))]
    simp [List.range_succ, Function.comp_def]
  simp only [e1]
  have e2 : ∀ (inv : Bool), (List.range 5).flatMap (fun b => (List.range (2 * c)).map fun m => ({ var := v, inv := inv, bias := b, mode := if m / c = 1 then .histogram else .percentile, shift := 4 * (m % c) } : Hypothesis))
      = (List.range (5 * (2 * c))).map fun m => { var := v, inv := inv, bias := m / (2 * c), mode := if m % (2 * c) / c = 1 then .histogram else .percentile, shift := 4 * (m % (2 * c) % c) } := by
    intro inv
    rw [← flatMap_range 5 (2 * c) (by omega) (fun b m => ({ var := v, inv := inv, bias := b, mode := if m / c = 1 then .histogram else .percentile, shift := 4 * (m % c) } : Hypothesis))]
  simp only [e2]
  have e3 : [false, true].flatMap (fun inv => (List.range (5 * (2 * c))).map fun m => ({ var := v, inv := inv, bias := m / (2 * c), mode := if m % (2 * c) / c = 1 then .histogram else .percentile, shift := 4 * (m % (2 * c) % c) } : Hypothesis))
      = (List.range (2 * (5 * (2 * c)))).map fun m => { var := v, inv := decide (m / (5 * (2 * c)) = 1), bias := m % (5 * (2 * c)) / (2 * c), mode := if m % (5 * (2 * c)) % (2 * c) / c = 1 then .histogram else .percentile, shift := 4 * (m % (5 * (2 * c)) % (2 * c) % c) } := by
    rw [← flatMap_range 2 (5 * (2 * c)) (by omega) (fun i m => ({ var := v, inv := decide (i = 1), bias := m / (2 * c), mode := if m % (2 * c) / c = 1 then .histogram else .percentile, shift := 4 * (m % (2 * c) % c) } : Hypothesis))]
    simp [List.range_succ]
  rw [e3, show 2 * (5 * (2 * c)) = 20 * c by ring]
  refine List.map_congr_left fun m hm => ?_
  have hm := List.mem_range.mp hm
  have d1 : 5 * (2 * c) = 10 * c := by ring
  have q1 : m / (10 * c) < 2 := Nat.div_lt_of_lt_mul (by omega)
  have q2 : m % (10 * c) / (2 * c) = m / (2 * c) % 5 := by
    rw [← d1, Nat.mul_comm 5, Nat.mod_mul_right_div_self]
  have q3 : m % (10 * c) % (2 * c) / c = m / c % 2 := by
    rw [← d1, Nat.mul_comm 5, Nat.mod_mul_right_mod, Nat.mul_comm 2 c, Nat.mod_mul_right_div_self]
  have q4 : m % (10 * c) % (2 * c) % c = m % c := by
    rw [Nat.mod_mod_of_dvd _ ⟨2, by ring⟩, Nat.mod_mod_of_dvd _ ⟨10, by ring⟩]
  simp only [d1, q2, q3, q4, hypOf, Nat.mod_eq_of_lt q1]

theorem shifts_mem {n0 a : Nat} (h : a ∈ shifts n0) : a < n0 := by
  simp only [shifts, shiftCount, shiftStep, List.mem_map, List.mem_range] at h
  obtain ⟨k, hk, rfl⟩ := h; omega

theorem hypothesesOf_mem {n0 v : Nat} {h : Hypothesis} (hm : h ∈ hypothesesOf n0 v) :
    h.var = v ∧ h.bias < 5 ∧ h.shift ∈ shifts n0 := by
  simp only [hypothesesOf, List.mem_flatMap, List.mem_map, List.mem_range] at hm
  obtain ⟨_, -, b, hb, _, -, a, ha, rfl⟩ := hm
  exact ⟨rfl, hb, ha⟩

/-! ### Evaluation -/

/-- The work of a hypothesis before `DECF`, from any state with the same parameters and taps. -/
theorem evaluate_of {s u : State} {h : Hypothesis} (hv : s.params.Valid) (hp : u.params = s.params) (ht : u.taps = s.taps)
    (ha : ∀ r < 6, RingAnswered s h.var r h.shift) :
    ∃ u2, evaluate h u = decfRun u2 ∧ u2 = { u with bits := u2.bits, ints := u2.ints } ∧
      sampRings h.var h.shift (List.range numRings) u = some { u with ints := u2.ints } ∧
      thrRings h.mode h.inv h.bias (List.range numRings) { u with ints := u2.ints } = some u2 ∧
      (∀ p, 1344 ≤ p → Memory.read u2.ints p = Memory.read u.ints p ∧ Memory.read u2.bits p = Memory.read u.bits p) ∧
      ∀ r < 6, ∀ k < s.params.sectors r,
        Memory.read u2.ints (off s.params r + k) = sectorEntry s h.var r h.shift k := by
  have hau : ∀ r ∈ List.range numRings, RingAnswered u h.var r h.shift := by
    intro r hr
    have := ha r (List.mem_range.mp hr)
    unfold RingAnswered at *; rw [hp, ht]; exact this
  obtain ⟨u1, h1⟩ := sampRings_some hau
  have f1 := (sampRings_frame h1).1
  obtain ⟨r1, r2⟩ := sampRings_read List.nodup_range h1
  have hp1 : u1.params = u.params := by rw [f1]
  obtain ⟨u2, h2⟩ := thrRings_some (i := h.bias) (mode := h.mode) (inv := h.inv) (rs := List.range numRings) (s := u1) (by
    intro r hr k hk
    rw [hp1] at hk ⊢
    rw [r1 r hr k hk]
    exact sectorEntry_some (hau r hr) hk)
  have f2 := (thrRings_frame h2).1
  obtain ⟨-, r4⟩ := thrRings_read List.nodup_range h2
  have hi : u2.ints = u1.ints := by rw [f2]
  refine ⟨u2, ?_, ?_, ?_, ?_, ?_, ?_⟩
  · unfold evaluate; rw [h1]; simp only; rw [h2]
  · rw [f2, f1]
  · rw [h1, hi]; congr 1
  · rw [hi, ← f1]; exact h2
  · intro p hp'
    have hout : ∀ r ∈ List.range numRings, p < off u.params r ∨ off u.params r + u.params.sectors r ≤ p := fun r hr => by
      have := off_le_capTotal hv (List.mem_range.mp hr); rw [hp]; simp only [capTotal] at this; omega
    refine ⟨by rw [hi]; exact r2 p hout, ?_⟩
    rw [r4 p (by rw [hp1]; exact hout), f1]
  · intro r hr k hk
    rw [hi, ← hp]
    rw [r1 r (List.mem_range.mpr hr) k (hp ▸ hk)]
    exact sectorEntry_congr hp ht _ _ _ _

/-- Two states with the same parameters and taps give a hypothesis the same entries and bits. -/
theorem evaluate_congr {s u s2 u2 : State} {h : Hypothesis} (hv : s.params.Valid) (hp : u.params = s.params)
    (ts : thrRings h.mode h.inv h.bias (List.range numRings) { s with ints := s2.ints } = some s2)
    (tu : thrRings h.mode h.inv h.bias (List.range numRings) { u with ints := u2.ints } = some u2)
    (es : ∀ r < 6, ∀ k < s.params.sectors r, Memory.read s2.ints (off s.params r + k) = sectorEntry s h.var r h.shift k)
    (eu : ∀ r < 6, ∀ k < s.params.sectors r, Memory.read u2.ints (off s.params r + k) = sectorEntry s h.var r h.shift k) :
    ∀ p < 1344, Memory.read u2.ints p = Memory.read s2.ints p ∧ Memory.read u2.bits p = Memory.read s2.bits p := by
  intro p hp'
  obtain ⟨r, hr, k, hk, rfl⟩ := ring_of_index hv hp'
  have hr6 := List.mem_range.mp hr
  refine ⟨by rw [es r hr6 k hk, eu r hr6 k hk], ?_⟩
  obtain ⟨e1, q1, q2⟩ := (thrRings_read List.nodup_range ts).1 r hr
  obtain ⟨e2, q3, q4⟩ := (thrRings_read List.nodup_range tu).1 r hr
  have : e1 = e2 := by
    have e : Memory.readRun s2.ints (off s.params r) (s.params.sectors r) = Memory.readRun u2.ints (off s.params r) (s.params.sectors r) :=
      Memory.readRun_congr fun i hi => by rw [es r hr6 i hi, eu r hr6 i hi]
    have q1' : Memory.readRun s2.ints (off s.params r) (s.params.sectors r) = some e1 := q1
    have q3' : Memory.readRun u2.ints (off u.params r) (u.params.sectors r) = some e2 := q3
    rw [hp, ← e, q1'] at q3'
    exact Option.some.inj q3'
  subst this
  have a1 : Memory.read s2.bits (off s.params r + k) = (thrBits h.mode h.inv h.bias (e1.map intensity))[k]? := q2 k hk
  have a2 : Memory.read u2.bits (off u.params r + k) = (thrBits h.mode h.inv h.bias (e1.map intensity))[k]? :=
    q4 k (by show k < u.params.sectors r; rw [hp]; exact hk)
  rw [hp] at a2
  rw [a1, a2]

/-- What a hypothesis comes to, from state `s`: the bits and entries it makes, and what `DECF` finds in them. -/
theorem evaluate_any {s : State} {h : Hypothesis} (hv : s.params.Valid) (ha : ∀ r < 6, RingAnswered s h.var r h.shift) :
    ∃ (ints : Nat → Option Word) (bits : Nat → Option Bool) (hd : Header) (c : Code) (x : Option Byte) (d : Option (List Byte)),
      (x.isSome = true ↔ c = .ok ∨ c = .redundancyValidationFailed) ∧
      ∀ u : State, u.params = s.params → u.taps = s.taps → ∃ u2, u2 = { u with bits := u2.bits, ints := u2.ints } ∧
        evaluate h u = .ended c (decfPut u2 hd x d) ∧
        (∀ p < 1344, Memory.read u2.ints p = ints p ∧ Memory.read u2.bits p = bits p) ∧
        (∀ p, 1344 ≤ p → Memory.read u2.ints p = Memory.read u.ints p ∧ Memory.read u2.bits p = Memory.read u.bits p) ∧
        sampRings h.var h.shift (List.range numRings) u = some { u with ints := u2.ints } ∧
        thrRings h.mode h.inv h.bias (List.range numRings) { u with ints := u2.ints } = some u2 ∧
        decfRun u2 = .ended c (decfPut u2 hd x d) := by
  obtain ⟨s2, e1, f1, g1, t1, o1, en1⟩ := evaluate_of (u := s) hv rfl rfl ha
  have hbits : ∀ p < 1344, Memory.read s2.bits p ≠ none := by
    intro p hp
    obtain ⟨r, hr, k, hk, rfl⟩ := ring_of_index hv hp
    obtain ⟨es, q1, q2⟩ := (thrRings_read List.nodup_range t1).1 r hr
    have a1 : Memory.read s2.bits (off s.params r + k) = (thrBits h.mode h.inv h.bias (es.map intensity))[k]? := q2 k hk
    have hl : es.length = s.params.sectors r := (Memory.readRun_eq_some.mp q1).1
    rw [a1, List.getElem?_eq_getElem (by rw [thrBits_length, List.length_map, hl]; exact hk)]; simp
  have hout : ∃ q, decfOut s2 = some q := by
    have hby : ∀ p n, p + 8 * n ≤ 1344 → ∃ l, bytesAt s2 p n = some l := by
      intro p n hpn
      cases hb : bytesAt s2 p n with
      | some l => exact ⟨l, rfl⟩
      | none =>
        obtain ⟨c, hc, h2⟩ := bytesAt_eq_none.mp hb
        obtain ⟨k, hk, h3⟩ := byteAt_eq_none.mp h2
        exact absurd h3 (hbits _ (by omega))
    unfold decfOut
    obtain ⟨l, hl⟩ := hby startLen 7 (by simp [startLen])
    have hlen := (bytesAt_eq_some.mp hl).1
    obtain ⟨b0, b1, b2, b3, b4, b5, b6, rfl⟩ : ∃ a b c d e f g, l = [a, b, c, d, e, f, g] := by
      match l, hlen with
      | [a, b, c, d, e, f, g], _ => exact ⟨a, b, c, d, e, f, g, rfl⟩
    have hh : ∃ hd, readHeader s2 = some hd := by unfold readHeader; rw [hl]; exact ⟨_, rfl⟩
    obtain ⟨hd, hh⟩ := hh
    rw [hh]
    simp only
    split_ifs with h1 h2
    · exact ⟨_, rfl⟩
    · exact ⟨_, rfl⟩
    · have hcap : levelCapacity hd.ecc ≤ codewordBytes := by unfold levelCapacity; split <;> simp
      obtain ⟨cw, hcw⟩ := hby codewordAt (hd.payLen.toNat + hd.redLen.toNat) (by
        simp only [codewordAt, startLen, headerBits, codewordBytes] at *; omega)
      rw [hcw]; simp only
      rcases valred cw hd.redLen.toNat with ⟨_ | d, x⟩ <;> exact ⟨_, rfl⟩
  obtain ⟨⟨hd, c, x, d⟩, hq⟩ := hout
  refine ⟨fun p => Memory.read s2.ints p, fun p => Memory.read s2.bits p, hd, c, x, d, decfOut_xor hq, fun u hp ht => ?_⟩
  obtain ⟨u2, e2, f2, g2, t2, o2, en2⟩ := evaluate_of hv hp ht ha
  have hc := evaluate_congr hv hp t1 t2 en1 en2
  have hd2 : decfRun u2 = .ended c (decfPut u2 hd x d) := by
    rw [decfRun_eq, decfOut_congr (b := s2) fun p hp => (hc p hp).2, hq]
  exact ⟨u2, f2, by rw [e2, hd2], hc, o2, g2, t2, hd2⟩

end Sys2Proof.Machine
end

