-- ==== Sys2Proof/Laws/ByHand.lean ====
section
/-! SUPPORT. The thirteen commands of `HYP1` (R102) give what one evaluation inside a sweep gives, but for `STATUS`. -/

namespace Sys2Proof.Machine

open Sys2Proof.Spec

/-! ### Thirteen commands -/

/-- `SAMP` does not look at `STATUS`. -/
theorem sampRun_status {r v a : Nat} {s t : State} (c : Option Word) (d : Bool) (k : Code) (h : sampRun r v a s = some t) :
    sampRun r v a { s with cmd := c, done := d, code := k } = some { t with cmd := c, done := d, code := k } := by
  obtain ⟨es, h1, h2, rfl⟩ := sampRun_eq_some.mp h
  rw [sampRun_eq_some]
  exact ⟨es, h1, fun i hi => by rw [← h2 i hi]; rfl, rfl⟩

/-- `THR` does not look at `STATUS`. -/
theorem thrRun_status {r i : Nat} {m : Mode} {v : Bool} {s t : State} (c : Option Word) (d : Bool) (k : Code) (h : thrRun r m v i s = some t) :
    thrRun r m v i { s with cmd := c, done := d, code := k } = some { t with cmd := c, done := d, code := k } := by
  obtain ⟨es, h1, rfl⟩ := thrRun_eq_some.mp h
  rw [thrRun_eq_some]
  exact ⟨es, h1, rfl⟩

/-- Commands one after the other, in two parts. -/
theorem runAll_append (l m : List Instr) (s : State) : runAll (l ++ m) s = match runAll l s with
    | .next t => runAll m t | .fault f => .fault f | .refused r => .refused r := by
  induction l generalizing s with
  | nil => rfl
  | cons i l ih => simp only [List.cons_append, runAll]; cases exec i s <;> simp [ih]

/-- A list of `SAMP` commands does what sampling the list of rings does. -/
theorem runAll_samp {v a : Nat} (hv : v < 5) {rs : List Nat} (hr : ∀ r ∈ rs, r < 6) {s t : State} (ha : a < s.params.sectors 0) (ha2 : a < 2048)
    (h : sampRings v a rs s = some t) (c : Option Word) (d : Bool) (k : Code) :
    ∃ c' d' k', runAll (rs.map fun r => .samp (BitVec.ofNat 3 r) (BitVec.ofNat 3 v) (BitVec.ofNat 11 a)) { s with cmd := c, done := d, code := k } = .next { t with cmd := c', done := d', code := k' } := by
  induction rs generalizing s c d k with
  | nil => cases h; exact ⟨c, d, k, rfl⟩
  | cons r rs ih =>
    unfold sampRings at h
    cases hs : sampRun r v a s with
    | none => rw [hs] at h; cases h
    | some u =>
      rw [hs] at h
      have hr0 := hr r (by simp)
      have e1 : (BitVec.ofNat 3 r).toNat = r := by simp; omega
      have e2 : (BitVec.ofNat 3 v).toNat = v := by simp; omega
      have e3 : (BitVec.ofNat 11 a).toNat = a := by simp; omega
      have hx : exec (.samp (BitVec.ofNat 3 r) (BitVec.ofNat 3 v) (BitVec.ofNat 11 a)) { s with cmd := c, done := d, code := k } = .next (complete .ok { u with cmd := c, done := d, code := k }) := by
        rw [exec_samp, execSamp, e1, e2, e3, if_neg (by show ¬ (5 < r ∨ 4 < v ∨ s.params.sectors 0 ≤ a); omega), sampRun_status c d k hs]
      simp only [List.map_cons, runAll, hx]
      have := ih (fun r hr' => hr r (by simp [hr'])) (s := u) (by rw [(sampRun_frame hs).1]; exact ha) h none true .ok
      exact this

/-- A list of `THR` commands does what thresholding the list of rings does. -/
theorem runAll_thr {i : Nat} {m : Mode} {v : Bool} (hi : i < 5) {rs : List Nat} (hr : ∀ r ∈ rs, r < 6) {s t : State}
    (h : thrRings m v i rs s = some t) (c : Option Word) (d : Bool) (k : Code) :
    ∃ c' d' k', runAll (rs.map fun r => .thr (BitVec.ofNat 3 r) m v (BitVec.ofNat 3 i)) { s with cmd := c, done := d, code := k } = .next { t with cmd := c', done := d', code := k' } := by
  induction rs generalizing s c d k with
  | nil => cases h; exact ⟨c, d, k, rfl⟩
  | cons r rs ih =>
    unfold thrRings at h
    cases hs : thrRun r m v i s with
    | none => rw [hs] at h; cases h
    | some u =>
      rw [hs] at h
      have hr0 := hr r (by simp)
      have e1 : (BitVec.ofNat 3 r).toNat = r := by simp; omega
      have e2 : (BitVec.ofNat 3 i).toNat = i := by simp; omega
      have hx : exec (.thr (BitVec.ofNat 3 r) m v (BitVec.ofNat 3 i)) { s with cmd := c, done := d, code := k } = .next (complete .ok { u with cmd := c, done := d, code := k }) := by
        rw [exec_thr, execThr, e1, e2, if_neg (by omega), thrRun_status c d k hs]
      simp only [List.map_cons, runAll, hx]
      exact ih (fun r hr' => hr r (by simp [hr'])) (s := u) h none true .ok

/-- The thirteen commands, as two loops and a `DECF` (R102). -/
theorem byHand_eq (h : Hypothesis) : byHand h =
    (List.range numRings).map (fun r => .samp (BitVec.ofNat 3 r) (BitVec.ofNat 3 h.var) (BitVec.ofNat 11 h.shift)) ++
    ((List.range numRings).map (fun r => .thr (BitVec.ofNat 3 r) h.mode h.inv (BitVec.ofNat 3 h.bias)) ++ [.decf]) := rfl

/-- The thirteen commands give what one evaluation gives. -/
theorem byHand_of {s s2 : State} {h : Hypothesis} {hd : Header} {c : Code} {x : Option Byte} {d : Option (List Byte)}
    (hvar : h.var < 5) (hb : h.bias < 5) (hs : h.shift < s.params.sectors 0) (hs2 : h.shift < 2048)
    (g : sampRings h.var h.shift (List.range numRings) s = some { s with ints := s2.ints })
    (t : thrRings h.mode h.inv h.bias (List.range numRings) { s with ints := s2.ints } = some s2)
    (hd2 : decfRun s2 = .ended c (decfPut s2 hd x d)) :
    runAll (byHand h) s = .next (complete c (decfPut s2 hd x d)) := by
  have h6 : ∀ r ∈ List.range numRings, r < 6 := fun r hr => List.mem_range.mp hr
  obtain ⟨c1, d1, k1, r1⟩ := runAll_samp hvar h6 hs hs2 g s.cmd s.done s.code
  obtain ⟨c2, d2, k2, r2⟩ := runAll_thr hb h6 t c1 d1 k1
  rw [byHand_eq, runAll_append]
  have r1' : runAll ((List.range numRings).map fun r => .samp (BitVec.ofNat 3 r) (BitVec.ofNat 3 h.var) (BitVec.ofNat 11 h.shift)) s = _ := r1
  rw [r1']
  simp only
  rw [runAll_append]
  have r2' := r2
  rw [r2']
  simp only [runAll, exec_decf, execDecf]
  have : decfRun { s2 with cmd := c2, done := d2, code := k2 } = .ended c (decfPut { s2 with cmd := c2, done := d2, code := k2 } hd x d) := by
    rw [decfRun_eq, decfOut_congr (a := { s2 with cmd := c2, done := d2, code := k2 }) (b := s2) fun _ _ => rfl]
    rw [decfRun_eq] at hd2
    cases ho : decfOut s2 with
    | none => rw [ho] at hd2; cases hd2
    | some q =>
      obtain ⟨hd', c', x', d'⟩ := q
      rw [ho] at hd2
      simp only [Effect.ended.injEq] at hd2
      obtain ⟨rfl, q⟩ := hd2
      simp only [Effect.ended.injEq, true_and]
      simp only [decfPut, State.mk.injEq] at q ⊢
      obtain ⟨q1, -, -, -, -, q2, -, -, -, -, -, q3, q4, -⟩ := q
      simp only [q1, q2, q3, q4, and_self]
  rw [this]; rfl

end Sys2Proof.Machine
end

