-- ==== Sys2Proof/Laws/HostPort.lean ====
section
/-! SUPPORT. The windows of the host space and what an idle access to each of them comes to. -/

namespace Sys2Proof.Machine

/-! ### Windows -/

theorem inWindow_iff {b n a : Nat} : inWindow b n a = true ↔ b ≤ a ∧ a < b + n := by simp [inWindow]

/-- The offsets of the byte buffers (R61). -/
theorem byteBuffer_iff {a : Nat} : byteBuffer a = true ↔
    (0x100 ≤ a ∧ a < 0x195) ∨ (0x200 ≤ a ∧ a < 0x29D) ∨ (0x300 ≤ a ∧ a < 0x39D) ∨ (0x400 ≤ a ∧ a < 0x440) := by
  simp only [byteBuffer, Bool.or_eq_true, inWindow_iff, txtBase, txtSize, cwBase, codewordBytes, outBase, redBase, redSize]; tauto

theorem regEnd_eq : regEnd = 0x60 := rfl

theorem inInt_iff {a : Nat} : inWindow intBase intBytes a = true ↔ 0x1000 ≤ a ∧ a < 0x2500 := inWindow_iff

theorem inTxt_iff {a : Nat} : inWindow txtBase txtSize a = true ↔ 0x100 ≤ a ∧ a < 0x195 := inWindow_iff

theorem inCw_iff {a : Nat} : inWindow cwBase codewordBytes a = true ↔ 0x200 ≤ a ∧ a < 0x29D := inWindow_iff

theorem inOut_iff {a : Nat} : inWindow outBase codewordBytes a = true ↔ 0x300 ≤ a ∧ a < 0x39D := inWindow_iff

theorem inRed_iff {a : Nat} : inWindow redBase redSize a = true ↔ 0x400 ≤ a ∧ a < 0x440 := inWindow_iff

theorem inBits_iff {a : Nat} : inWindow bitsBase bitsBytes a = true ↔ 0x500 ≤ a ∧ a < 0x5A8 := inWindow_iff

/-! ### Idle accesses -/

/-- An aligned 4-byte read of an idle block's register (R62, R68). -/
theorem hostRead_reg {s : State} {addr : Offset} (hb : s.busy = false) (ha : addr.toNat % 4 = 0) (h : addr.toNat < 0x60) :
    hostRead s addr .word = .value (regWord s addr.toNat) := by
  simp only [hostRead, hb, sizeBytes, Bool.false_eq_true, if_false, ha, ne_eq, not_true_eq_false, if_true]
  rw [if_pos (show addr.toNat < regEnd from h)]

/-- An idle read outside the registers and `INT` (R62). -/
theorem hostRead_bytes {s : State} {addr : Offset} {size : AccessSize} (hb : s.busy = false)
    (ha : addr.toNat % sizeBytes size = 0) (h : ¬ (addr.toNat < 0x60 ∨ (0x1000 ≤ addr.toNat ∧ addr.toNat < 0x2500))) :
    hostRead s addr size = match hostBytes s addr.toNat (sizeBytes size) with
      | .ok bs => .value (leWord bs)
      | .error b => .unwritten b := by
  unfold hostRead
  simp only [hb, Bool.false_eq_true, if_false, ha, ne_eq, not_true_eq_false, regEnd_eq, inInt_iff]
  rw [if_neg (by omega), if_neg (by omega)]
  all_goals rfl

/-- The value of one byte. -/
theorem leWord_one (b : Byte) : leWord [b] = 0#24 ++ b := by revert b; decide +kernel

/-- Bits put together, as numbers. -/
theorem append_toNat {m n : Nat} (x : BitVec m) (y : BitVec n) : (x ++ y).toNat = x.toNat * 2 ^ n + y.toNat := by
  rw [BitVec.toNat_append, ← Nat.shiftLeft_add_eq_or_of_lt y.isLt, Nat.shiftLeft_eq]

/-- The value of two bytes, the first in bits 7:0 (R63). -/
theorem leWord_two (b0 b1 : Byte) : leWord [b0, b1] = 0#16 ++ b1 ++ b0 := by
  apply BitVec.eq_of_toNat_eq
  simp only [leWord, List.foldr, BitVec.toNat_ofNat, append_toNat]
  have := b0.isLt; have := b1.isLt
  omega

/-- The value of four bytes, the first in bits 7:0 (R63). -/
theorem leWord_four (b0 b1 b2 b3 : Byte) : leWord [b0, b1, b2, b3] = b3 ++ b2 ++ b1 ++ b0 := by
  apply BitVec.eq_of_toNat_eq
  simp only [leWord, List.foldr, BitVec.toNat_ofNat, append_toNat]
  have := b0.isLt; have := b1.isLt; have := b2.isLt; have := b3.isLt
  omega

/-- An idle read of one byte outside the registers and `INT`: the byte there, or the buffer it is missing from. -/
theorem hostRead_byte {s : State} {addr : Offset} (hb : s.busy = false)
    (h : ¬ (addr.toNat < 0x60 ∨ (0x1000 ≤ addr.toNat ∧ addr.toNat < 0x2500))) :
    (∀ v, hostByte s addr.toNat = .ok v → hostRead s addr .byte = .value (0#24 ++ v)) ∧
    ∀ b, hostByte s addr.toNat = .error b → hostRead s addr .byte = .unwritten b := by
  have e := hostRead_bytes (size := .byte) hb (Nat.mod_one _) h
  constructor
  · intro v hv; rw [e]; simp only [sizeBytes, hostBytes, hv, leWord_one]
  · intro b hv; rw [e]; simp only [sizeBytes, hostBytes, hv]

/-- What a host reads does not depend on what is still to come. -/
theorem hostRead_inputs (s : State) (rest : List Input) (addr : Offset) (size : AccessSize) :
    hostRead { s with inputs := rest } addr size = hostRead s addr size := by cases size <;> rfl

/-- An idle write outside the registers and `INT` (R62). -/
theorem hostWrite_bytes {s : State} {addr : Offset} {size : AccessSize} {v : Word} (hb : s.busy = false)
    (ha : addr.toNat % sizeBytes size = 0) (h : ¬ (addr.toNat < 0x60 ∨ (0x1000 ≤ addr.toNat ∧ addr.toNat < 0x2500))) :
    hostWrite s addr size v = writeHostBytes s addr.toNat ((wordBytes v).take (sizeBytes size)) := by
  unfold hostWrite
  simp only [hb, Bool.false_eq_true, if_false, ha, ne_eq, not_true_eq_false, regEnd_eq, inInt_iff]
  rw [if_neg (by omega), if_neg (by omega)]

/-- A write while busy is ignored (R72). -/
theorem hostWrite_busy {s : State} {addr : Offset} {size : AccessSize} {v : Word} (hb : s.busy = true) :
    hostWrite s addr size v = s := by
  unfold hostWrite; simp [hb]

/-- A byte write keeps `BUSY`. -/
theorem writeHostByte_busy (s : State) (a : Nat) (b : Byte) : (writeHostByte s a b).busy = s.busy := by
  unfold writeHostByte; split_ifs <;> rfl

/-- A byte write keeps the canonical form of the byte store and of the bit store. -/
theorem writeHostByte_wf {s : State} (hm : Memory.wf s.mem) (hb : Memory.wf s.bits) (a : Nat) (b : Byte) :
    Memory.wf (writeHostByte s a b).mem ∧ Memory.wf (writeHostByte s a b).bits := by
  unfold writeHostByte
  split_ifs
  · exact ⟨Memory.wf_writeRun hm _ _, hb⟩
  · exact ⟨Memory.wf_writeRun hm _ _, hb⟩
  · exact ⟨hm, Memory.wf_writeRun hb _ _⟩
  · exact ⟨hm, hb⟩

/-- A run of byte writes keeps the canonical form. -/
theorem writeHostBytes_wf {l : List Byte} {s : State} (hm : Memory.wf s.mem) (hb : Memory.wf s.bits) (a : Nat) :
    Memory.wf (writeHostBytes s a l).mem ∧ Memory.wf (writeHostBytes s a l).bits := by
  induction l generalizing s a with
  | nil => exact ⟨hm, hb⟩
  | cons b l ih => exact ih (writeHostByte_wf hm hb a b).1 (writeHostByte_wf hm hb a b).2 _

end Sys2Proof.Machine
end

