-- ==== Sys2Proof/Laws/PerInstr.lean ====
section
/-! SUPPORT. Statements about every command, one lemma per constructor: the word of a command has the opcode of its row in
bits 7:0 (R96) and zeros above its format's fields (R97, R98). Beside them, the general facts about fields of a word that
the proofs about decoding use. -/

namespace Sys2Proof

/-- Two words of one width are equal when their bits are. -/
theorem eq_of_bits {w : Nat} {x y : BitVec w} (h : ∀ i < w, x.getLsbD i = y.getLsbD i) : x = y :=
  BitVec.eq_of_getLsbD_eq (by simpa using h)

theorem getLsbD_field (w : Word) (lo n i : Nat) : (field w lo n).getLsbD i = (decide (i < n) && w.getLsbD (lo + i)) := by
  simp [field, BitVec.getLsbD_extractLsb']

@[simp] theorem decodeMode_encodeMode (m : Mode) : decodeMode (encodeMode m) = m := by cases m <;> decide

theorem encodeMode_decodeMode (b : BitVec 1) : encodeMode (decodeMode b) = b := by revert b; decide

theorem checkedZero_eq_ok {w : Word} {used : Nat} {i j : Instr} :
    checkedZero w used i = .ok j ↔ w >>> used = 0#32 ∧ i = j := by
  unfold checkedZero
  split <;> simp [*]

end Sys2Proof

namespace Sys2Proof.Laws.TableRow

/-- The first must-be-zero bit of a command's format (R97). -/
def formatEnd : Instr → Nat
  | .encf _ => 10
  | .decf => 8
  | .apred _ => 16
  | .valred _ => 16
  | .mapb _ => 19
  | .maps _ _ => 22
  | .samp _ _ _ => 25
  | .thr _ _ _ _ => 16
  | .sweep _ => 11

/-- The word of `i` fits its row: opcode below, zeros above. -/
def Statement (i : Instr) : Prop := field (encode i) 0 8 = i.opcode ∧ encode i >>> formatEnd i = 0#32

theorem encf (ecc : BitVec 2) : Statement (.encf ecc) := by
  constructor <;> refine eq_of_bits fun i hi => ?_
  · simp only [encode, Instr.opcode, getLsbD_field, BitVec.getLsbD_append, hi]
    interval_cases i <;> simp
  · simp only [encode, formatEnd, BitVec.getLsbD_ushiftRight, BitVec.getLsbD_append]
    interval_cases i <;> simp

theorem decf : Statement .decf := by constructor <;> decide

theorem apred (n : BitVec 8) : Statement (.apred n) := by
  constructor <;> refine eq_of_bits fun i hi => ?_
  · simp only [encode, Instr.opcode, getLsbD_field, BitVec.getLsbD_append, hi]
    interval_cases i <;> simp
  · simp only [encode, formatEnd, BitVec.getLsbD_ushiftRight, BitVec.getLsbD_append]
    interval_cases i <;> simp

theorem valred (n : BitVec 8) : Statement (.valred n) := by
  constructor <;> refine eq_of_bits fun i hi => ?_
  · simp only [encode, Instr.opcode, getLsbD_field, BitVec.getLsbD_append, hi]
    interval_cases i <;> simp
  · simp only [encode, formatEnd, BitVec.getLsbD_ushiftRight, BitVec.getLsbD_append]
    interval_cases i <;> simp

theorem mapb (idx : BitVec 11) : Statement (.mapb idx) := by
  constructor <;> refine eq_of_bits fun i hi => ?_
  · simp only [encode, Instr.opcode, getLsbD_field, BitVec.getLsbD_append, hi]
    interval_cases i <;> simp
  · simp only [encode, formatEnd, BitVec.getLsbD_ushiftRight, BitVec.getLsbD_append]
    interval_cases i <;> simp

theorem maps (ring : BitVec 3) (sector : BitVec 11) : Statement (.maps ring sector) := by
  constructor <;> refine eq_of_bits fun i hi => ?_
  · simp only [encode, Instr.opcode, getLsbD_field, BitVec.getLsbD_append, hi]
    interval_cases i <;> simp
  · simp only [encode, formatEnd, BitVec.getLsbD_ushiftRight, BitVec.getLsbD_append]
    interval_cases i <;> simp

theorem samp (ring var : BitVec 3) (shift : BitVec 11) : Statement (.samp ring var shift) := by
  constructor <;> refine eq_of_bits fun i hi => ?_
  · simp only [encode, Instr.opcode, getLsbD_field, BitVec.getLsbD_append, hi]
    interval_cases i <;> simp
  · simp only [encode, formatEnd, BitVec.getLsbD_ushiftRight, BitVec.getLsbD_append]
    interval_cases i <;> simp

theorem thr (ring : BitVec 3) (mode : Mode) (inv : Bool) (bias : BitVec 3) : Statement (.thr ring mode inv bias) := by
  constructor <;> refine eq_of_bits fun i hi => ?_
  · simp only [encode, Instr.opcode, getLsbD_field, BitVec.getLsbD_append, hi]
    interval_cases i <;> simp
  · simp only [encode, formatEnd, BitVec.getLsbD_ushiftRight, BitVec.getLsbD_append]
    interval_cases i <;> simp

theorem sweep (nv : BitVec 3) : Statement (.sweep nv) := by
  constructor <;> refine eq_of_bits fun i hi => ?_
  · simp only [encode, Instr.opcode, getLsbD_field, BitVec.getLsbD_append, hi]
    interval_cases i <;> simp
  · simp only [encode, formatEnd, BitVec.getLsbD_ushiftRight, BitVec.getLsbD_append]
    interval_cases i <;> simp

end Sys2Proof.Laws.TableRow
end

