-- ==== Sys2Proof/Laws/SweepLoop.lean ====
section
/-! SUPPORT. The loops of a sweep against the thirteen commands by hand (R213, R214): what hypotheses and variants that do
not validate leave behind. -/

namespace Sys2Proof.Machine

open Sys2Proof.Spec

/-- The hypothesis of a rank, by its variant and its place within the variant (R212). -/
theorem hypothesisAt_eq {s : State} (h0 : 0 < s.params.sectors 0) {v m : Nat} (hm : m < 20 * shiftTotal s) :
    hypothesisAt s (v * (20 * shiftTotal s) + m) = hypOf (shiftTotal s) v m := by
  have hc : 0 < shiftTotal s := by unfold shiftTotal; omega
  set c := shiftTotal s with hcd
  unfold hypothesisAt hypOf
  simp only [← hcd]
  have e1 : (v * (20 * c) + m) / (20 * c) = v := by
    rw [Nat.mul_comm v, Nat.mul_add_div (by omega), Nat.div_eq_of_lt hm, Nat.add_zero]
  have e2 : (v * (20 * c) + m) / (10 * c) % 2 = m / (10 * c) % 2 := by
    rw [show v * (20 * c) + m = 10 * c * (2 * v) + m by ring, Nat.mul_add_div (by omega), Nat.mul_add_mod]
  have e3 : (v * (20 * c) + m) / (2 * c) % 5 = m / (2 * c) % 5 := by
    rw [show v * (20 * c) + m = 2 * c * (5 * (2 * v)) + m by ring, Nat.mul_add_div (by omega), Nat.mul_add_mod]
  have e4 : (v * (20 * c) + m) / c % 2 = m / c % 2 := by
    rw [show v * (20 * c) + m = c * (2 * (10 * v)) + m by ring, Nat.mul_add_div hc, Nat.mul_add_mod]
  have e5 : (v * (20 * c) + m) % c = m % c := by
    rw [show v * (20 * c) + m = c * (20 * v) + m by ring, Nat.mul_add_mod]
  rw [e1, e2, e3, e4, e5]

/-- A state of a running sweep that began in `s`. -/
structure Going (s u : State) : Prop where
  params : u.params = s.params
  taps : u.taps = s.taps
  mem : u.mem = s.mem
  far : ∀ p, 1344 ≤ p → Memory.read u.ints p = Memory.read s.ints p ∧ Memory.read u.bits p = Memory.read s.bits p

/-- The fields of a hypothesis are in the ranges of the commands that evaluate it. -/
def Legal (s : State) (h : Hypothesis) : Prop := h.var < 5 ∧ h.bias < 5 ∧ h.shift < s.params.sectors 0 ∧ h.shift < 2048

/-- A hypothesis that does not validate by hand. -/
def Fails (s : State) (h : Hypothesis) : Prop := ∃ v, runAll (byHand h) s = .next v ∧ v.code ≠ .ok

/-- The exclusive or of a hypothesis that reaches the validation step (R147, R148). -/
def valXor (s : State) (h : Hypothesis) : Option Byte :=
  match runAll (byHand h) s with
  | .next v => if v.code = .ok ∨ v.code = .redundancyValidationFailed then some v.xorsum else none
  | _ => none

/-- What one evaluation leaves, against the thirteen commands. -/
theorem evaluate_byHand {s u : State} {h : Hypothesis} (hv : s.params.Valid) (hl : Legal s h) (ha : HypothesisAnswered s h) (hu : Going s u) :
    ∃ v t, runAll (byHand h) s = .next v ∧ evaluate h u = .ended v.code t ∧ Going s { t with mem := s.mem } ∧
      t.hyp = u.hyp ∧ t.hypCnt = u.hypCnt ∧ t.progress = u.progress ∧ t.events = u.events ∧ t.hdr = v.hdr ∧ t.outLen = v.outLen ∧ t.mem = v.mem ∧
      (v.code = .ok → t.xorsum = v.xorsum) ∧ t.xorsum = (valXor s h).getD u.xorsum ∧ (v.code ≠ .ok → t.mem = s.mem ∧ t.outLen = 0) ∧
      (∀ p, Memory.read t.ints p = Memory.read v.ints p) ∧ (∀ p, Memory.read t.bits p = Memory.read v.bits p) ∧
      v.params = s.params := by
  obtain ⟨ints, bits, hd, c, x, d, hx, H⟩ := evaluate_any hv ha
  obtain ⟨s2, f1, -, n1, o1, g1, t1, d1⟩ := H s rfl rfl
  obtain ⟨u2, f2, e2, n2, o2, -, -, d2⟩ := H u hu.params hu.taps
  refine ⟨_, _, byHand_of hl.1 hl.2.1 hl.2.2.1 hl.2.2.2 g1 t1 d1, e2, ?_, ?_, ?_, ?_, ?_, rfl, rfl, ?_, ?_, ?_, ?_, ?_, ?_, ?_⟩
  · refine ⟨by rw [f2]; exact hu.params, by rw [f2]; exact hu.taps, rfl, fun p hp => ?_⟩
    show Memory.read u2.ints p = _ ∧ Memory.read u2.bits p = _
    rw [(o2 p hp).1, (o2 p hp).2]; exact hu.far p hp
  · rw [f2]; rfl
  · rw [f2]; rfl
  · rw [f2]; rfl
  · rw [f2]; rfl
  · show (decfPut u2 hd x d).mem = (decfPut s2 hd x d).mem
    have : u2.mem = s2.mem := by rw [f1, f2]; exact hu.mem
    unfold decfPut; rw [this]
  · intro hc
    have hc : c = .ok := hc
    show (decfPut u2 hd x d).xorsum = (decfPut s2 hd x d).xorsum
    obtain ⟨y, rfl⟩ := Option.isSome_iff_exists.mp (hx.mpr (.inl hc)); rfl
  · unfold valXor; rw [byHand_of hl.1 hl.2.1 hl.2.2.1 hl.2.2.2 g1 t1 d1]
    show (decfPut u2 hd x d).xorsum = (if c = .ok ∨ c = .redundancyValidationFailed then some (decfPut s2 hd x d).xorsum else none).getD u.xorsum
    have hux : u2.xorsum = u.xorsum := by rw [f2]
    cases x with
    | none => rw [if_neg (by rw [← hx]; simp)]; exact hux
    | some y => rw [if_pos (hx.mp rfl)]; rfl
  · intro hc
    have hc : c ≠ .ok := hc
    rcases decfRun_cases d2 with ⟨h1, -⟩ | ⟨-, h1⟩
    · exact absurd h1 hc
    · rw [h1]; refine ⟨?_, rfl⟩
      show u2.mem = s.mem; rw [f2]; exact hu.mem
  · intro p
    show Memory.read u2.ints p = Memory.read s2.ints p
    by_cases hp : p < 1344
    · rw [(n1 p hp).1, (n2 p hp).1]
    · rw [(o1 p (by omega)).1, (o2 p (by omega)).1, (hu.far p (by omega)).1]
  · intro p
    show Memory.read u2.bits p = Memory.read s2.bits p
    by_cases hp : p < 1344
    · rw [(n1 p hp).2, (n2 p hp).2]
    · rw [(o1 p (by omega)).2, (o2 p (by omega)).2, (hu.far p (by omega)).2]
  · show s2.params = _; rw [f1]

/-- What the last failing hypothesis leaves. -/
def Last (s u : State) (h : Hypothesis) : Prop :=
  u.hyp = hypRegOf h ∧ u.outLen = 0 ∧ ∀ v, runAll (byHand h) s = .next v →
    u.hdr = v.hdr ∧ (∀ p, Memory.read u.ints p = Memory.read v.ints p) ∧ ∀ p, Memory.read u.bits p = Memory.read v.bits p

/-- Hypotheses that fail are passed over: what they leave (R214). -/
theorem tryHypotheses_skip {s : State} (hv : s.params.Valid) {pre : List Hypothesis} (rest : List Hypothesis)
    (hp : ∀ h ∈ pre, Legal s h ∧ HypothesisAnswered s h ∧ Fails s h) {u : State} (hu : Going s u) :
    ∃ u', Going s u' ∧ tryHypotheses (pre ++ rest) u = tryHypotheses rest u' ∧ u'.hypCnt = u.hypCnt + BitVec.ofNat 32 pre.length ∧
      u'.progress = u.progress ∧ u'.events = u.events ∧ (pre = [] → u' = u) ∧ u'.xorsum = pre.foldl (fun x h => (valXor s h).getD x) u.xorsum ∧ ∀ h, pre.getLast? = some h → Last s u' h := by
  induction pre generalizing u with
  | nil => exact ⟨u, hu, rfl, by simp, rfl, rfl, fun _ => rfl, rfl, by simp⟩
  | cons h pre ih =>
    obtain ⟨hl, ha, w, hw, hwc⟩ := hp h (by simp)
    obtain ⟨v, t, e1, e2, g, q1, q2, q3, q4, q5, q6, q7, q8, qx, q9, q10, q11, q12⟩ := evaluate_byHand hv hl ha hu
    rw [hw] at e1; cases e1
    obtain ⟨m1, m2⟩ := q9 hwc
    have gt : Going s (recordHypothesis h t) := ⟨g.params, g.taps, m1, g.far⟩
    obtain ⟨u', k1, k2, k3, k4, k5, k6, kx, k7⟩ := ih (fun h' hh => hp h' (by simp [hh])) gt
    refine ⟨u', k1, ?_, ?_, ?_, ?_, by simp, ?_, ?_⟩
    · rw [List.cons_append, tryHypotheses, e2]; simp only [hwc, if_false]; exact k2
    · rw [k3]; show t.hypCnt + 1 + _ = _; rw [q2, List.length_cons, BitVec.ofNat_add, BitVec.add_assoc, BitVec.add_comm 1]; rfl
    · rw [k4]; exact q3
    · rw [k5]; exact q4
    · rw [kx, List.foldl_cons, ← qx]; rfl
    · intro h' hh'
      cases pre with
      | nil =>
        obtain rfl : h = h' := by simpa using hh'
        rw [k6 rfl]
        refine ⟨rfl, m2, fun v hv' => ?_⟩
        rw [hw] at hv'; cases hv'
        exact ⟨q5, q10, q11⟩
      | cons a b => exact k7 h' (by simpa using hh')

/-- Variants whose hypotheses all fail are passed over: what they leave (R214). -/
theorem tryVariants_skip {s : State} (hv : s.params.Valid) {nv : BitVec 3} {pre : List Nat} (rest : List Nat)
    (hp : ∀ v ∈ pre, ∀ h ∈ hypothesesOf s.params.ring0 v, Legal s h ∧ HypothesisAnswered s h ∧ Fails s h) {u : State} (hu : Going s u) :
    ∃ u', Going s u' ∧ tryVariants nv (pre ++ rest) u = tryVariants nv rest u' ∧
      u'.hypCnt = u.hypCnt + BitVec.ofNat 32 (pre.length * (20 * shiftTotal s)) ∧
      u'.events = u.events ++ pre.map (fun v => { var := BitVec.ofNat 3 v, nv := nv }) ∧
      u'.progress.count = u.progress.count + BitVec.ofNat 8 pre.length ∧ u'.progress.nv = u.progress.nv ∧ (pre = [] → u' = u) ∧
      u'.xorsum = (pre.flatMap (hypothesesOf s.params.ring0)).foldl (fun x h => (valXor s h).getD x) u.xorsum ∧
      (∀ v, pre.getLast? = some v → u'.progress.var = BitVec.ofNat 3 v) ∧
      ∀ v, pre.getLast? = some v → ∀ h, (hypothesesOf s.params.ring0 v).getLast? = some h → Last s u' h := by
  have h0 := (hv.1 0 (by omega)).1
  induction pre generalizing u with
  | nil => exact ⟨u, hu, rfl, by simp, by simp, by simp, rfl, fun _ => rfl, rfl, by simp, by simp⟩
  | cons v pre ih =>
    have gu : Going s (emitProgress (BitVec.ofNat 3 v) nv u) := ⟨hu.params, hu.taps, hu.mem, hu.far⟩
    obtain ⟨u1, k1, k2, k3, k4, k5, k6, kx, k7⟩ := tryHypotheses_skip hv [] (hp v (by simp)) gu
    rw [List.append_nil] at k2
    obtain ⟨u2, j1, j2, j3, j4, j5, j6, j7, jx, jv, j8⟩ := ih (fun v' hv' => hp v' (by simp [hv'])) k1
    have h0 : 0 < s.params.ring0 := h0
    have hlen : (hypothesesOf s.params.ring0 v).length = 20 * shiftTotal s := by
      rw [hypothesesOf_eq h0]; simp [shiftTotal, Params.sectors]
    refine ⟨u2, j1, ?_, ?_, ?_, ?_, ?_, by simp, ?_, ?_, ?_⟩
    · rw [List.cons_append, tryVariants, hu.params, k2, tryHypotheses]
      simp only [reduceCtorEq, if_false]; exact j2
    · rw [j3, k3, hlen]
      show u.hypCnt + _ + _ = _
      rw [BitVec.add_assoc, ← BitVec.ofNat_add]; congr 2; simp [Nat.add_mul]; omega
    · rw [j4, k5]; simp [emitProgress]
    · rw [j5, k4]; simp only [emitProgress, List.length_cons]; rw [BitVec.ofNat_add, BitVec.add_assoc, BitVec.add_comm 1]; rfl
    · rw [j6, k4]; rfl
    · rw [jx, kx, List.flatMap_cons, List.foldl_append]; rfl
    · intro v' hv'
      cases pre with
      | nil =>
        obtain rfl : v = v' := by simpa using hv'
        rw [j7 rfl, k4]; rfl
      | cons a b => exact jv v' (by simpa using hv')
    · intro v' hv' h' hh'
      cases pre with
      | nil =>
        obtain rfl : v = v' := by simpa using hv'
        rw [j7 rfl]; exact k7 h' hh'
      | cons a b => exact j8 v' (by simpa using hv') h' hh'

/-- The hypotheses of a variant are legal. -/
theorem legal_hypOf {s : State} (h0 : s.params.Valid) {v m : Nat} (hv : v < 5) : Legal s (hypOf (shiftTotal s) v m) := by
  have := h0.1 0 (by omega)
  have hc : 0 < shiftTotal s := by unfold shiftTotal; omega
  have h2 := Nat.mod_lt m hc
  unfold shiftTotal at *
  refine ⟨hv, Nat.mod_lt _ (by omega), ?_, ?_⟩
  · simp only [hypOf]; omega
  · simp only [hypOf]; omega

/-- The hypotheses of a variant, by rank. -/
theorem hyps_of_variant {s : State} (hv : s.params.Valid) (v : Nat) :
    hypothesesOf s.params.ring0 v = (List.range (20 * shiftTotal s)).map (fun m => hypothesisAt s (v * (20 * shiftTotal s) + m)) := by
  have h0 := (hv.1 0 (by omega)).1
  rw [hypothesesOf_eq (show 0 < s.params.ring0 from h0)]
  refine List.map_congr_left fun m hm => (hypothesisAt_eq h0 (List.mem_range.mp hm)).symm

/-- The number of hypotheses, by variants. -/
theorem total_eq (s : State) (nv : BitVec 3) : hypothesisTotal s nv = nv.toNat * (20 * shiftTotal s) := by unfold hypothesisTotal; ring

/-- The hypothesis of every rank is legal. -/
theorem legalAt {s : State} (hv : s.params.Valid) {nv : BitVec 3} (hn : nv.toNat ≤ 5) {k : Nat} (hk : k < hypothesisTotal s nv) : Legal s (hypothesisAt s k) := by
  have h0 := (hv.1 0 (by omega)).1
  have hc : 0 < 20 * shiftTotal s := by unfold shiftTotal; omega
  rw [total_eq] at hk
  rw [show k = k / (20 * shiftTotal s) * (20 * shiftTotal s) + k % (20 * shiftTotal s) by rw [Nat.mul_comm]; exact (Nat.div_add_mod _ _).symm,
    hypothesisAt_eq h0 (Nat.mod_lt _ hc)]
  have : k / (20 * shiftTotal s) < nv.toNat := Nat.div_lt_of_lt_mul (by rw [Nat.mul_comm]; exact hk)
  exact legal_hypOf hv (by omega)

/-- The state a sweep begins with. -/
theorem going_start (s : State) (nv : BitVec 3) : Going s (sweepStart nv s) := ⟨rfl, rfl, rfl, fun _ _ => ⟨rfl, rfl⟩⟩

/-- Where a sweep stands before hypothesis `k`. -/
theorem sweep_upTo {s : State} (hv : s.params.Valid) {nv : BitVec 3} (hn : nv.toNat ≤ 5) {k : Nat} (hk : k < hypothesisTotal s nv)
    (hf : ∀ k' < k, HypothesisAnswered s (hypothesisAt s k') ∧ Fails s (hypothesisAt s k')) :
    ∃ u rest, Going s u ∧ u.hypCnt.toNat = k ∧ u.events = eventsUpTo nv ((hypothesisAt s k).var + 1) ∧
      u.progress = { var := BitVec.ofNat 3 (hypothesisAt s k).var, nv := nv, count := BitVec.ofNat 8 ((hypothesisAt s k).var + 1) } ∧
      ∀ e, (∃ c t, e = .ended c t ∧ c = .ok) ∨ (∃ ev, e = .waiting ev) → tryHypotheses (hypothesisAt s k :: rest) u = e → sweepRun nv s = e := by
  have h0 := (hv.1 0 (by omega)).1
  have hN := (hv.1 0 (by omega)).2
  have hc : 0 < 20 * shiftTotal s := by unfold shiftTotal; omega
  have hc2 : 20 * shiftTotal s ≤ 10240 := by unfold shiftTotal; omega
  set per := 20 * shiftTotal s with hper
  set v := k / per with hvd
  set m := k % per with hmd
  have hkm : k = v * per + m := by rw [Nat.mul_comm]; exact (Nat.div_add_mod _ _).symm
  have hm : m < per := Nat.mod_lt _ hc
  rw [total_eq] at hk
  have hvn : v < nv.toNat := Nat.div_lt_of_lt_mul (by rw [Nat.mul_comm]; exact hk)
  have hvar : (hypothesisAt s k).var = v := by rw [hkm, hypothesisAt_eq h0 hm]; rfl
  have hpre : ∀ v' ∈ List.range v, ∀ h ∈ hypothesesOf s.params.ring0 v', Legal s h ∧ HypothesisAnswered s h ∧ Fails s h := by
    intro v' hv' h hh
    rw [hyps_of_variant hv] at hh
    obtain ⟨m', hm', rfl⟩ := List.mem_map.mp hh
    have hv' := List.mem_range.mp hv'
    have hm' := List.mem_range.mp hm'
    have : v' * per + m' < k := by
      have : (v' + 1) * per ≤ v * per := Nat.mul_le_mul_right _ (by omega)
      rw [Nat.add_mul] at this; omega
    exact ⟨legalAt hv hn (by rw [total_eq]; exact lt_trans this hk), hf _ this⟩
  have hsplit : List.range nv.toNat = List.range v ++ (v :: (List.range (nv.toNat - v - 1)).map (fun i => v + 1 + i)) := by
    conv_lhs => rw [show nv.toNat = v + (nv.toNat - v - 1 + 1) by omega, List.range_add]
    congr 1
    rw [List.range_succ_eq_map, List.map_cons, List.map_map]
    congr 1
    refine List.map_congr_left fun i _ => ?_
    simp only [Function.comp]; omega
  obtain ⟨u1, a1, a2, a3, a4, a5, a6, a7, -, -, -⟩ := tryVariants_skip hv (nv := nv) (v :: (List.range (nv.toNat - v - 1)).map (fun i => v + 1 + i)) hpre (going_start s nv)
  have gu : Going s (emitProgress (BitVec.ofNat 3 v) nv u1) := ⟨a1.params, a1.taps, a1.mem, a1.far⟩
  have hlist : hypothesesOf s.params.ring0 v = ((List.range m).map fun i => hypothesisAt s (v * per + i)) ++
      hypothesisAt s k :: ((List.range (per - m - 1)).map fun i => hypothesisAt s (v * per + (m + 1 + i))) := by
    rw [hyps_of_variant hv]
    conv_lhs => rw [← hper, show per = m + (per - m - 1 + 1) by omega, List.range_add, List.map_append]
    rw [show m + (per - m - 1 + 1) = per by omega]
    congr 1
    rw [List.range_succ_eq_map, List.map_cons, List.map_cons, List.map_map, List.map_map]
    congr 1
    · rw [hkm]; rfl
    · refine List.map_congr_left fun i _ => ?_
      simp only [Function.comp]; congr 1; omega
  obtain ⟨u, b1, b2, b3, b4, b5, -, -, -⟩ := tryHypotheses_skip hv (hypothesisAt s k :: ((List.range (per - m - 1)).map fun i => hypothesisAt s (v * per + (m + 1 + i)))) (pre := (List.range m).map fun i => hypothesisAt s (v * per + i)) (by
      intro h hh
      obtain ⟨m', hm', rfl⟩ := List.mem_map.mp hh
      have hm' := List.mem_range.mp hm'
      have : v * per + m' < k := by omega
      exact ⟨legalAt hv hn (by rw [total_eq]; exact lt_trans this hk), hf _ this⟩) gu
  have hvk : v * per ≤ 5 * 10240 := Nat.mul_le_mul (by omega) hc2
  refine ⟨u, (List.range (per - m - 1)).map fun i => hypothesisAt s (v * per + (m + 1 + i)), b1, ?_, ?_, ?_, fun e he htry => ?_⟩
  · rw [b3]; show (u1.hypCnt + _).toNat = k
    rw [a3, ← hper, List.length_range, List.length_map, List.length_range]
    show (0#32 + _ + _).toNat = k
    rw [BitVec.zero_add, ← BitVec.ofNat_add, ← hkm]; simp; omega
  · rw [b5, hvar]; show u1.events ++ _ = _
    rw [a4]; simp [sweepStart, eventsUpTo, List.range_succ]
  · rw [b4, hvar]
    have e1 : u1.progress.nv = nv := by rw [a6]; rfl
    have e2 : u1.progress.count = BitVec.ofNat 8 v := by rw [a5]; simp [sweepStart]
    simp only [emitProgress, e1, e2, BitVec.ofNat_add]
    rfl
  · unfold sweepRun
    rw [hsplit, a2, tryVariants, a1.params, hlist, b2, htry]
    rcases he with ⟨c, t, rfl, rfl⟩ | ⟨ev, rfl⟩ <;> rfl

/-- `HYP` as the meaning writes it is `HYP` as the statements have it. -/
theorem hypReg_eq (h : Hypothesis) : hypRegOf h = hypRegister h := by
  unfold hypRegOf hypRegister; cases h.mode <;> rfl

/-- Keeping the last value found, where none is. -/
theorem fold_none (n : Nat) (g : Nat → Option Byte) (x : Byte) (h : ∀ k < n, g k = none) : (List.range n).foldl (fun x k => (g k).getD x) x = x := by
  induction n with
  | zero => rfl
  | succ n ih => rw [List.range_succ, List.foldl_append, ih fun k hk => h k (by omega)]; simp [h n (by omega)]

/-- Keeping the last value found, where there is one. -/
theorem fold_some (n : Nat) (g : Nat → Option Byte) (x : Byte) {k : Nat} {y : Byte} (hk : k < n) (hg : g k = some y) (h : ∀ k', k < k' → k' < n → g k' = none) :
    (List.range n).foldl (fun x k => (g k).getD x) x = y := by
  induction n with
  | zero => omega
  | succ n ih =>
    rw [List.range_succ, List.foldl_append]
    by_cases hkn : k = n
    · subst hkn; simp [hg]
    · rw [ih (by omega) fun k' h1 h2 => h k' h1 (by omega)]; simp [h n (by omega) (by omega)]

/-- A hypothesis that fails before validation has no exclusive or. -/
theorem valXor_none {s : State} {h : Hypothesis} (hf : Fails s h) (hr : ¬ ReachesValidation s h) : valXor s h = none := by
  obtain ⟨v, hv, hc⟩ := hf
  unfold valXor; rw [hv]
  simp only
  rw [if_neg]
  rintro (h | h)
  · exact hc h
  · exact hr ⟨v, hv, h⟩

/-- All hypotheses of the first variants, by rank. -/
theorem flatMap_range_hyps {s : State} (hv : s.params.Valid) (n : Nat) :
    (List.range n).flatMap (hypothesesOf s.params.ring0) = (List.range (n * (20 * shiftTotal s))).map (hypothesisAt s) := by
  induction n with
  | zero => simp
  | succ n ih =>
    rw [List.range_succ, List.flatMap_append, ih, Nat.add_mul, List.range_add, List.map_append]
    congr 1
    simp only [List.flatMap_cons, List.flatMap_nil, List.append_nil, hyps_of_variant hv, List.map_map, Nat.one_mul]
    rfl

end Sys2Proof.Machine
end

