-- ==== Sys2Proof/Laws/Thresholds.lean ====
section
/-! SUPPORT. What `THR` answers on a ring whose intensities are given (R192, R193). -/

namespace Sys2Proof.Machine

open Sys2Proof.Spec

/-- `OFF[r]`, as the statements have it (R9). -/
theorem offset_eq (p : Params) (r : Nat) : offset p r = off p r := (off_eq_sum p r).symm

/-- The value of an entry, as the statements have it (R28). -/
theorem intensity_eq (e : Word) : intensity e = valueOf e := rfl

/-- The bias factors, as the statements have them (R6, R7). -/
theorem bias_eq {i : Nat} (hi : i ≤ 4) : bias i = biasFactor i := by
  interval_cases i <;> norm_num [bias, biasNum, biasFactor]

/-- A ring whose intensities are given has its entries written. -/
theorem ringInts {s : State} {ring : Nat} {vals : List Rat} (h : RingValues s ring vals) :
    ∃ es, readInts s (off s.params ring) (s.params.sectors ring) = some es ∧ es.map intensity = vals := by
  obtain ⟨hl, h⟩ := h
  choose! e he hv using h
  refine ⟨(List.range (s.params.sectors ring)).map e, ?_, ?_⟩
  · unfold readInts
    rw [Memory.readRun_eq_some]
    refine ⟨by simp, fun i hi => ?_⟩
    rw [← offset_eq, he i hi]; simp [hi]
  · apply List.ext_getElem?
    intro i
    by_cases hi : i < s.params.sectors ring
    · rw [hv i hi]; simp [hi, intensity_eq]
    · rw [List.getElem?_eq_none (by simp; omega), List.getElem?_eq_none (by omega)]

/-- `THR` on a ring whose intensities are given (R193). -/
theorem thr_of {s : State} {ring i : BitVec 3} {mode : Mode} {inv : Bool} {vals : List Rat}
    (h1 : ring.toNat ≤ 5) (h2 : i.toNat ≤ 4) (h : RingValues s ring.toNat vals) :
    exec (.thr ring mode inv i) s = .next (complete .ok (writeBits s (off s.params ring.toNat) (thrBits mode inv i.toNat vals))) := by
  obtain ⟨es, he, rfl⟩ := ringInts h
  rw [exec_thr, execThr, if_neg (by omega), thrRun_eq_some.mpr ⟨es, he, rfl⟩]

/-- What `THR` writes and what it leaves, for the threshold of its mode (R192, R193). -/
theorem thr_result {s : State} {ring i : BitVec 3} {mode : Mode} {inv : Bool} {vals : List Rat} {thrv : Rat}
    (h1 : ring.toNat ≤ 5) (h2 : i.toNat ≤ 4) (h : RingValues s ring.toNat vals) (ht : threshold mode i.toNat vals = thrv) :
    ∃ t, exec (.thr ring mode inv i) s = .next t ∧ t = { ended .ok s with bits := t.bits } ∧
      (∀ j (v : Rat), vals[j]? = some v → Memory.read t.bits (offset s.params ring.toNat + j) =
        some (Bool.xor (decide (v < thrv)) inv)) ∧
      ∀ p, p < offset s.params ring.toNat ∨ offset s.params ring.toNat + s.params.sectors ring.toNat ≤ p →
        Memory.read t.bits p = Memory.read s.bits p := by
  refine ⟨_, thr_of h1 h2 h, rfl, fun j v hv => ?_, fun p hp => ?_⟩
  · show Memory.read (Memory.writeRun _ _ _) _ = _
    have hj : j < vals.length := (List.getElem?_eq_some_iff.mp hv).1
    rw [offset_eq, Memory.read_writeRun, if_pos (by rw [thrBits_length]; omega), Nat.add_sub_cancel_left]
    simp only [thrBits, List.getElem?_map, hv, ht]; rfl
  · show Memory.read (Memory.writeRun _ _ _) _ = _
    rw [Memory.read_writeRun_outside (by rw [thrBits_length, h.1]; rw [offset_eq] at hp; exact hp)]

end Sys2Proof.Machine
end

