-- ==== Sys2Proof/Tests/Slice0.lean ====
section
/-! SUPPORT. Tests: operand ranges refused, words decoded, one step of each command against the vectors of
spec/95_test_vectors.md, and a witness for the hypotheses of every statement that has any. -/

namespace Sys2Proof.Tests

open Sys2Proof Sys2Proof.Machine Sys2Proof.Spec

-- One theorem after the other: kernel evaluations side by side would each hold a thread's stack.
set_option Elab.async false

/-! ### Small states -/

/-- `TXT` and `TXT_LEN` written. -/
def withTxt (l : List Byte) : State :=
  { State.reset with mem := Memory.cellsFrom txtBase l, txtLen := BitVec.ofNat 16 l.length }

/-- `CW` and `CW_LEN` written. -/
def withCw (l : List Byte) : State :=
  { State.reset with mem := Memory.cellsFrom cwBase l, cwLen := BitVec.ofNat 8 l.length }

/-- `BITS` written from bit 32 on: header and codeword bytes, no start pattern (R149). -/
def withFrame (l : List Byte) : State :=
  { State.reset with bits := Memory.cellsFrom 32 (flattenBytes l) }

/-- Ring 0 has ten sectors and its entries are written (as the vectors of 2.6 do). -/
def withRing (l : List Word) : State :=
  { State.reset with params := { Config.params with ring0 := 10 }, ints := Memory.cellsFrom 0 l }

/-- Every tap answers the same. -/
def withTap (a : TapAnswer) : State := { State.reset with taps := .table [] a }

/-- Ring 0 holds the header and the first payload byte; one tap per sub-sample. -/
def headRing : Params :=
  { Config.params with ring0 := 96, ring1 := 1, ring2 := 1, ring3 := 1, ring4 := 1, ring5 := 1244, radiusTap := 0 }

/-- A command accepted, and what happens next around the engine. -/
def running (w : Word) (l : List Input) : State := { State.reset with cmd := some w, inputs := l }

/-- What a step leaves, if it has a next state. -/
def result {α : Type} (f : State → α) : StepOutcome → Option α
  | .next t => some (f t)
  | .fault _ => none
  | .refused _ => none

/-- The function that reads a list. -/
def fn (l : List Byte) (j : Nat) : Byte := l.getD j 0

/-- What the machine writes into `OUT` and the registers beside it. -/
def outcome (t : State) : Code × Option (List Byte) × Word × Word × Byte :=
  (t.code, Memory.readRun t.mem outBase t.outLen.toNat, hdrLoWord t.hdr, hdrHiWord t.hdr, t.xorsum)

/-- Packed bytes `j`, `j + 1`, .. of `BITS` where all its bits are listed (R65). -/
def packed (t : State) (j n : Nat) : List Byte :=
  (List.range n).map fun i => bitsByte (((t.bits.drop (8 * (j + i))).take 8).map Prod.snd)

/-! ### Operand ranges (R100, V4) -/

theorem test_wf_apred : (Instr.apred 64).wf Config.params = true ∧ (Instr.apred 65).wf Config.params = false := by decide
theorem test_wf_mapb : (Instr.mapb 1343).wf Config.params = true ∧ (Instr.mapb 1344).wf Config.params = false := by decide
theorem test_wf_maps_ring : (Instr.maps 5 0).wf Config.params = true ∧ (Instr.maps 6 0).wf Config.params = false := by decide
theorem test_wf_maps_sector : (Instr.maps 5 303).wf Config.params = true ∧ (Instr.maps 5 304).wf Config.params = false := by
  decide
theorem test_wf_samp_ring : (Instr.samp 5 0 0).wf Config.params = true ∧ (Instr.samp 6 0 0).wf Config.params = false := by
  decide
theorem test_wf_samp_var : (Instr.samp 0 4 0).wf Config.params = true ∧ (Instr.samp 0 5 0).wf Config.params = false := by
  decide
theorem test_wf_samp_shift : (Instr.samp 0 0 143).wf Config.params = true ∧ (Instr.samp 0 0 144).wf Config.params = false := by
  decide
theorem test_wf_thr_ring :
    (Instr.thr 5 .percentile false 0).wf Config.params = true ∧ (Instr.thr 6 .percentile false 0).wf Config.params = false := by
  decide
theorem test_wf_thr_bias :
    (Instr.thr 0 .percentile false 4).wf Config.params = true ∧ (Instr.thr 0 .percentile false 5).wf Config.params = false := by
  decide
theorem test_wf_sweep : (Instr.sweep 5).wf Config.params = true ∧ (Instr.sweep 6).wf Config.params = false := by decide
/-- The two ranges on length registers: `TXT_LEN = 150`, `CW_LEN = 158`. -/
theorem test_wf_lengths : legal { State.reset with txtLen := 150 } (.apred 8) = false ∧
    legal { State.reset with cwLen := 158 } (.valred 0) = false := by decide

/-! ### Words (V1 to V3), each written out from the format of R97 -/

theorem test_decode_encf : decode (0b0000000000000000000000#22 ++ 0b10#2 ++ 0b00000001#8) = .ok (.encf 2) := by decide
theorem test_decode_decf : decode (0b000000000000000000000000#24 ++ 0b00000010#8) = .ok .decf := by decide
theorem test_decode_apred : decode (0b0000000000000000#16 ++ 0b01000000#8 ++ 0b00000011#8) = .ok (.apred 64) := by decide
theorem test_decode_valred : decode (0b0000000000000000#16 ++ 0b11111111#8 ++ 0b00000100#8) = .ok (.valred 255) := by decide
theorem test_decode_mapb : decode (0b0000000000000#13 ++ 0b10100111111#11 ++ 0b00000101#8) = .ok (.mapb 1343) := by decide
theorem test_decode_maps : decode (0b0000000000#10 ++ 0b00100101111#11 ++ 0b101#3 ++ 0b00000110#8) = .ok (.maps 5 303) := by
  decide
theorem test_decode_samp :
    decode (0b0000000#7 ++ 0b00000000110#11 ++ 0b001#3 ++ 0b010#3 ++ 0b00000111#8) = .ok (.samp 2 1 6) := by decide
theorem test_decode_thr :
    decode (0b0000000000000000#16 ++ 0b010#3 ++ 0b0#1 ++ 0b1#1 ++ 0b011#3 ++ 0b00001000#8) = .ok (.thr 3 .histogram false 2) := by
  decide
theorem test_decode_sweep : decode (0b000000000000000000000#21 ++ 0b101#3 ++ 0b00001001#8) = .ok (.sweep 5) := by decide
/-- V1, the other words whose fields are not all zero. -/
theorem test_decode_vectors : decode 0x00018A07 = .ok (.samp 2 1 6) ∧ decode 0x0023C007 = .ok (.samp 0 0 143) ∧
    decode 0x00001008 = .ok (.thr 0 .percentile true 0) ∧ decode 0x00004B08 = .ok (.thr 3 .histogram false 2) := by decide
/-- V2. -/
theorem test_decode_reserved : [0x00000000, 0x0000000A, 0x000000FF, 0x12345600].map decode
    = List.replicate 4 (.error .reservedOpcode) := by decide +kernel
/-- V3. -/
theorem test_decode_must_be_zero : [0x00000401, 0x00000102, 0x00010803, 0x00080005, 0x00400006, 0x02000007, 0x00010008,
    0x00000809].map decode = List.replicate 8 (.error .mustBeZero) := by decide +kernel

/-! ### One step of each command -/

/-- V2: `0x0000000A` after reset. -/
theorem test_step_reserved : result statusWord (step (State.reset.withFetchWord 32 0xA)) = some 0x00000A82 := by decide +kernel
/-- V6: `MAPB 0` from reset, placed where the engine takes its next command. -/
theorem test_step_mapb : result statusWord (step (State.reset.withFetchWord 32 0x5)) = some 0x00000512 := by decide +kernel
/-- V10. -/
theorem test_mapb : (result (fun t => mapRsWord t.mapRs) (exec (.mapb 319) State.reset),
    result (fun t => mapRsWord t.mapRs) (exec (.mapb 1343) State.reset)) = (some 0x00000579, some 0x0000097D) := by decide +kernel
/-- V11. -/
theorem test_maps : (result (·.mapIdx) (exec (.maps 1 175) State.reset),
    result (·.mapIdx) (exec (.maps 5 303) State.reset)) = (some 319, some 1343) := by decide +kernel
/-- V36: `AA 55`, four bytes; and three bytes whose products cancel. -/
theorem test_apred : result (fun t => (t.redLen, Memory.readRun t.mem redBase 4)) (exec (.apred 4) (withTxt [0xAA, 0x55]))
    = some (4, some [0xFF, 0xFE, 0x01, 0xFC]) := by decide +kernel
theorem test_apred_order : result (fun t => Memory.readRun t.mem redBase 8) (exec (.apred 8) (withTxt [0x01, 0x02, 0x03]))
    = some (some [0x00, 0x00, 0x0C, 0x00, 0x00, 0x18, 0x1C, 0x00]) := by decide +kernel
/-- V41: exactly four fifths pass. -/
theorem test_valred : result outcome (exec (.valred 8) (withCw [0, 0, 0, 0, 0x41, 9, 9, 9, 9, 9, 9, 9, 9]))
    = some (.ok, some [0, 0, 0, 0, 0x41], 0, 0, 0x41) := by decide +kernel
/-- V42: five fifths do not. -/
theorem test_valred_fails : result outcome (exec (.valred 8) (withCw [0, 0, 0, 0, 0, 9, 9, 9, 9, 9, 9, 9, 9]))
    = some (.redundancyValidationFailed, some [], 0, 0, 0) := by decide +kernel
/-- V20, the first 13 packed bytes and the last 8. -/
theorem test_encf : result (fun t => (packed t 0 13, packed t 160 8)) (exec (.encf 0) (withTxt [0x48, 0x69])) = some
    ([0xAA, 0xAA, 0xAA, 0xAA, 0x01, 0x00, 0x00, 0x02, 0x00, 0x08, 0x0B, 0x48, 0x69],
     [0x21, 0x42, 0xE3, 0x84, 0x65, 0xC6, 0x27, 0x08]) := by decide +kernel
/-- V6: `TXT_LEN = 150` at level 0, whatever `TXT` holds. -/
theorem test_encf_too_large :
    result statusWord (step (State.withFetchWord { State.reset with txtLen := 150 } 32 0x1)) = some 0x00000122 := by decide +kernel
/-- V20, the decode. -/
theorem test_decf : result outcome (exec .decf (withFrame [0x01, 0x00, 0x00, 0x02, 0x00, 0x08, 0x0B, 0x48, 0x69, 0, 0, 0, 0, 0, 0, 0, 0]))
    = some (.ok, some [0x48, 0x69], 0x00020001, 0x0B0B0008, 0x21) := by decide +kernel
/-- V28: the checksum byte's last bit flipped. -/
theorem test_decf_checksum : result outcome (exec .decf (withFrame [0x01, 0x00, 0x00, 0x02, 0x00, 0x08, 0x0A]))
    = some (.headerChecksumMismatch, some [], 0x00020001, 0x0B0A0008, 0) := by decide +kernel
/-- V51: every tap 255. -/
theorem test_samp : result (fun t => (Memory.read t.ints 0, Memory.read t.ints 9, Memory.read t.ints 10))
    (exec (.samp 0 0 8) { withTap (.pixel 255) with params := { Config.params with ring0 := 10 } })
    = some (some 0x001817E8, some 0x001817E8, none) := by decide +kernel
/-- V51: taps at `d = +1` out of bounds. -/
theorem test_samp_out_of_bounds : sectorEntry { State.reset with
      taps := .table [{ var := none, ring := none, sector := none, sub := none, offset := some 1, shift := none,
                        answer := .outOfBounds }] (.pixel 255) } 0 5 0 0 = some 0x00100FF0 := by decide +kernel

/-- The ring of V60. -/
def ringV60 : List Word :=
  [0x100C8, 0x10028, 0x100D2, 0x10023, 0x100DC, 0x10032, 0x100CD, 0x1002D, 0x100D7, 0x1001E]

/-- V60, bias 0. -/
theorem test_thr_percentile : result (fun t => Memory.readRun t.bits 0 10) (exec (.thr 0 .percentile false 0) (withRing ringV60))
    = some (some [false, true, false, true, false, true, false, true, false, true]) := by decide +kernel
/-- V61, bias 3: 45 is not below 45. -/
theorem test_thr_histogram : result (fun t => Memory.readRun t.bits 0 10) (exec (.thr 0 .histogram false 3) (withRing ringV60))
    = some (some [false, true, false, true, false, false, false, false, false, true]) := by decide +kernel
/-- V81 and V6. -/
theorem test_sweep_none : result (fun t => (statusWord t, t.hypCnt, hypWord t.hyp, progressWord t.progress, t.events))
    (step (State.reset.withFetchWord 32 0x9)) = some (0x00000972, 0, 0, 0, []) := by decide +kernel
/-- V82, the registers of a sweep over two variants. -/
theorem test_hyp_progress_words :
    hypWord { var := 1, inv := true, bias := 4, mode := true, shift := 140, valid := true } = 0x80008CC9 ∧
    progressWord { var := 1, nv := 2, count := 2 } = 0x00000221 := by decide
/-- V50: an angle that wraps. -/
theorem test_theta : theta Config.params 0 143 7 140 = 3727 / 3840 ∧ theta Config.params 1 3 2 8 = 9479 / 126720 := by
  decide +kernel
/-- V13. -/
theorem test_arc : arcSpan Config.params 0 3 = (31 / 1440, 39 / 1440) := by decide +kernel
/-! ### Witnesses: hypotheses that are met together -/

/-- A step that leaves something has a next state. -/
theorem next_of {o : StepOutcome} (h : (result id o).isSome = true) : ∃ t, o = .next t := by
  cases o with
  | next t => exact ⟨t, rfl⟩
  | fault f => cases h
  | refused r => cases h

/-- EncodeOfDecode. -/
theorem test_meets_encode_of_decode : decode 0x00097D06 = .ok (.maps 5 303) := by decide
/-- StepRunsTheAcceptedCommand, each clause. -/
theorem test_meets_step_runs : (running 0x5 []).cmd = some 0x5 ∧ decode 0x5 = .ok (.mapb 0) ∧
    (running 0x5 []).inputs = [] ∧ (running 0x5 [.engine, .rst]).inputs = .engine :: [.rst] := by decide
/-- PlacedWordRunsNext, at the first and at the last opcode. -/
theorem test_meets_placed_word : decodeTableWord 32 0x00000301 = some (.encf 3) ∧
    decodeTableWord 32 0x00000509 = some (.sweep 5) := by decide
/-- WordOutsideTheTableIsIllegal: a reserved opcode, and a must-be-zero bit. -/
theorem test_meets_word_outside : ∀ w ∈ [(0x0A : Word), 0x00080005],
    (running w []).cmd = some w ∧ (running w []).inputs = [] ∧ (running w [.engine, .rst]).inputs = .engine :: [.rst] ∧
    ¬ FitsTable w := by
  intro w hw
  refine ⟨rfl, rfl, rfl, ?_⟩
  fin_cases hw <;> unfold FitsTable <;> decide
/-- OperandRangesDecideIllegality, and the illegal clauses of MapbFindsTheOwningSector, MapsGivesTheLinearIndex,
ApredWritesTheRedundancyBytes and SampWritesSumAndCount: the first value out of each range. -/
theorem test_meets_out_of_range : ¬ InRange State.reset (.apred 65) ∧ ¬ InRange { State.reset with txtLen := 150 } (.apred 64) ∧
    ¬ InRange { State.reset with cwLen := 158 } (.valred 0) ∧ ¬ InRange State.reset (.mapb 1344) ∧
    ¬ InRange State.reset (.maps 6 0) ∧ ¬ InRange State.reset (.maps 5 304) ∧ ¬ InRange State.reset (.samp 6 0 0) ∧
    ¬ InRange State.reset (.samp 0 5 0) ∧ ¬ InRange State.reset (.samp 0 0 144) ∧
    ¬ InRange State.reset (.thr 6 .percentile false 0) ∧ ¬ InRange State.reset (.thr 0 .percentile false 5) ∧
    ¬ InRange State.reset (.sweep 6) := by
  simp only [InRange]; decide
/-- OperandRangesDecideIllegality: the last value of a range, and the command runs to its completion. -/
theorem test_meets_in_range : InRange (running 0x53F05 []) (.mapb 1343) ∧ ∃ t,
    exec (.mapb 1343) (running 0x53F05 []) = .next t ∧ (running 0x53F05 []).busy = true ∧ t.busy = false :=
  ⟨by simp only [InRange]; decide, _, rfl, rfl, rfl⟩
/-- CommandCompletesOrWaits, each disjunct: one command completes, one waits. -/
theorem test_meets_completes_or_waits : (∃ t, exec (.sweep 0) State.reset = .next t) ∧
    ∃ t, exec (.samp 0 0 0) (withTap .silent) = .next t := ⟨⟨_, rfl⟩, ⟨_, rfl⟩⟩
/-- StepKeepsInvariant: a state with a byte of `TXT`, a result byte and a bit written, and a host write about to land. -/
def busyHost : State :=
  { State.reset with
    mem := [(0x100, 0x48), (0x300, 0x48)], bits := [(1343, true)], outLen := 1, done := true, code := .ok
    inputs := [.host (.write 0x194 .byte 0x41)] }
theorem test_meets_step_keeps_invariant : Inv busyHost ∧ ∃ t, step busyHost = .next t := by
  refine ⟨⟨by decide, by decide, by decide, by decide, by decide, by decide, by decide, by decide, ?_, by decide, ?_, by decide,
    by decide, by decide, by decide, by decide, by decide⟩, _, rfl⟩
  · intro i hi; obtain rfl : i = 0 := by have : i < 1 := hi
                                         omega
    exact ⟨0x48, rfl⟩
  · intro i hi; exact absurd hi (by simp [busyHost, State.reset])
/-- ConstantRegistersNeverChange: a command's step, and a write to a constant register. -/
theorem test_meets_constant_registers_never_change : (∃ t, step (running 0x5 []) = .next t) ∧
    ∃ t, step { State.reset with inputs := [.host (.write 0x5C .word 0)] } = .next t := ⟨⟨_, rfl⟩, ⟨_, rfl⟩⟩
/-- CommandsLeaveOperandsOfTheHost and OnlyTheNamedCommandsWrite: two commands that fall under different exceptions. -/
theorem test_meets_frames : (∃ t, exec (.mapb 7) State.reset = .next t) ∧ ∃ t, exec (.maps 1 7) State.reset = .next t :=
  ⟨⟨_, rfl⟩, ⟨_, rfl⟩⟩
/-- CmdWriteStartsCommand. -/
theorem test_meets_cmd_write : (State.reset).busy = false ∧
    ({ State.reset with inputs := [.host (.write 0 .word 0x5)] } : State).inputs = .host (.write 0 .word 0x5) :: [] := by decide
/-- HostAccessWhileBusy, each clause. -/
theorem test_meets_access_while_busy : ∀ a ∈ [HostAccess.write 0 .word 0x5, .read 0x004 .word, .read 0x008 .word],
    (running 0x5 [.host a]).busy = true ∧ (running 0x5 [.host a]).inputs = .host a :: [] := fun _ _ => ⟨rfl, rfl⟩
/-- StatusShowsItsFields, HostByteIsReadBack, WordWriteIsFourByteWrites: an idle block. -/
theorem test_meets_idle : (State.reset).busy = false := rfl
/-- HostReadHasNoSideEffect: a value, an unspecified read, an unwritten byte, and a write. -/
theorem test_meets_host_access : let s := fun a => ({ State.reset with inputs := [.host a] } : State)
    (s (.read 0x05C .word)).inputs = .host (.read 0x05C .word) :: [] ∧
    (∃ t, step (s (.read 0x05C .word)) = .next t) ∧
    hostRead State.reset 0x05C .word = .value 0x00481101 ∧ hostRead State.reset 0x05C .byte = .unspecified ∧
    hostRead State.reset 0x100 .byte = .unwritten .txt ∧
    (s (.write 0x008 .word 2)).inputs = .host (.write 0x008 .word 2) :: [] :=
  ⟨rfl, ⟨_, rfl⟩, by decide, by decide, by decide, rfl⟩
/-- ReadOnlyAndUnmappedLocations: read-only and unmapped writes at their edges. -/
theorem test_meets_read_only_write : ∀ a ∈ [0x004, 0x007, 0x010, 0x05F, 0x195, 0x29D, 0x300, 0x440, 0x4FF, 0x5A8, 0xFFF, 0x2500],
    ¬ HostWritable a := by unfold HostWritable; decide
/-- ReadOnlyAndUnmappedLocations: `CMD`, and unmapped reads at their edges. -/
theorem test_meets_unmapped_read : (State.reset).busy = false ∧ ¬ RefusedAccess 0 .word ∧
    (∀ c ∈ [(0x038, AccessSize.word), (0x060, .word), (0x0FF, .byte), (0x196, .half), (0x5A8, .word), (0xFFE, .half), (0x3FFC, .word)],
      ¬ RefusedAccess c.1 c.2 ∧ ∀ j < sizeBytes c.2, Unmapped (c.1 + j)) := by
  unfold RefusedAccess WordOnly Unmapped; decide
/-- RefusedAccessHasNoEffect, each reason at its edges. -/
theorem test_meets_refused_access : ∀ c ∈ [(0x101, AccessSize.half), (0x102, .word), (0x05F, .byte), (0x038, .half), (0x1000, .byte),
    (0x24FE, .half)], RefusedAccess c.1 c.2 := by unfold RefusedAccess WordOnly; decide
/-- HostByteIsReadBack, both buffers at both ends. -/
theorem test_meets_host_byte : (State.reset).busy = false ∧ ∀ a ∈ [0x100, 0x194, 0x200, 0x29C], HostByteBuffer a := by
  unfold HostByteBuffer; decide
/-- HostByteIsReadBack: the ends of the four byte buffers. -/
theorem test_meets_byte_of : ByteOf 0x100 .txt ∧ ByteOf 0x194 .txt ∧ ByteOf 0x200 .cw ∧ ByteOf 0x29C .cw ∧ ByteOf 0x300 .out ∧
    ByteOf 0x39C .out ∧ ByteOf 0x400 .red ∧ ByteOf 0x43F .red := by simp [ByteOf]
/-- HostByteIsReadBack: a byte of `OUT` that is written, one of `RED` that is not, and the last bit and entry, unwritten. -/
theorem test_meets_buffer_reads : let s : State := { State.reset with mem := [(0x39C, 0x41)] }
    Memory.read s.mem 0x39C = some 0x41 ∧ Memory.read s.mem 0x43F = none ∧ Memory.read s.bits (8 * 167 + 7) = none ∧
    Memory.read s.ints 1343 = none := by decide
/-- WordWriteIsFourByteWrites: reads of two and of four bytes, the last past the end of `TXT`, and one over an unwritten byte. -/
theorem test_meets_wide_reads : let s : State := { State.reset with mem := [(0x190, 1), (0x191, 2), (0x192, 3), (0x194, 5)] }
    hostRead s 0x190 .byte = .value (0#24 ++ 1#8) ∧ hostRead s (0x190 + 1) .byte = .value (0#24 ++ 2#8) ∧
    hostRead s 0x194 .byte = .value (0#24 ++ 5#8) ∧ hostRead s (0x194 + 1) .byte = .value (0#24 ++ 0#8) ∧
    hostRead s (0x194 + 2) .byte = .value (0#24 ++ 0#8) ∧ hostRead s (0x194 + 3) .byte = .value (0#24 ++ 0#8) ∧
    (∀ i < 3, (hostRead s (0x190 + BitVec.ofNat 14 i) .byte matches .value _) = true) ∧
    hostRead s (0x190 + BitVec.ofNat 14 3) .byte = .unwritten .txt := by decide +kernel
/-- WordWriteIsFourByteWrites, inside a buffer and across the end of one. -/
theorem test_meets_word_write : ∀ a ∈ [0x100, 0x194, 0x29C, 0x5A4, 0xFFC], a % 4 = 0 ∧ ¬ WordOnly a := by
  unfold WordOnly; decide
/-- PackedBitsAreMostSignificantFirst, the last packed byte. -/
theorem test_meets_packed_bits : (State.reset).busy = false ∧ 167 < 168 ∧
    ByteAt ({ State.reset with bits := Memory.cellsFrom 1336 (byteBits 0xA5) } : State).bits (8 * 167) 0xA5 := by
  unfold ByteAt; decide +kernel
/-- IntWordIsStoredWhole, the last entry. -/
theorem test_meets_int_word : (State.reset).busy = false ∧ 1343 < 1344 := by decide
/-- ConstantRegistersShowTheConstants, with a ring of one sector. -/
theorem test_meets_constant_registers : ({ State.reset with params := headRing } : State).busy = false ∧ headRing.Valid := by
  decide
/-- ResetGivesTheResetState, while a command runs. -/
theorem test_meets_reset : (running 0x109 [.rst]).inputs = .rst :: [] := rfl
/-- SurfacesAreFrozenWhileSampling, each clause. -/
theorem test_meets_surfaces : (running 0x00020007 [.surfaces (.free 1)]).cmd = some 0x00020007 ∧
    decode 0x00020007 = .ok (.samp 0 0 8) ∧ InRange State.reset (.samp 0 0 8) ∧ decode 0x509 = .ok (.sweep 5) ∧
    InRange State.reset (.sweep 5) ∧ (running 0x00020007 [.surfaces (.free 1)]).inputs = .surfaces (.free 1) :: [] ∧
    ({ State.reset with inputs := [.surfaces (.free 1)] } : State).busy = false := by
  unfold InRange; decide
/-- MapbFindsTheOwningSector, MapsGivesTheLinearIndex, MapperIsABijection: the ends of the ranges. -/
theorem test_meets_mapper : (State.reset).params.Valid ∧ (1343#11).toNat ≤ 1343 ∧ (5#3).toNat ≤ 5 ∧
    (303#11).toNat < (State.reset).params.sectors (5#3).toNat := by decide
/-- ApredWritesTheRedundancyBytes, with no byte, and with the longest text and the most redundancy. -/
theorem test_meets_apred : ∀ c ∈ [((0 : BitVec 8), ([] : List Byte)), (64, List.replicate 149 0x78)],
    c.1.toNat ≤ 64 ∧ (withTxt c.2).txtLen.toNat ≤ 149 ∧
    ∀ j < (withTxt c.2).txtLen.toNat, Memory.read (withTxt c.2).mem (0x100 + j) = some (fn c.2 j) := by decide +kernel
/-- ApredIsSymmetricAndIgnoresZeros: the two orders of V36, and the last index. -/
theorem test_meets_apred_symmetric : List.Perm [(0x48 : Byte), 0x69] [0x69, 0x48] ∧ 0 < 1 ∧ 63 < 64 := by decide
/-- ValredDeliversTheData: V41 and V43, the limit of the filter. -/
theorem test_meets_valred : ∀ c ∈ [((8 : BitVec 8), [(0 : Byte), 0, 0, 0, 0x41, 9, 9, 9, 9, 9, 9, 9, 9]),
      (0, [0, 0xFF, 0, 0xFF, 0, 0xFF, 0, 0xFF, 0x41, 0x42])],
    (withCw c.2).cwLen.toNat ≤ 157 ∧ c.1.toNat < (withCw c.2).cwLen.toNat ∧
    (∀ j < (withCw c.2).cwLen.toNat, Memory.read (withCw c.2).mem (0x200 + j) = some (fn c.2 j)) ∧
    5 * suspects ((withCw c.2).cwLen.toNat - c.1.toNat) (fn c.2) ≤ 4 * ((withCw c.2).cwLen.toNat - c.1.toNat) := by
  unfold suspects; decide +kernel
/-- ValredRejects: V48 (no data left, `dl = 0`) and V44 (nine of ten). -/
theorem test_meets_valred_rejects : ∀ c ∈ [((8 : BitVec 8), List.replicate 8 (0x41 : Byte)),
      (0, [0, 0xFF, 0, 0xFF, 0, 0xFF, 0, 0xFF, 0xFF, 0x42])],
    (withCw c.2).cwLen.toNat ≤ 157 ∧
    (∀ j < (withCw c.2).cwLen.toNat, Memory.read (withCw c.2).mem (0x200 + j) = some (fn c.2 j)) ∧
    ((withCw c.2).cwLen.toNat ≤ c.1.toNat ∨ (c.1.toNat < (withCw c.2).cwLen.toNat ∧
      4 * ((withCw c.2).cwLen.toNat - c.1.toNat) < 5 * suspects ((withCw c.2).cwLen.toNat - c.1.toNat) (fn c.2))) := by
  unfold suspects; decide +kernel
/-- EncfWritesTheFrame: the empty text and the longest of level 3. -/
theorem test_meets_encf : ∀ c ∈ [((0 : BitVec 2), ([] : List Byte)), (3, List.replicate 93 0x78)],
    (withTxt c.2).txtLen.toNat ≤ payloadLimit c.1.toNat ∧
    ∀ j < (withTxt c.2).txtLen.toNat, Memory.read (withTxt c.2).mem (0x100 + j) = some (fn c.2 j) := by decide +kernel
/-- EncfRefusesALongerText: V23, the first length too long of two levels, and V5. -/
theorem test_meets_encf_refuses : ∀ c ∈ [((0 : BitVec 2), 150), (3, 94), (3, 65535)],
    payloadLimit c.1.toNat < ({ State.reset with txtLen := BitVec.ofNat 16 c.2 } : State).txtLen.toNat ∧
    result (·.code) (exec (.encf c.1) { State.reset with txtLen := BitVec.ofNat 16 c.2 }) = some .payloadTooLarge := by decide
/-- EncfIsDeterministic: two states with equal operands and different results. -/
theorem test_meets_encf_deterministic : let s := withTxt [0x48, 0x69]
    let s' := { s with outLen := 7, bits := [(0, false)] }
    s.params = s'.params ∧ s.txtLen = s'.txtLen ∧
    (∀ j < s.txtLen.toNat, Memory.read s.mem (0x100 + j) = Memory.read s'.mem (0x100 + j)) ∧
    s.txtLen.toNat ≤ payloadLimit (0#2).toNat ∧ (∃ t, exec (.encf 0) s = .next t) ∧ ∃ t, exec (.encf 0) s' = .next t :=
  ⟨rfl, rfl, fun _ _ => rfl, by decide, ⟨_, rfl⟩, ⟨_, rfl⟩⟩
/-- A header and codeword written as bytes are what the statements about `DECF` ask for. -/
theorem withFrame_is (l : List Byte) {j : Nat} (h : j < l.length) : ByteAt (withFrame l).bits (32 + 8 * j) (fn l j) := by
  intro k hk
  show Memory.read (Memory.cellsFrom 32 (flattenBytes l)) _ = _
  rw [Memory.read_cellsFrom, if_pos (by omega), show 32 + 8 * j + k - 32 = 8 * j + k by omega]
  exact flattenBytes_getElem? (by simp [fn, List.getD, h]) hk
/-- DecfReportsTheFirstFailingCheck: V28 (checksum), V24 (no payload), V31 and V32 (capacity). -/
theorem test_meets_decf_reports : ∀ l ∈ [[(0x01 : Byte), 0, 0, 2, 0, 8, 0x0A], [1, 0, 0, 0, 0, 8, 9], [1, 4, 0, 2, 0, 8, 0x0F],
      [1, 0, 0, 0x96, 0, 8, 0x9F]], HeaderIs (withFrame l) (fn l) ∧ ¬ HeaderAccepted (fn l) := by
  intro l hl
  refine ⟨fun j hj => withFrame_is l ?_, ?_⟩
  · fin_cases hl <;> exact hj
  · fin_cases hl <;> unfold HeaderAccepted <;> decide
/-- DecfDeliversThePayload: V33, the limit of the filter; and V32, the whole capacity. -/
theorem test_meets_decf_delivers : ∀ l ∈ [[(0x01 : Byte), 0, 0, 5, 0, 8, 0x0E, 0, 0, 0, 0, 0x41, 0, 0, 0, 0, 0, 0, 0, 0],
      [1, 0, 0, 0x95, 0, 8, 0x9E] ++ List.replicate 157 0x41],
    HeaderIs (withFrame l) (fn l) ∧ HeaderAccepted (fn l) ∧
    (∀ c < payLenOf (fn l) + redLenOf (fn l), ByteAt (withFrame l).bits (88 + 8 * c) (fn (l.drop 7) c)) ∧
    5 * suspects (payLenOf (fn l)) (fn (l.drop 7)) ≤ 4 * payLenOf (fn l) := by
  intro l hl
  have hlen : 7 + (payLenOf (fn l) + redLenOf (fn l)) = l.length := by fin_cases hl <;> decide +kernel
  refine ⟨fun j hj => withFrame_is l (by omega), ?_, fun c hc => ?_, ?_⟩
  · fin_cases hl <;> unfold HeaderAccepted <;> decide
  · have := withFrame_is l (j := 7 + c) (by omega)
    rwa [show 32 + 8 * (7 + c) = 88 + 8 * c by omega, show fn l (7 + c) = fn (l.drop 7) c by simp [fn, List.getD]] at this
  · fin_cases hl <;> unfold suspects <;> decide +kernel
/-- DecfRejectsACorruptPayload: V33, five of five. -/
theorem test_meets_decf_rejects : let l : List Byte := [0x01, 0, 0, 5, 0, 8, 0x0E, 0, 0, 0, 0, 0xFF, 0, 0, 0, 0, 0, 0, 0, 0]
    HeaderIs (withFrame l) (fn l) ∧ HeaderAccepted (fn l) ∧
    (∀ c < payLenOf (fn l) + redLenOf (fn l), ByteAt (withFrame l).bits (88 + 8 * c) (fn (l.drop 7) c)) ∧
    4 * payLenOf (fn l) < 5 * suspects (payLenOf (fn l)) (fn (l.drop 7)) := by
  unfold HeaderIs HeaderAccepted ByteAt suspects; decide +kernel
/-- DecfIgnoresStartPatternAndTail: V20's frame, and the same with other bits before and after; and
DecfReportsTheFirstFailingCheck, the clause about a header that passes. -/
theorem test_meets_decf_ignores : let l : List Byte := [0x01, 0, 0, 2, 0, 8, 0x0B, 0x48, 0x69, 0, 0, 0, 0, 0, 0, 0, 0]
    let bits := [(0, true), (31, false)] ++ (withFrame l).bits ++ [(168, true), (1343, true)]
    HeaderIs (withFrame l) (fn l) ∧ HeaderAccepted (fn l) ∧
    (∀ p, 32 ≤ p → p < 88 + 8 * (payLenOf (fn l) + redLenOf (fn l)) → Memory.read bits p = Memory.read (withFrame l).bits p) ∧
    ∃ t, exec .decf (withFrame l) = .next t := by
  refine ⟨fun j hj => withFrame_is _ (by simp; omega), ?_, fun p h1 h2 => ?_, ?_⟩
  · unfold HeaderAccepted; decide
  · revert p; unfold payLenOf redLenOf; decide +kernel
  · exact next_of (by decide +kernel)
/-- HeaderBitFlipIsDetected: V28, the last bit of the ecc byte. -/
theorem test_meets_header_bit_flip : let l : List Byte := [0x01, 0, 0, 2, 0, 8, 0x0B]
    let m : List Byte := [0x01, 1, 0, 2, 0, 8, 0x0B]
    1 < 7 ∧ 0 < 8 ∧ checksumOf (fn l) = (fn l 6).toNat ∧
    HeaderIs (withFrame m) (fun i => if i = 1 then fn l i ^^^ (1#8 <<< 0) else fn l i) := by
  refine ⟨by decide, by decide, by decide, ?_⟩
  unfold HeaderIs ByteAt; decide +kernel
/-- RoundTripReturnsTheText: V20, and the longest text of level 0. -/
theorem test_meets_round_trip : ∀ c ∈ [((0 : BitVec 2), [(0x48 : Byte), 0x69]), (0, List.replicate 149 0x78)],
    1 ≤ (withTxt c.2).txtLen.toNat ∧ (withTxt c.2).txtLen.toNat ≤ payloadLimit c.1.toNat ∧
    (∀ j < (withTxt c.2).txtLen.toNat, Memory.read (withTxt c.2).mem (0x100 + j) = some (fn c.2 j)) ∧
    5 * suspects (withTxt c.2).txtLen.toNat (fn c.2) ≤ 4 * (withTxt c.2).txtLen.toNat := by
  unfold suspects; decide +kernel
/-- UniformBitstreamsAreRejected: V25 and V27. -/
theorem test_meets_uniform (v : Bool) : ∀ p < 1344,
    Memory.read ({ State.reset with bits := Memory.cellsFrom 0 (List.replicate 1344 v) } : State).bits p = some v := by
  intro p hp
  rw [Memory.read_cellsFrom, if_pos (Nat.zero_le _), Nat.sub_zero, List.getElem?_replicate, if_pos hp]

/-- What a result says of the next state. -/
theorem next_with {α : Type} {f : State → α} {o : StepOutcome} {v : α} (h : result f o = some v) :
    ∃ t, o = .next t ∧ f t = v := by
  cases o with
  | next t => exact ⟨t, rfl, Option.some.inj h⟩
  | fault f => cases h
  | refused r => cases h

/-- SampWritesSumAndCount: the last ring, variant and shift; taps at `d = +1` are out of bounds. -/
theorem test_meets_samp : let s : State := { State.reset with
      taps := .table [{ var := none, ring := none, sector := none, sub := none, offset := some 1, shift := none,
                        answer := .outOfBounds }] (.pixel 255) }
    let tap : TapRequest → Option Byte := fun q => if q.offset = 1 then none else some 255
    (5#3).toNat ≤ 5 ∧ (4#3).toNat ≤ 4 ∧ (143#11).toNat < s.params.sectors 0 ∧
    ∀ sct < s.params.sectors 5, ∀ k < 8, ∀ j < 2 * s.params.radiusTap.toNat + 1,
      tapAnswer s.taps (requestAt s 4 5 sct 143 k j) = answerOf (tap (requestAt s 4 5 sct 143 k j)) := by
  refine ⟨by decide, by decide, by decide, fun sct _ k _ j _ => ?_⟩
  generalize requestAt _ 4 5 sct 143 k j = q
  by_cases h : (1 : Int) = q.offset
  · simp [tapAnswer, rowMatches, fieldMatches, List.find?, h.symm, answerOf]
  · simp [tapAnswer, rowMatches, fieldMatches, List.find?, h, Ne.symm h, answerOf]
/-- SampWaitsForASilentUnit. -/
theorem test_meets_samp_waits : (5#3).toNat ≤ 5 ∧ (4#3).toNat ≤ 4 ∧ (143#11).toNat < (withTap .silent).params.sectors 0 ∧
    ¬ RingAnswered (withTap .silent) 4 5 143 :=
  ⟨by decide, by decide, by decide, fun h => h 0 (by decide) { var := 4, ring := 5, sector := 0, sub := 0, offset := -1, shift := 143 }
    (by decide) rfl⟩
/-- SampledIntensitiesAreBytes: a running `SAMP` that completes. -/
theorem test_meets_sampled : let s : State := { withTap (.pixel 255) with params := { Config.params with ring0 := 10 }, cmd := some 0x7 }
    s.busy = true ∧ ∃ t, exec (.samp 0 0 0) s = .next t ∧ (t.code, t.busy) = (.ok, false) :=
  ⟨rfl, next_with (by decide +kernel)⟩
/-- The intensities of V60. -/
def valuesV60 : List Rat := [200, 40, 210, 35, 220, 50, 205, 45, 215, 30]
/-- ThrPercentileWritesTheBits: V60. -/
theorem test_meets_thr_percentile : RingValues (withRing ringV60) 0 valuesV60 ∧
    [30, 35, 40, 45, 50, 200, 205, 210, 215, 220].Perm valuesV60 ∧
    ([30, 35, 40, 45, 50, 200, 205, 210, 215, 220] : List Rat).Pairwise (· ≤ ·) ∧
    ([30, 35, 40, 45, 50, 200, 205, 210, 215, 220] : List Rat)[3 * valuesV60.length / 10]? = some 45 ∧
    ([30, 35, 40, 45, 50, 200, 205, 210, 215, 220] : List Rat)[7 * valuesV60.length / 10]? = some 210 := by
  refine ⟨⟨rfl, fun i hi => ?_⟩, by decide +kernel, by decide +kernel, by decide +kernel, by decide +kernel⟩
  have : i < 10 := hi
  interval_cases i <;> exact ⟨_, rfl, by decide +kernel⟩
/-- PercentileTestIsTheIntegerTest: V60, the first sector, written as a fraction, and its two percentiles. -/
theorem test_meets_integer_test : valuesV60[0]? = some (((400 : Nat) : Rat) / ((2 : Nat) : Rat)) ∧
    ([30, 35, 40, 45, 50, 200, 205, 210, 215, 220] : List Rat)[3 * valuesV60.length / 10]? = some (((90 : Nat) : Rat) / ((2 : Nat) : Rat)) ∧
    ([30, 35, 40, 45, 50, 200, 205, 210, 215, 220] : List Rat)[7 * valuesV60.length / 10]? = some (((210 : Nat) : Rat) / ((1 : Nat) : Rat)) ∧
    0 < 2 ∧ 0 < 1 := by decide +kernel
/-- ThrHistogramWritesTheBits: V61, whose best split is 50; and V63, where there is no split. -/
theorem test_meets_thr_histogram : RingValues (withRing ringV60) 0 valuesV60 ∧ IsBestSplit (valuesV60.map binAt) 50 ∧
    RingValues (withRing (List.replicate 10 0x10064)) 0 (List.replicate 10 100) ∧
    IsBestSplit ((List.replicate 10 100).map binAt) 0 := by
  refine ⟨test_meets_thr_percentile.1, .inl ⟨?_, fun t h => ?_⟩, ⟨rfl, fun i hi => ?_⟩, .inr ⟨rfl, fun t h => ?_⟩⟩
  · unfold Splits; decide +kernel
  · have key : ∀ t < 256, ((∃ b ∈ valuesV60.map binAt, b ≤ t) ∧ ∃ b ∈ valuesV60.map binAt, t < b) →
        scoreNum (valuesV60.map binAt) t * scoreDen (valuesV60.map binAt) 50
          ≤ scoreNum (valuesV60.map binAt) 50 * scoreDen (valuesV60.map binAt) t ∧
        (t < 50 → scoreNum (valuesV60.map binAt) t * scoreDen (valuesV60.map binAt) 50
          < scoreNum (valuesV60.map binAt) 50 * scoreDen (valuesV60.map binAt) t) := by
      rw [show valuesV60.map binAt = [200, 40, 210, 35, 220, 50, 205, 45, 215, 30] by decide +kernel]
      unfold scoreNum scoreDen; decide +kernel
    exact key t h.1 h.2
  · have : i < 10 := hi
    interval_cases i <;> exact ⟨_, rfl, by decide +kernel⟩
  · obtain ⟨-, ⟨b, hb, h1⟩, c, hc, h2⟩ := h
    rw [show (List.replicate 10 (100 : Rat)).map binAt = List.replicate 10 100 by decide +kernel] at hb hc
    have := List.eq_of_mem_replicate hb
    have := List.eq_of_mem_replicate hc
    omega
/-- HistogramSplitIsTheBest: the ends of the range. -/
theorem test_meets_split : ∀ b ∈ [255, 0], b < 256 := by decide
/-- ThrOnAConstantRing: a ring of one sector, with `c` positive and with `c = 0`. -/
theorem test_meets_constant_ring : ∀ c ∈ [((0x10064 : Word), (100 : Rat)), (0x10000, 0)],
    headRing.Valid ∧ 0 ≤ c.2 ∧ RingValues { State.reset with params := headRing, ints := [(96, c.1)] } 1 (List.replicate 1 c.2) := by
  intro c hc
  fin_cases hc <;> refine ⟨by decide, by decide +kernel, rfl, fun i hi => ?_⟩ <;>
    (obtain rfl : i = 0 := by have : i < 1 := hi
                              omega) <;> exact ⟨_, rfl, by decide +kernel⟩
/-- ThrReadsATwoValuedRing: V64, `m = 7` (the last that is read) and `m = 8` (the first that is not). -/
theorem test_meets_two_valued_ring : ∀ m ∈ [7, 8],
    RingValues (withRing (List.replicate m 0x10000 ++ List.replicate (10 - m) 0x100FF)) 0
      (List.replicate m 0 ++ List.replicate (10 - m) 255) ∧
    (∀ v ∈ List.replicate m (0 : Rat) ++ List.replicate (10 - m) 255, v = 0 ∨ v = 255) ∧
    0 < (List.replicate m (0 : Rat) ++ List.replicate (10 - m) 255).count 0 ∧
    (List.replicate m (0 : Rat) ++ List.replicate (10 - m) 255).count 0
      < (List.replicate m (0 : Rat) ++ List.replicate (10 - m) 255).length := by
  intro m hm
  fin_cases hm <;> refine ⟨⟨rfl, fun i hi => ?_⟩, by decide +kernel, by decide +kernel, by decide +kernel⟩ <;>
    (have : i < 10 := hi) <;> interval_cases i <;> exact ⟨_, rfl, by decide +kernel⟩
/-- UnwrittenOperandIsRefused, each clause. -/
theorem test_meets_unwritten : let s : State := { State.reset with txtLen := 1, cwLen := 1 }
    let l : List Byte := [0x01, 0, 0, 2, 0, 8, 0x0B]
    s.txtLen.toNat ≤ payloadLimit (0#2).toNat ∧ 0 < s.txtLen.toNat ∧ Memory.read s.mem (0x100 + 0) = none ∧
    InRange s (.apred 64) ∧ InRange s (.valred 255) ∧ 0 < s.cwLen.toNat ∧ Memory.read s.mem (0x200 + 0) = none ∧
    (∀ p, 32 ≤ p → p < 88 → Memory.read s.bits p = none) ∧
    HeaderIs (withFrame l) (fn l) ∧ HeaderAccepted (fn l) ∧ 88 < 88 + 8 * (payLenOf (fn l) + redLenOf (fn l)) ∧
    Memory.read (withFrame l).bits 88 = none ∧
    InRange s (.thr 5 .histogram true 4) ∧ Memory.read s.ints (offset s.params 5 + 303) = none := by
  refine ⟨by decide, by decide, rfl, ?_, ?_, by decide, rfl, fun _ _ _ => rfl, fun j hj => withFrame_is _ hj, ?_, by decide,
    by decide +kernel, ?_, rfl⟩
  · unfold InRange; decide
  · unfold InRange; decide
  · unfold HeaderAccepted; decide
  · unfold InRange; decide
/-- SubsamplesLieInsideTheirSector: the last sub-sample of the last sector. -/
theorem test_meets_subsamples : Config.params.Valid ∧ 5 < 6 ∧ 303 < Config.params.sectors 5 ∧ 7 < 8 := by decide

/-! ### Witnesses of the statements about `SWEEP` -/

theorem headRing_valid : headRing.Valid := by decide

/-- A table without a silent row answers everything. -/
theorem table_answers {rows : List TapRow} {other : TapAnswer} (h : ∀ r ∈ rows, r.answer ≠ .silent) (ho : other ≠ .silent)
    (q : TapRequest) : tapAnswer (.table rows other) q ≠ .silent := by
  unfold tapAnswer
  dsimp only
  split
  · rename_i r hr; exact h r (List.mem_of_find?_eq_some hr)
  · exact ho

/-- What a hypothesis reads in ring 0. -/
def ringZero (s : State) (h : Hypothesis) : Option (List Bool) :=
  (allSome ((List.range (s.params.sectors 0)).map (sectorEntry s h.var 0 h.shift))).map fun es =>
    thrBits h.mode h.inv h.bias (es.map intensity)

/-- The bits of ring 0 after the twelve sampling and thresholding steps of a hypothesis. -/
theorem ringZero_read {s : State} {h : Hypothesis} (hv : s.params.Valid) (ha : HypothesisAnswered s h) {l : List Bool}
    (hl : ringZero s h = some l) :
    ∃ u2, sampRings h.var h.shift (List.range numRings) s = some { s with ints := u2.ints } ∧
      thrRings h.mode h.inv h.bias (List.range numRings) { s with ints := u2.ints } = some u2 ∧
      ∀ p < s.params.sectors 0, Memory.read u2.bits p = l[p]? := by
  obtain ⟨u2, -, f, g, t, -, e⟩ := evaluate_of (u := s) hv rfl rfl ha
  refine ⟨u2, g, t, fun p hp => ?_⟩
  obtain ⟨es, r1, r2⟩ := (thrRings_read List.nodup_range t).1 0 (by decide)
  have r1' := Memory.readRun_eq_some.mp r1
  have hes : allSome ((List.range (s.params.sectors 0)).map (sectorEntry s h.var 0 h.shift)) = some es :=
    allSome_range_eq_some.mpr ⟨r1'.1, fun i hi => by rw [← e 0 (by omega) i hi]; exact r1'.2 i hi⟩
  have : l = thrBits h.mode h.inv h.bias (es.map intensity) := by
    unfold ringZero at hl; rw [hes] at hl; exact (Option.some.inj hl).symm
  rw [this]
  have := r2 p hp
  rwa [show off ({ s with ints := u2.ints } : State).params 0 + p = p by simp [off]] at this

/-- A state that holds only the bits of ring 0. -/
def headOnly (l : List Bool) : State := { State.reset with bits := Memory.cellsFrom 0 l }

/-- Bytes that a state with fewer bits holds. -/
theorem bytesAt_more {a u : State} (h : ∀ p b, Memory.read a.bits p = some b → Memory.read u.bits p = some b) {p n : Nat}
    {l : List Byte} (hl : bytesAt a p n = some l) : bytesAt u p n = some l := by
  rw [← hl]
  refine bytesAt_congr fun k hk => ?_
  have hs : bytesAt a p n ≠ none := by rw [hl]; simp
  cases hr : Memory.read a.bits (p + k) with
  | some b => exact h _ _ hr
  | none =>
    refine absurd (bytesAt_eq_none.mpr ⟨k / 8, by omega, byteAt_eq_none.mpr ⟨k % 8, Nat.mod_lt _ (by omega), ?_⟩⟩) hs
    rw [show p + 8 * (k / 8) + k % 8 = p + k by omega]; exact hr

/-- What `DECF` finds in the bits of ring 0 it finds in every state that has them. -/
theorem decfOut_more {u : State} {l : List Bool} (hl : l.length = 96) (hu : ∀ p < 96, Memory.read u.bits p = l[p]?)
    {q : Header × Code × Option Byte × Option (List Byte)} (hq : decfOut (headOnly l) = some q) : decfOut u = some q := by
  have key : ∀ p b, Memory.read (headOnly l).bits p = some b → Memory.read u.bits p = some b := fun p b hb => by
    rw [headOnly, Memory.read_cellsFrom, if_pos (Nat.zero_le _), Nat.sub_zero] at hb
    rw [hu p (by have := (List.getElem?_eq_some_iff.mp hb).1; omega), hb]
  unfold decfOut at hq ⊢
  cases hh : readHeader (headOnly l) with
  | none => rw [hh] at hq; cases hq
  | some hd =>
    have hh' : readHeader u = some hd := by
      unfold readHeader at hh ⊢
      cases hb : bytesAt (headOnly l) startLen 7 with
      | none => rw [hb] at hh; cases hh
      | some bs => rw [hb] at hh; rw [bytesAt_more key hb]; exact hh
    rw [hh] at hq
    rw [hh']
    simp only at hq ⊢
    split_ifs at hq ⊢ with h1 h2
    · exact hq
    · exact hq
    · cases hb : bytesAt (headOnly l) codewordAt (hd.payLen.toNat + hd.redLen.toNat) with
      | none => rw [hb] at hq; cases hq
      | some cw => rw [hb] at hq; rw [bytesAt_more key hb]; exact hq

/-- The thirteen commands of a hypothesis give what `DECF` finds in ring 0. -/
theorem byHand_code {s : State} {h : Hypothesis} (hp : s.params = headRing) (hvar : h.var < 5) (hb : h.bias < 5)
    (hs : h.shift < 96) (ha : HypothesisAnswered s h) {l : List Bool} (hl : ringZero s h = some l) (hlen : l.length = 96)
    {c : Code} (hq : (decfOut (headOnly l)).map (·.2.1) = some c) : ∃ v, runAll (byHand h) s = .next v ∧ v.code = c := by
  obtain ⟨u2, g, t, hbits⟩ := ringZero_read (hp ▸ headRing_valid) ha hl
  rw [hp] at hbits
  cases hd : decfOut (headOnly l) with
  | none => rw [hd] at hq; cases hq
  | some q =>
    obtain ⟨hdr, c', x, d⟩ := q
    rw [hd] at hq; cases hq
    exact ⟨_, byHand_of hvar hb (by rw [hp]; exact hs) (by omega) g t
      (by rw [decfRun_eq, decfOut_more hlen hbits hd]), rfl⟩

/-- What `DECF` finds in a ring 0 of one value. -/
theorem uniform_code (v : Bool) : (decfOut (headOnly (List.replicate 96 v))).map (·.2.1)
    = some (if v then .headerChecksumMismatch else .payloadLengthInvalid) := by
  cases v <;> decide +kernel

/-- A hypothesis whose ring 0 reads all 0 or all 1 fails before the validation step. -/
theorem uniform_fails {s : State} {h : Hypothesis} (hp : s.params = headRing) (hvar : h.var < 5) (hb : h.bias < 5)
    (hs : h.shift < 96) (ha : HypothesisAnswered s h) {v : Bool} (hl : ringZero s h = some (List.replicate 96 v)) :
    ∃ w, runAll (byHand h) s = .next w ∧ w.code ≠ .ok ∧ w.code ≠ .redundancyValidationFailed := by
  obtain ⟨w, hw, hc⟩ := byHand_code hp hvar hb hs ha hl (by simp) (uniform_code v)
  exact ⟨w, hw, by rw [hc]; cases v <;> decide, by rw [hc]; cases v <;> decide⟩

/-- Answers that are all the same add up. -/
theorem aggregate_same {u : TapUnit} {b : Byte} {qs : List TapRequest} (h : ∀ q ∈ qs, tapAnswer u q = .pixel b) :
    aggregate u qs = some (b.toNat * qs.length, qs.length) := by
  induction qs with
  | nil => rfl
  | cons q qs ih =>
    unfold aggregate
    rw [h q (by simp), ih fun q hq => h q (by simp [hq])]
    simp only [Option.map_some, List.length_cons, Option.some.injEq, Prod.mk.injEq, and_true]
    ring

/-- A ring 0 of one answer reads all 0 or all 1. -/
theorem ringZero_same {s : State} {h : Hypothesis} {b : Byte} (hp : s.params = headRing)
    (hu : ∀ sector < 96, ∀ q ∈ sectorRequests 0 h.var 0 sector h.shift, tapAnswer s.taps q = .pixel b) :
    ∃ v, ringZero s h = some (List.replicate 96 v) := by
  have he : ∀ i < 96, sectorEntry s h.var 0 h.shift i = some (entryWord (b.toNat * 8, 8)) := fun i hi => by
    unfold sectorEntry
    rw [hp, show headRing.radiusTap.toNat = 0 from rfl, aggregate_same (hu i hi)]; rfl
  have : allSome ((List.range 96).map (sectorEntry s h.var 0 h.shift)) = some (List.replicate 96 (entryWord (b.toNat * 8, 8))) :=
    allSome_range_eq_some.mpr ⟨by simp, fun i hi => by rw [he i hi, List.getElem?_replicate, if_pos hi]⟩
  unfold ringZero
  rw [hp, show headRing.sectors 0 = 96 from rfl, this]
  simp only [Option.map_some, List.map_replicate, thrBits]
  exact ⟨_, rfl⟩

/-- The fields of a hypothesis of `headRing`. -/
theorem hypothesisAt_fields {s : State} (hp : s.params = headRing) {nv : BitVec 3} (hn : nv.toNat ≤ 5) {k : Nat}
    (hk : k < hypothesisTotal s nv) :
    (hypothesisAt s k).var < 5 ∧ (hypothesisAt s k).bias < 5 ∧ (hypothesisAt s k).shift < 96 := by
  have hc : shiftTotal s = 24 := by unfold shiftTotal; rw [hp]; rfl
  unfold hypothesisTotal at hk
  simp only [hypothesisAt, hc] at *
  refine ⟨?_, Nat.mod_lt _ (by omega), ?_⟩
  · have : k < 480 * 5 := by nlinarith
    omega
  · have := Nat.mod_lt k (show 0 < 24 by omega)
    omega

/-- A surface of one brightness. -/
def plainState : State := { State.reset with params := headRing, taps := .table [] (.pixel 255) }

/-- The hypotheses of a plain surface fail before the validation step. -/
theorem plain_fails {nv : BitVec 3} (hn : nv.toNat ≤ 5) {k : Nat} (hk : k < hypothesisTotal plainState nv) :
    HypothesisAnswered plainState (hypothesisAt plainState k) ∧
    ∃ v, runAll (byHand (hypothesisAt plainState k)) plainState = .next v ∧ v.code ≠ .ok ∧
      v.code ≠ .redundancyValidationFailed := by
  have ha : HypothesisAnswered plainState (hypothesisAt plainState k) := fun _ _ _ _ q _ => table_answers (by simp) (by decide) q
  obtain ⟨f1, f2, f3⟩ := hypothesisAt_fields rfl hn hk
  obtain ⟨v, hv⟩ := ringZero_same (s := plainState) (h := hypothesisAt plainState k) (b := 255) rfl fun _ _ q _ => rfl
  exact ⟨ha, uniform_fails rfl f1 f2 f3 ha hv⟩

/-- SweepExhaustsTheSearch and SweepCompletesWhenAnswered: every number of variants over a plain surface (V82), 0 and 5 among
them; no hypothesis reaches the validation step. -/
theorem test_meets_sweep_exhausts (nv : BitVec 3) (hn : nv.toNat ≤ 5) : plainState.params.Valid ∧
    (∀ k < hypothesisTotal plainState nv, HypothesisAnswered plainState (hypothesisAt plainState k) ∧
      ∃ v, runAll (byHand (hypothesisAt plainState k)) plainState = .next v ∧ v.code ≠ .ok) ∧
    ∀ k < hypothesisTotal plainState nv, ¬ ReachesValidation plainState (hypothesisAt plainState k) := by
  refine ⟨headRing_valid, fun k hk => ?_, fun k hk => ?_⟩
  · obtain ⟨ha, v, hv, hc, -⟩ := plain_fails hn hk
    exact ⟨ha, v, hv, hc⟩
  · rintro ⟨w, hw, hc⟩
    obtain ⟨-, v, hv, -, hc'⟩ := plain_fails hn hk
    rw [hv] at hw; cases hw; exact hc' hc

/-- A sector of ring 0 under one anchor shift, or all its sectors. -/
def rowAt (shift : Nat) (sector : Option Nat) (a : TapAnswer) : TapRow :=
  { var := none, ring := some 0, sector := sector, sub := none, offset := none, shift := some shift, answer := a }

/-- Rows for ring 0 under one anchor shift; everything else is light. -/
def rowsState (rows : List TapRow) : State := { plainState with taps := .table rows (.pixel 255) }

/-- Under every other anchor shift such a surface is plain. -/
theorem other_same {rows : List TapRow} {a : Nat} (hr : ∀ r ∈ rows, r.shift = some a) (q : TapRequest) (hq : q.shift ≠ a) :
    tapAnswer (.table rows (.pixel 255)) q = .pixel 255 := by
  unfold tapAnswer
  have : rows.find? (rowMatches q) = none := List.find?_eq_none.mpr fun r hm => by
    simp [rowMatches, hr r hm, hq.symm, fieldMatches]
  dsimp only
  rw [this]

/-- The requests of a sector carry its shift. -/
theorem request_shift {t v r x a : Nat} {q : TapRequest} (h : q ∈ sectorRequests t v r x a) : q.shift = a := by
  simp only [sectorRequests, List.mem_flatMap, List.mem_map] at h
  obtain ⟨k, -, d, -, rfl⟩ := h
  rfl

/-- A hypothesis under another anchor shift is answered and fails before the validation step. -/
theorem other_fails {rows : List TapRow} {a : Nat} (hr : ∀ r ∈ rows, r.shift = some a) {k : Nat}
    (hk : k < hypothesisTotal (rowsState rows) 1) (hs : (hypothesisAt (rowsState rows) k).shift ≠ a) :
    HypothesisAnswered (rowsState rows) (hypothesisAt (rowsState rows) k) ∧
    ∃ v, runAll (byHand (hypothesisAt (rowsState rows) k)) (rowsState rows) = .next v ∧ v.code ≠ .ok ∧
      v.code ≠ .redundancyValidationFailed := by
  have ha : HypothesisAnswered (rowsState rows) (hypothesisAt (rowsState rows) k) := fun r _ x _ q hq => by
    rw [show (rowsState rows).taps = .table rows (.pixel 255) from rfl, other_same hr q (request_shift hq ▸ hs)]; decide
  obtain ⟨v, hv⟩ := ringZero_same (s := rowsState rows) (h := hypothesisAt (rowsState rows) k) (b := 255) rfl
    fun _ _ q hq => other_same hr q (request_shift hq ▸ hs)
  obtain ⟨f1, f2, f3⟩ := hypothesisAt_fields (s := rowsState rows) rfl (nv := 1) (by decide) hk
  exact ⟨ha, uniform_fails rfl f1 f2 f3 ha hv⟩

/-- The first hypothesis, under anchor shift 0. -/
theorem first_fails {rows : List TapRow} (hr : ∀ r ∈ rows, r.shift = some 4) :
    HypothesisAnswered (rowsState rows) (hypothesisAt (rowsState rows) 0) ∧
    ∃ v, runAll (byHand (hypothesisAt (rowsState rows) 0)) (rowsState rows) = .next v ∧ v.code ≠ .ok := by
  obtain ⟨ha, v, hv, hc, -⟩ := other_fails hr (k := 0) (show 0 < 1 * 2 * 5 * 2 * ((96 + 3) / 4) by decide)
    (show 4 * (0 % ((96 + 3) / 4)) ≠ 4 by decide)
  exact ⟨ha, v, hv, hc⟩

/-- SweepWaitsForASilentUnit: one request of the second hypothesis has no answer. -/
theorem test_meets_sweep_waits : let s := rowsState [rowAt 4 (some 95) .silent]
    s.params.Valid ∧ (1#3).toNat ≤ 5 ∧ 1 < hypothesisTotal s 1 ∧
    (∀ k' < 1, HypothesisAnswered s (hypothesisAt s k') ∧
      ∃ v, runAll (byHand (hypothesisAt s k')) s = .next v ∧ v.code ≠ .ok) ∧ ¬ HypothesisAnswered s (hypothesisAt s 1) := by
  refine ⟨headRing_valid, by decide, by decide, fun k hk => ?_, fun h => ?_⟩
  · obtain rfl : k = 0 := by omega
    exact first_fails (by decide)
  · exact h 0 (by decide) 95 (by decide) { var := 0, ring := 0, sector := 95, sub := 0, offset := 0, shift := 4 } (by decide) (by decide)

/-- Dark at bits 63, 87 and 88 under anchor shift 4: payload length 1, checksum 1, payload `80`. -/
def darkState : State := rowsState [rowAt 4 (some 63) (.pixel 0), rowAt 4 (some 87) (.pixel 0), rowAt 4 (some 88) (.pixel 0)]

/-- What the second hypothesis reads of it. -/
def frameLike : List Bool := (List.range 96).map fun p => p = 63 || p = 87 || p = 88

/-- SweepEndsAtTheFirstThatValidates: the second hypothesis of one variant. -/
theorem test_meets_sweep_ends : darkState.params.Valid ∧ (1#3).toNat ≤ 5 ∧ 1 < hypothesisTotal darkState 1 ∧
    (∀ k' ≤ 1, HypothesisAnswered darkState (hypothesisAt darkState k')) ∧
    (∀ k' < 1, ∃ v, runAll (byHand (hypothesisAt darkState k')) darkState = .next v ∧ v.code ≠ .ok) ∧
    ∃ u, runAll (byHand (hypothesisAt darkState 1)) darkState = .next u ∧ u.code = .ok := by
  have ha : ∀ h, HypothesisAnswered darkState h := fun _ _ _ _ _ q _ => table_answers (by decide) (by decide) q
  refine ⟨headRing_valid, by decide, by decide, fun _ _ => ha _, fun k hk => ?_, ?_⟩
  · obtain rfl : k = 0 := by omega
    exact (first_fails (by decide)).2
  · exact byHand_code rfl (by decide) (by decide) (by decide) (ha _)
      (show ringZero darkState (hypothesisAt darkState 1) = some frameLike by decide +kernel) (by decide) (by decide +kernel)

/-- Under anchor shift 92 alone, brighter at bits 63 and 87 than elsewhere: inverted, payload length 1, checksum 1, payload
`00`. -/
def toneState : State :=
  rowsState [rowAt 92 (some 63) (.pixel 255), rowAt 92 (some 87) (.pixel 255), rowAt 92 none (.pixel 10)]

/-- The entries of its ring 0 under anchor shift 92. -/
def toneEntries : List Word :=
  (List.range 96).map fun p => if p = 63 ∨ p = 87 then entryWord (2040, 8) else entryWord (80, 8)

/-- What each of the twenty ways to threshold them comes to. -/
def toneCode (mode : Mode) (inv : Bool) (i : Nat) : Option Code :=
  (decfOut (headOnly (thrBits mode inv i (toneEntries.map intensity)))).map (·.2.1)

theorem toneCode_fails : ∀ inv ∈ [false, true], ∀ i ∈ List.range 5, ∀ mode ∈ [Mode.percentile, .histogram],
    toneCode mode inv i = some .headerChecksumMismatch ∨ toneCode mode inv i = some .payloadLengthInvalid ∨
    toneCode mode inv i = some .redundancyValidationFailed := by decide +kernel

/-- SweepExhaustsTheSearch: a search in which the last hypothesis of all reaches the validation step. -/
theorem test_meets_sweep_exhausts_validation : toneState.params.Valid ∧ 479 < hypothesisTotal toneState 1 ∧
    hypothesisTotal toneState 1 = 480 ∧
    (∀ k < hypothesisTotal toneState 1, HypothesisAnswered toneState (hypothesisAt toneState k) ∧
      ∃ v, runAll (byHand (hypothesisAt toneState k)) toneState = .next v ∧ v.code ≠ .ok) ∧
    ReachesValidation toneState (hypothesisAt toneState 479) := by
  have ha : ∀ h, HypothesisAnswered toneState h := fun _ _ _ _ _ q _ => table_answers (by decide) (by decide) q
  have hz : ∀ k < hypothesisTotal toneState 1, (hypothesisAt toneState k).shift = 92 → ∀ c,
      toneCode (hypothesisAt toneState k).mode (hypothesisAt toneState k).inv (hypothesisAt toneState k).bias = some c →
      ∃ v, runAll (byHand (hypothesisAt toneState k)) toneState = .next v ∧ v.code = c := by
    intro k hk hs c hc
    obtain ⟨f1, f2, f3⟩ := hypothesisAt_fields (s := toneState) rfl (nv := 1) (by decide) hk
    refine byHand_code rfl f1 f2 f3 (ha _) (l := thrBits _ _ _ (toneEntries.map intensity)) ?_ (by simp [thrBits_length, toneEntries]) hc
    have hv : (hypothesisAt toneState k).var = 0 := Nat.div_eq_of_lt (show k < 480 from hk)
    unfold ringZero
    rw [hv, hs, show allSome ((List.range (toneState.params.sectors 0)).map (sectorEntry toneState 0 0 92)) = some toneEntries by
      decide +kernel]
    rfl
  refine ⟨headRing_valid, by decide, by decide, fun k hk => ⟨ha _, ?_⟩, ?_⟩
  · by_cases hs : (hypothesisAt toneState k).shift = 92
    · obtain ⟨-, f2, -⟩ := hypothesisAt_fields (s := toneState) rfl (nv := 1) (by decide) hk
      rcases toneCode_fails (hypothesisAt toneState k).inv (by cases (hypothesisAt toneState k).inv <;> simp)
        (hypothesisAt toneState k).bias (List.mem_range.mpr f2) (hypothesisAt toneState k).mode
        (by cases (hypothesisAt toneState k).mode <;> simp) with h | h | h <;>
        obtain ⟨v, hv, hc⟩ := hz k hk hs _ h <;> exact ⟨v, hv, by rw [hc]; decide⟩
    · obtain ⟨-, v, hv, hc, -⟩ := other_fails (a := 92) (by decide) hk hs
      exact ⟨v, hv, hc⟩
  · exact hz 479 (by decide) (by decide) _ (by decide +kernel)

end Sys2Proof.Tests
end

section
/-! PROOFS. The invariant of the machine: it holds after reset, every write of the block keeps it,
and so does every step. -/

namespace Sys2Proof.Machine

/-! ### What has been written stays written -/

theorem Written.writeRun {l : List Host.Cell} {base n : Nat} (h : Written l base n) (a : Nat) (vals : List Byte) :
    Written (Memory.writeRun l a vals) base n := by
  intro i hi
  rw [Memory.read_writeRun]
  split
  · exact ⟨_, List.getElem?_eq_getElem (by omega)⟩
  · exact h i hi

theorem written_writeRun_self (l : List Host.Cell) (a : Nat) (vals : List Byte) :
    Written (Memory.writeRun l a vals) a vals.length :=
  fun i hi => ⟨vals[i], Memory.read_writeRun_inside hi⟩

theorem written_zero (l : List Host.Cell) (base : Nat) : Written l base 0 := fun i hi => absurd hi (Nat.not_lt_zero i)

/-! ### The invariant after one write -/

/-- The invariant does not speak of the other fields. -/
theorem Inv.withUnconstrained {s : State} (h : Inv s) {txtLen : BitVec 16} {cwLen : BitVec 8} {lastOp : Byte}
    {hdr : Header} {xorsum : Byte} {hypCnt : Word} {events : List ProgressEvent} {taps : TapUnit} {inputs : List Input}
    {replies : List Word} {fresh : Nat} :
    Inv { s with txtLen := txtLen, cwLen := cwLen, lastOp := lastOp, hdr := hdr, xorsum := xorsum, hypCnt := hypCnt,
                 events := events, taps := taps, inputs := inputs, replies := replies, fresh := fresh } :=
  { h with }

theorem Inv.bitsOk {s : State} (h : Inv s) : StoreOk s.bits := ⟨h.bitsCanonical, h.bitsMapped⟩

theorem Inv.intsOk {s : State} (h : Inv s) : StoreOk s.ints := ⟨h.intsCanonical, h.intsMapped⟩

theorem Inv.withBits {s : State} (h : Inv s) {bits : List (Nat × Bool)} (hb : StoreOk bits) :
    Inv { s with bits := bits } :=
  { h with bitsCanonical := hb.1, bitsMapped := hb.2 }

theorem Inv.withInts {s : State} (h : Inv s) {ints : List (Nat × Word)} (hi : StoreOk ints) :
    Inv { s with ints := ints } :=
  { h with intsCanonical := hi.1, intsMapped := hi.2 }

/-- Bytes written inside the byte buffers. -/
theorem Inv.withBytes {s : State} (h : Inv s) {a : Nat} {vals : List Byte}
    (hw : ∀ k, a ≤ k → k < a + vals.length → byteBuffer k = true) :
    Inv { s with mem := Memory.writeRun s.mem a vals } :=
  { h with
    memCanonical := Memory.wf_writeRun h.memCanonical _ _
    memMapped := fun c hc => (Memory.mem_writeRun_key hc).elim (h.memMapped c) fun hk => hw c.1 hk.1 hk.2
    outWritten := h.outWritten.writeRun _ _
    redWritten := h.redWritten.writeRun _ _ }

/-- `OUT` emptied (R24). -/
theorem Inv.withoutOut {s : State} (h : Inv s) : Inv { s with outLen := 0 } :=
  { h with outLegal := Nat.zero_le _, outWritten := written_zero _ _ }

/-- Data in `OUT` and its length in `OUT_LEN` (R24). -/
theorem Inv.withOut {s : State} (h : Inv s) {data : List Byte} {n : BitVec 8} (hd : data.length ≤ codewordBytes)
    (hn : n.toNat = data.length) : Inv { writeOut s data with outLen := n } := by
  have hm : Inv (writeOut s data) := h.withBytes fun k h1 h2 =>
    byteBuffer_iff.mpr (by simp only [outBase, codewordBytes] at *; omega)
  exact { hm with
    outLegal := hn ▸ hd
    outWritten := by rw [hn]; exact written_writeRun_self _ _ _ }

/-- Redundancy bytes in `RED` and their number in `RED_LEN` (R25). -/
theorem Inv.withRed {s : State} (h : Inv s) {red : List Byte} {n : BitVec 8} (hr : red.length ≤ redSize)
    (hn : n.toNat = red.length) : Inv { writeRed s red with redLen := n } := by
  have hm : Inv (writeRed s red) := h.withBytes fun k h1 h2 =>
    byteBuffer_iff.mpr (by simp only [redBase, redSize] at *; omega)
  exact { hm with
    redLegal := hn ▸ hr
    redWritten := by rw [hn]; exact written_writeRun_self _ _ _ }

theorem Inv.withMapRs {s : State} (h : Inv s) {m : MapRs}
    (hm : m.ring.toNat ≤ 5 ∧ m.sector.toNat < s.params.sectors m.ring.toNat) : Inv { s with mapRs := m } :=
  { h with mapRsLegal := hm }

theorem Inv.withMapIdx {s : State} (h : Inv s) {i : BitVec 11} (hi : i.toNat < capTotal) : Inv { s with mapIdx := i } :=
  { h with mapIdxLegal := hi }

theorem Inv.withSearch {s : State} (h : Inv s) {y : HypReg} {p : ProgressReg}
    (hy : y.var.toNat ≤ 4 ∧ y.bias.toNat ≤ 4 ∧ y.shift.toNat < s.params.sectors 0)
    (hp : p.var.toNat ≤ 4 ∧ p.nv.toNat ≤ 5 ∧ p.count.toNat ≤ 5) : Inv { s with hyp := y, progress := p } :=
  { h with hypLegal := hy, progressLegal := hp }

theorem Inv.accept {s : State} (h : Inv s) (w : Word) : Inv (accept w s) :=
  { h with busyNotDone := fun _ => rfl, doneWithCode := fun hb => by simp at hb }

/-- The completion step with a code that says something (R30, R33). -/
theorem Inv.complete {s : State} (h : Inv s) {c : Code} (hc : c ≠ .noCode) : Inv (complete c s) :=
  { h with busyNotDone := fun hb => by simp at hb, doneWithCode := fun _ => ⟨fun _ => hc, fun _ => rfl⟩ }

/-- Reset makes a good state whatever the block's open parameters are (R8, R43). -/
theorem inv_resetBlock {s : State} (hv : s.params.Valid) : Inv (resetBlock s) where
  params := hv
  memCanonical := Memory.wf_nil
  memMapped := fun _ hc => nomatch hc
  bitsCanonical := Memory.wf_nil
  bitsMapped := fun _ hc => nomatch hc
  intsCanonical := Memory.wf_nil
  intsMapped := fun _ hc => nomatch hc
  outLegal := Nat.zero_le _
  outWritten := written_zero _ _
  redLegal := Nat.zero_le _
  redWritten := written_zero _ _
  hypLegal := ⟨Nat.zero_le _, Nat.zero_le _, (hv.1 0 (by decide)).1⟩
  progressLegal := ⟨Nat.zero_le _, Nat.zero_le _, Nat.zero_le _⟩
  mapRsLegal := ⟨Nat.zero_le _, (hv.1 0 (by decide)).1⟩
  mapIdxLegal := Nat.zero_lt_succ _
  busyNotDone := fun _ => rfl
  doneWithCode := fun _ => ⟨(nomatch ·), (absurd rfl ·)⟩

/-- Settles O10: the reset state is the block's reset applied to itself. -/
theorem invariantHoldsAtReset : Obligations.InvariantHoldsAtReset :=
  inv_resetBlock (s := State.reset) (by decide)

/-! ### Commands -/

/-- `OUT_LEN` can hold every length of data. -/
theorem dataLength_toNat {n : Nat} (h : n ≤ codewordBytes) : (BitVec.ofNat 8 n).toNat = n := by
  simp only [codewordBytes] at h
  rw [BitVec.toNat_ofNat, Nat.mod_eq_of_lt (by omega)]

/-- Whatever `DECF` ends in (R140). -/
theorem Inv.decfRun_ended {s u : State} {c : Code} (h : Inv s) (hd : decfRun s = .ended c u) :
    Inv u ∧ c ≠ .noCode := by
  rcases decfRun_cases hd with ⟨rfl, data, -, hlen, hu⟩ | ⟨hc, hu⟩
  · refine ⟨?_, by decide⟩
    rw [hu]
    exact (h.withOut hlen (dataLength_toNat hlen)).withUnconstrained
  · refine ⟨?_, by rcases hc with rfl | rfl | rfl <;> decide⟩
    rw [hu]
    exact h.withoutOut.withUnconstrained

/-- `HYP` for a hypothesis of a sweep (R34, R211). -/
theorem hypRegOf_legal {p : Params} (hv : p.Valid) {v : Nat} (hvar : v ≤ 4) {h : Hypothesis}
    (hm : h ∈ hypothesesOf p.ring0 v) :
    (hypRegOf h).var.toNat ≤ 4 ∧ (hypRegOf h).bias.toNat ≤ 4 ∧ (hypRegOf h).shift.toNat < p.sectors 0 := by
  obtain ⟨rfl, hb, hs⟩ := hypothesesOf_mem hm
  have hshift : h.shift < p.sectors 0 := shifts_mem hs
  have hsectors := (hv.1 0 (by decide)).2
  simp only [hypRegOf, BitVec.toNat_ofNat]
  omega

/-- The registers a sweep clears before its first variant (R214). -/
theorem Inv.sweepStart {s : State} (h : Inv s) {nv : BitVec 3} (hn : nv.toNat ≤ 5) : Inv (sweepStart nv s) :=
  { h with
    outLegal := Nat.zero_le _
    outWritten := written_zero _ _
    hypLegal := ⟨Nat.zero_le _, Nat.zero_le _, (h.params.1 0 (by decide)).1⟩
    progressLegal := ⟨Nat.zero_le _, hn, Nat.zero_le _⟩ }

/-- Whatever `SWEEP` ends in (R214). -/
theorem Inv.sweepRun_ended {s u : State} {c : Code} {nv : BitVec 3} (h : Inv s) (hn : nv.toNat ≤ 5)
    (hu : sweepRun nv s = .ended c u) : Inv u ∧ c ≠ .noCode := by
  have h0 := h.sweepStart hn
  obtain ⟨hframe, hstores, hhyp, hprogress, hout⟩ := tryVariants_cases hu
  obtain ⟨hbits, hints⟩ := hstores h0.params h0.bitsOk h0.intsOk
  have hvar : ∀ v ∈ List.range nv.toNat, v ≤ 4 := fun v hv => by have := List.mem_range.mp hv; omega
  have hypLegal : u.hyp.var.toNat ≤ 4 ∧ u.hyp.bias.toNat ≤ 4 ∧ u.hyp.shift.toNat < s.params.sectors 0 := by
    rcases hhyp with he | ⟨v, hv, y, hy, he⟩
    · rw [he]; exact h0.hypLegal
    · rw [he]; exact hypRegOf_legal h.params (hvar v hv) hy
  have progressLegal : u.progress.var.toNat ≤ 4 ∧ u.progress.nv.toNat ≤ 5 ∧ u.progress.count.toNat ≤ 5 := by
    rcases hprogress with he | ⟨v, hv, n, hle, he⟩
    · rw [he]; exact h0.progressLegal
    · have hv4 := hvar v hv
      rw [List.length_range] at hle
      rw [he]
      simp only [sweepStart_progress, BitVec.ofNat_eq_ofNat, BitVec.zero_add, BitVec.toNat_ofNat]
      omega
  have hcode : c ≠ .noCode := by rcases hout with ⟨rfl, -⟩ | ⟨rfl, -⟩ <;> decide
  have hw : Inv { Machine.sweepStart nv s with mem := u.mem, outLen := u.outLen } := by
    rcases hout with ⟨-, data, -, hlen, hmem, houtLen⟩ | ⟨-, hmem, houtLen⟩
    · rw [hmem, houtLen]
      exact h0.withOut hlen (dataLength_toNat hlen)
    · rw [hmem, houtLen rfl]
      exact h0.withoutOut
  rw [hframe]
  exact ⟨(((hw.withBits hbits).withInts hints).withSearch hypLegal progressLegal).withUnconstrained, hcode⟩

/-- `MAP_RS` for an index in range (R112). -/
theorem mapRs_legal {p : Params} (hv : p.Valid) {idx : Nat} (hi : idx ≤ 1343) :
    (BitVec.ofNat 3 (ringOf p idx)).toNat ≤ 5 ∧
      (BitVec.ofNat 11 (idx - off p (ringOf p idx))).toNat < p.sectors (BitVec.ofNat 3 (ringOf p idx)).toNat := by
  obtain ⟨hring, -, hsector⟩ := ringOf_spec hv (show idx < 1344 by omega)
  have hr : (BitVec.ofNat 3 (ringOf p idx)).toNat = ringOf p idx := by
    rw [BitVec.toNat_ofNat, Nat.mod_eq_of_lt (by omega)]
  rw [hr, BitVec.toNat_ofNat]
  exact ⟨hring, (Nat.mod_le _ _).trans_lt hsector⟩

/-- `MAP_IDX` for a sector of a ring (R113). -/
theorem mapIdx_legal {p : Params} (hv : p.Valid) {ring sector : Nat} (hr : ring ≤ 5) (hs : sector < p.sectors ring) :
    (BitVec.ofNat 11 (off p ring + sector)).toNat < capTotal := by
  have hend := off_le_capTotal hv (show ring < 6 by omega)
  rw [BitVec.toNat_ofNat]
  exact (Nat.mod_le _ _).trans_lt (by omega)

/-- Every command keeps the invariant. -/
theorem Inv.exec {i : Instr} {s t : State} (hs : Inv s) (h : exec i s = .next t) : Inv t := by
  have illegal : Inv (Machine.complete .illegalCommand s) := hs.complete (by decide)
  cases i with
  | encf ecc =>
    rcases execEncf_cases h with ⟨-, rfl⟩ | ⟨hlen, txt, htxt, rfl⟩
    · exact hs.complete (by decide)
    · have hl : (frameBits s.params ecc.toNat txt).length = capTotal :=
        frameBits_length _ ecc.isLt (by rw [readTxt_length htxt]; exact hlen)
      exact (hs.withBits (hs.bitsOk.writeRun (by rw [hl, Nat.zero_add]))).complete (by decide)
  | decf =>
    obtain ⟨c, u, hu, rfl⟩ := execDecf_cases h
    obtain ⟨hi, hc⟩ := hs.decfRun_ended hu
    exact hi.complete hc
  | apred n =>
    rcases execApred_cases h with ⟨-, rfl⟩ | ⟨hn, -, p, -, rfl⟩
    · exact illegal
    · exact (hs.withRed (by rw [apred_length]; exact hn) (apred_length _ _).symm).complete (by decide)
  | valred n =>
    rcases execValred_cases h with ⟨-, rfl⟩ | ⟨hlen, cw, hcw, ⟨x, -, rfl⟩ | ⟨x, hn, -, rfl⟩⟩
    · exact illegal
    · exact hs.withoutOut.withUnconstrained.complete (by decide)
    · have hl : cw.length = s.cwLen.toNat := (Memory.readRun_eq_some.mp hcw).1
      have hd : (cw.take (cw.length - n.toNat)).length = s.cwLen.toNat - n.toNat := by
        rw [List.length_take]; omega
      have hout : (s.cwLen - n).toNat = s.cwLen.toNat - n.toNat := BitVec.toNat_sub_of_le (BitVec.le_def.mpr (by omega))
      exact (hs.withOut (by rw [hd]; simp only [codewordBytes]; omega) (hout.trans hd.symm)).withUnconstrained.complete
        (by decide)
  | mapb idx =>
    rcases execMapb_cases h with ⟨-, rfl⟩ | ⟨hi, rfl⟩
    · exact illegal
    · exact (hs.withMapRs (mapRs_legal hs.params hi)).complete (by decide)
  | maps ring sector =>
    rcases execMaps_cases h with ⟨-, rfl⟩ | ⟨hr, hsec, rfl⟩
    · exact illegal
    · exact (hs.withMapIdx (mapIdx_legal hs.params hr hsec)).complete (by decide)
  | samp ring var shift =>
    rcases execSamp_cases h with ⟨-, rfl⟩ | ⟨hr, -, -, ⟨-, rfl⟩ | ⟨u, hu, rfl⟩⟩
    · exact illegal
    · exact hs
    · obtain ⟨hframe, hstore⟩ := sampRun_frame hu
      rw [hframe]
      exact (hs.withInts (hstore hs.params (by omega) hs.intsOk)).complete (by decide)
  | thr ring mode inv bias =>
    rcases execThr_cases h with ⟨-, rfl⟩ | ⟨hr, -, u, hu, rfl⟩
    · exact illegal
    · obtain ⟨hframe, hstore⟩ := thrRun_frame hu
      rw [hframe]
      exact (hs.withBits (hstore hs.params (by omega) hs.bitsOk)).complete (by decide)
  | sweep nv =>
    rcases execSweep_cases h with ⟨-, rfl⟩ | ⟨hn, ⟨ev, -, rfl⟩ | ⟨c, u, hu, rfl⟩⟩
    · exact illegal
    · exact hs.withUnconstrained
    · obtain ⟨hi, hc⟩ := hs.sweepRun_ended hn hu
      exact hi.complete hc

/-! ### Host accesses -/

theorem Inv.writeHostByte {s : State} (h : Inv s) (a : Nat) (b : Byte) : Inv (writeHostByte s a b) := by
  have hbyte : byteBuffer a = true → Inv { s with mem := Memory.writeRun s.mem a [b] } := fun ha =>
    h.withBytes fun k h1 h2 => by rw [List.length_singleton] at h2; rwa [show k = a by omega]
  unfold Machine.writeHostByte
  split_ifs with htxt hcw hbits
  · exact hbyte (by simp only [byteBuffer, htxt, Bool.true_or])
  · exact hbyte (by simp only [byteBuffer, hcw, Bool.true_or, Bool.or_true])
  · have hwindow := inBits_iff.mp hbits
    exact h.withBits (h.bitsOk.writeRun (by simp only [bitsBase, byteBits_length, capTotal]; omega))
  · exact h

theorem Inv.writeHostBytes {s : State} (h : Inv s) (a : Nat) (l : List Byte) : Inv (writeHostBytes s a l) := by
  induction l generalizing s a with
  | nil => exact h
  | cons b l ih => exact ih (h.writeHostByte a b) (a + 1)

theorem Inv.writeReg {s : State} (h : Inv s) (a : Nat) (v : Word) : Inv (writeReg s a v) := by
  unfold Machine.writeReg
  split
  · exact h.accept v
  · exact h.withUnconstrained
  · exact h.withUnconstrained
  · exact h

/-- Every host write keeps the invariant. -/
theorem Inv.hostWrite {s : State} (h : Inv s) (addr : Offset) (size : AccessSize) (v : Word) :
    Inv (hostWrite s addr size v) := by
  unfold Machine.hostWrite
  dsimp only
  split_ifs with hbusy halign hreg hword hint hword
  · exact h
  · exact h
  · exact h.writeReg _ v
  · exact h
  · have hwindow := inInt_iff.mp hint
    exact h.withInts (h.intsOk.writeRun (by simp only [intBase, List.length_singleton, capTotal]; omega))
  · exact h
  · exact h.writeHostBytes _ _

/-! ### Steps -/

theorem Inv.hostTurn {s t : State} {access : HostAccess} (hs : Inv s) (h : hostTurn s access = .next t) : Inv t := by
  cases access with
  | read addr size =>
    dsimp only [Machine.hostTurn] at h
    split at h
    · cases h; exact hs.withUnconstrained
    · cases h; exact hs.withUnconstrained
    · cases h
  | write addr size v => cases h; exact hs.hostWrite addr size v

theorem Inv.engineTurn {s t : State} (hs : Inv s) (h : engineTurn s = .next t) : Inv t := by
  unfold Machine.engineTurn at h
  split at h
  · cases h; exact hs
  · split at h
    · exact hs.exec h
    · cases h; exact hs.complete (by decide)

theorem Inv.inputTurn {s t : State} {x : Input} (hs : Inv s) (h : inputTurn s x = .next t) : Inv t := by
  cases x with
  | engine => exact hs.engineTurn h
  | host access => exact hs.hostTurn h
  | rst => cases h; exact inv_resetBlock hs.params
  | surfaces unit =>
    simp only [Machine.inputTurn, surfacesTurn] at h
    split_ifs at h
    cases h; exact hs.withUnconstrained

/-- Settles O11, by what each input and each command can answer. -/
theorem stepKeepsInvariant : Obligations.StepKeepsInvariant := by
  intro s t hs h
  unfold step at h
  split at h
  · exact hs.engineTurn h
  · exact hs.withUnconstrained.inputTurn h

end Sys2Proof.Machine
end

section
/-! PROOFS. The percentile test of `THR` over fractions, without division (R190). -/

namespace Sys2Proof.Machine

open Sys2Proof.Spec

/-- The percentile, read off any ascending arrangement of the values (R190). -/
theorem percentile_eq {tenths : Nat} {vals sorted : List Rat} {p : Rat} (hperm : sorted.Perm vals)
    (hsorted : sorted.Pairwise (· ≤ ·)) (hp : sorted[tenths * vals.length / 10]? = some p) :
    percentile tenths vals = p := by
  obtain ⟨hperm', hsorted'⟩ := sortAscending_spec vals
  rw [percentile, sorted_unique hperm' hsorted' hperm hsorted, List.getD_eq_getElem?_getD, hp, Option.getD_some]

/-- The bias factors in twentieths, as the statements have them (R7). -/
theorem biasNum_eq {i : Nat} (hi : i ≤ 4) : biasNum i = biasTwentieths i := by interval_cases i <;> rfl

/-- The comparison with the scaled midpoint, the denominators multiplied out (R190). -/
theorem lt_scaledMidpoint_iff (n n1 n2 b : Nat) {d d1 d2 : Nat} (hd : 0 < d) (h1 : 0 < d1) (h2 : 0 < d2) :
    (n : Rat) / d < ((n1 : Rat) / d1 + (n2 : Rat) / d2) / 2 * ((b : Rat) / 20) ↔
      40 * n * d1 * d2 < (n1 * d2 + n2 * d1) * b * d := by
  have hd' : (0 : Rat) < d := Nat.cast_pos.mpr hd
  have h1' : (0 : Rat) < d1 := Nat.cast_pos.mpr h1
  have h2' : (0 : Rat) < d2 := Nat.cast_pos.mpr h2
  have hmid : ((n1 : Rat) / d1 + (n2 : Rat) / d2) / 2 * ((b : Rat) / 20)
      = ((n1 * d2 + n2 * d1) * b : Rat) / (40 * d1 * d2) := by field_simp; ring
  rw [hmid, div_lt_div_iff₀ hd' (by positivity), ← Nat.cast_lt (α := Rat)]
  push_cast
  rw [show (n : Rat) * (40 * d1 * d2) = 40 * n * d1 * d2 by ring]

/-- Settles O52: the bits are decided against the midpoint of two fractions times `BIAS_NUM/20`. -/
theorem percentileTestIsTheIntegerTest : Obligations.PercentileTestIsTheIntegerTest := by
  intro s ring i inv vals sorted hring hi hvals hperm hsorted
  obtain ⟨t, ht, hended, hbits, -⟩ := thr_result (mode := .percentile) (inv := inv) hring hi hvals rfl
  refine ⟨t, ht, by rw [hended]; rfl, fun j n d n1 d1 n2 d2 hd h1 h2 hj hp30 hp70 => ?_⟩
  have hthr : threshold .percentile i.toNat vals
      = ((n1 : Rat) / d1 + (n2 : Rat) / d2) / 2 * ((biasTwentieths i.toNat : Rat) / 20) := by
    rw [threshold, percentileThreshold, percentile_eq hperm hsorted hp30, percentile_eq hperm hsorted hp70, bias,
      biasNum_eq hi]
  rw [hbits j _ hj, hthr]
  simp only [lt_scaledMidpoint_iff n n1 n2 _ hd h1 h2]

end Sys2Proof.Machine
end

section
/-! PROOFS. Steps: whose turn it is, what an accepted command word and reset come to. -/

namespace Sys2Proof.Machine

/-! ### Whose turn it is -/

/-- With nothing due around it, the engine has its turn (log 4). -/
theorem step_of_no_input {s : State} (h : s.inputs = []) : step s = engineTurn s := by
  rw [step, h]

/-- A step takes the first input off the list (log 4). -/
theorem step_of_input {s : State} {x : Input} {rest : List Input} (h : s.inputs = x :: rest) :
    step s = inputTurn { s with inputs := rest } x := by
  rw [step, h]

theorem engineTurn_of_decode {s : State} {w : Word} {i : Instr} (hw : s.cmd = some w) (hd : decode w = .ok i) :
    engineTurn s = exec i s := by
  simp only [engineTurn, hw, hd]

/-- Settles O5: the engine's turn runs the accepted command, whether it is on the list of inputs or not. -/
theorem stepRunsTheAcceptedCommand : Obligations.StepRunsTheAcceptedCommand := by
  intro s w i hw hd
  refine ⟨fun h => ?_, fun rest h => ?_⟩
  · rw [step_of_no_input h, engineTurn_of_decode hw hd]
  · rw [step_of_input h]
    exact engineTurn_of_decode hw hd

theorem decode_of_decodeTableWord {nbits w : Nat} {i : Instr} (h : decodeTableWord nbits w = some i) :
    decode (BitVec.ofNat 32 (w % 2 ^ nbits)) = .ok i := by
  unfold decodeTableWord at h
  split at h
  · next hd => cases h; exact hd
  · cases h

/-- Settles O6: placing a word is its acceptance, with the engine's turn next. -/
theorem placedWordRunsNext : Obligations.PlacedWordRunsNext := by
  intro s nbits w i h
  have hd := decode_of_decodeTableWord h
  rw [step_of_input (s := s.withFetchWord nbits w) rfl]
  exact engineTurn_of_decode (s := accept (BitVec.ofNat 32 (w % 2 ^ nbits)) s) rfl hd

/-! ### Acceptance and reset -/

/-- A 4-byte write of an idle host to a register (R62). -/
theorem hostWrite_reg {s : State} {addr : Offset} {v : Word} (hb : s.busy = false) (ha : addr.toNat % 4 = 0)
    (h : addr.toNat < 0x60) : hostWrite s addr .word v = writeReg s addr.toNat v := by
  simp only [hostWrite, hb, sizeBytes, Bool.false_eq_true, if_false, ha, ne_eq, not_true_eq_false, if_true]
  rw [if_pos (show addr.toNat < regEnd from h)]

/-- The low bits of a word, as a number. -/
theorem extractLsb'_zero (n : Nat) (w : Word) : w.extractLsb' 0 n = BitVec.ofNat n w.toNat :=
  BitVec.eq_of_toNat_eq (by simp)

/-- Settles O16: the write is due, and a write to `CMD` is the acceptance step. -/
theorem cmdWriteStartsCommand : Obligations.CmdWriteStartsCommand := by
  intro s w rest hb h
  have hop : BitVec.ofNat 8 (w.toNat % 256) = w.extractLsb' 0 8 := BitVec.eq_of_toNat_eq (by simp)
  have hw : hostWrite { s with inputs := rest } 0 .word w = accept w { s with inputs := rest } :=
    hostWrite_reg hb (by decide) (by decide)
  rw [step_of_input h, inputTurn, hostTurn, hw, hop]
  rfl

/-- The registers that are not constant show 0 after reset (R43). -/
theorem regWord_resetBlock (s : State) {a : Nat} (ha : a < 0x40) : regWord (resetBlock s) a = 0 := by
  have h : regWord State.reset a = 0 := by revert a; decide
  rw [← h]
  interval_cases a <;> rfl

/-- Settles O26: reset leaves `resetBlock`, whatever the engine was doing. -/
theorem resetGivesTheResetState : Obligations.ResetGivesTheResetState := by
  intro s rest h
  have hreg {a : Nat} (ha : a < 0x40) : regWord (resetBlock { s with inputs := rest }) a = 0 := regWord_resetBlock _ ha
  refine ⟨resetBlock { s with inputs := rest }, by rw [step_of_input h, inputTurn], hreg (a := 0x004) (by decide), rfl, rfl, rfl,
    rfl, rfl, hreg (a := 0x018) (by decide), hreg (a := 0x01C) (by decide), hreg (a := 0x020) (by decide),
    hreg (a := 0x024) (by decide), rfl, hreg (a := 0x02C) (by decide), hreg (a := 0x030) (by decide),
    hreg (a := 0x034) (by decide), rfl, rfl, fun _ => rfl, fun _ => rfl, fun _ => rfl, fun a ha => ?_⟩
  obtain ⟨haddr, halign, hlt⟩ : (BitVec.ofNat 14 a).toNat = a ∧ a % 4 = 0 ∧ a < 0x40 := by revert a; decide
  rw [hostRead_reg rfl (by rw [haddr, halign]) (by omega), haddr, hreg hlt]

end Sys2Proof.Machine
end

section
/-! PROOFS. What a step and a command leave unchanged: the parameters, the host's operands, and every result that the
command does not name. -/

namespace Sys2Proof.Machine

/-! ### Parameters -/

theorem exec_params {i : Instr} {s t : State} (h : exec i s = .next t) : t.params = s.params :=
  (congrArg State.params (exec_frame h) :)

theorem engineTurn_params {s t : State} (h : engineTurn s = .next t) : t.params = s.params := by
  unfold engineTurn at h
  split at h
  · cases h; rfl
  · split at h
    · exact exec_params h
    · cases h; rfl

theorem writeReg_params (s : State) (a : Nat) (v : Word) : (writeReg s a v).params = s.params := by
  unfold writeReg; split <;> rfl

theorem writeHostByte_params (s : State) (a : Nat) (b : Byte) : (writeHostByte s a b).params = s.params := by
  unfold writeHostByte; split_ifs <;> rfl

theorem writeHostBytes_params (s : State) (a : Nat) (l : List Byte) : (writeHostBytes s a l).params = s.params := by
  induction l generalizing s a with
  | nil => rfl
  | cons b l ih => exact (ih _ _).trans (writeHostByte_params s a b)

theorem hostWrite_params (s : State) (addr : Offset) (size : AccessSize) (v : Word) :
    (hostWrite s addr size v).params = s.params := by
  unfold hostWrite
  dsimp only
  split_ifs
  · rfl
  · rfl
  · exact writeReg_params _ _ _
  · rfl
  · rfl
  · rfl
  · exact writeHostBytes_params _ _ _

theorem hostTurn_params {s t : State} {access : HostAccess} (h : hostTurn s access = .next t) :
    t.params = s.params := by
  cases access with
  | read addr size =>
    dsimp only [hostTurn] at h
    split at h <;> cases h <;> rfl
  | write addr size v => cases h; exact hostWrite_params _ _ _ _

theorem inputTurn_params {s t : State} {x : Input} (h : inputTurn s x = .next t) : t.params = s.params := by
  cases x with
  | engine => exact engineTurn_params h
  | host access => exact hostTurn_params h
  | rst => cases h; rfl
  | surfaces unit =>
    simp only [inputTurn, surfacesTurn] at h
    split_ifs at h
    cases h; rfl

/-- No step changes the parameters (R8). -/
theorem step_params {s t : State} (h : step s = .next t) : t.params = s.params := by
  unfold step at h
  split at h
  · exact engineTurn_params h
  · exact (inputTurn_params h :)

/-- Settles O12: no act changes the parameters, and the constant registers show nothing else (R39). -/
theorem constantRegistersNeverChange : Obligations.ConstantRegistersNeverChange := by
  intro s t h
  have hp := step_params h
  refine ⟨hp, fun a ha => ?_⟩
  simp only [List.mem_cons, List.not_mem_nil, or_false] at ha
  rcases ha with rfl | rfl | rfl | rfl | rfl | rfl | rfl | rfl <;> simp only [regWord, hp]

/-! ### Byte buffers -/

/-- No command writes below `OUT` (R21, R23). -/
theorem exec_read_below_out {i : Instr} {s t : State} (h : exec i s = .next t) {a : Nat} (ha : a < outBase) :
    Memory.read t.mem a = Memory.read s.mem a := by
  rcases exec_mem h with ⟨hm, -⟩ | ⟨-, data, -, -, -, hm⟩ | ⟨n, p, -, -, -, -, hm⟩
  · rw [hm]
  · rw [hm, Memory.read_writeRun_outside (.inl ha)]
  · rw [hm, Memory.read_writeRun_outside (.inl (ha.trans (by decide)))]

/-- Only `APRED` writes `RED` (R25). -/
theorem exec_red {i : Instr} {s t : State} (h : exec i s = .next t) (hi : ∀ n, i ≠ .apred n) :
    t.redLen = s.redLen ∧ ∀ a, redBase ≤ a → Memory.read t.mem a = Memory.read s.mem a := by
  rcases exec_mem h with ⟨hm, -, hr⟩ | ⟨-, data, hl, -, hr, hm⟩ | ⟨n, p, hn, -⟩
  · exact ⟨hr, fun a _ => by rw [hm]⟩
  · refine ⟨hr, fun a ha => ?_⟩
    rw [hm, Memory.read_writeRun_outside]
    simp only [redBase, outBase, codewordBytes] at *
    omega
  · exact absurd hn (hi n)

/-- Only `DECF`, `VALRED` and `SWEEP` write `OUT` (R24). -/
theorem exec_read_below_red {i : Instr} {s t : State} (h : exec i s = .next t) (hd : i ≠ .decf)
    (hv : ∀ n, i ≠ .valred n) (hs : ∀ nv, i ≠ .sweep nv) {a : Nat} (ha : a < redBase) :
    Memory.read t.mem a = Memory.read s.mem a := by
  rcases exec_mem h with ⟨hm, -⟩ | ⟨hi, -⟩ | ⟨n, p, -, -, -, -, hm⟩
  · rw [hm]
  · rcases hi with hi | ⟨n, hi⟩ | ⟨nv, hi⟩
    · exact absurd hi hd
    · exact absurd hi (hv n)
    · exact absurd hi (hs nv)
  · rw [hm, Memory.read_writeRun_outside (.inl ha)]

/-- Settles O13: the frame of all commands, and the byte buffers below `OUT`. -/
theorem commandsLeaveOperandsOfTheHost : Obligations.CommandsLeaveOperandsOfTheHost := by
  intro i s t h
  have hf := exec_frame h
  exact ⟨(congrArg State.txtLen hf :), (congrArg State.cwLen hf :), (congrArg State.lastOp hf :), (congrArg State.params hf :),
    (congrArg State.taps hf :), (congrArg State.inputs hf :), (congrArg State.replies hf :), (congrArg State.fresh hf :),
    fun _ ha => exec_read_below_out h ha⟩

/-! ### The results a command names -/

/-- `s` with the results that command `i` names taken from `t` (R131, R140, R162, R166, R112, R113, R185, R193, R214). -/
def namedResults (i : Instr) (s t : State) : State :=
  match i with
  | .encf _ => { s with bits := t.bits }
  | .decf => { s with mem := t.mem, outLen := t.outLen, hdr := t.hdr, xorsum := t.xorsum }
  | .apred _ => { s with mem := t.mem, redLen := t.redLen }
  | .valred _ => { s with mem := t.mem, outLen := t.outLen, xorsum := t.xorsum }
  | .mapb _ => { s with mapRs := t.mapRs }
  | .maps _ _ => { s with mapIdx := t.mapIdx }
  | .samp _ _ _ => { s with ints := t.ints }
  | .thr _ _ _ _ => { s with bits := t.bits }
  | .sweep _ =>
    { s with
      mem := t.mem, bits := t.bits, ints := t.ints, outLen := t.outLen, hdr := t.hdr, xorsum := t.xorsum
      hyp := t.hyp, hypCnt := t.hypCnt, progress := t.progress, events := t.events }

/-- A command writes the results it names and `STATUS`. -/
theorem exec_namedResults {i : Instr} {s t : State} (h : exec i s = .next t) :
    t = { namedResults i s t with cmd := t.cmd, done := t.done, code := t.code } := by
  cases i with
  | encf ecc => rcases execEncf_cases h with ⟨-, rfl⟩ | ⟨-, _, -, rfl⟩ <;> rfl
  | decf =>
    obtain ⟨c, u, hu, rfl⟩ := execDecf_cases h
    rcases decfRun_cases hu with ⟨-, data, -, -, hu⟩ | ⟨-, hu⟩ <;> rw [hu] <;> rfl
  | apred n => rcases execApred_cases h with ⟨-, rfl⟩ | ⟨-, -, _, -, rfl⟩ <;> rfl
  | valred n => rcases execValred_cases h with ⟨-, rfl⟩ | ⟨-, _, -, ⟨_, -, rfl⟩ | ⟨_, -, -, rfl⟩⟩ <;> rfl
  | mapb idx => rcases execMapb_cases h with ⟨-, rfl⟩ | ⟨-, rfl⟩ <;> rfl
  | maps ring sector => rcases execMaps_cases h with ⟨-, rfl⟩ | ⟨-, -, rfl⟩ <;> rfl
  | samp ring var shift =>
    rcases execSamp_cases h with ⟨-, rfl⟩ | ⟨-, -, -, ⟨-, rfl⟩ | ⟨u, hu, rfl⟩⟩
    · rfl
    · rfl
    · rw [(sampRun_frame hu).1]; rfl
  | thr ring mode inv bias =>
    rcases execThr_cases h with ⟨-, rfl⟩ | ⟨-, -, u, hu, rfl⟩
    · rfl
    · rw [(thrRun_frame hu).1]; rfl
  | sweep nv =>
    rcases execSweep_cases h with ⟨-, rfl⟩ | ⟨-, ⟨_, -, rfl⟩ | ⟨c, u, hu, rfl⟩⟩
    · rfl
    · rfl
    · rw [(tryVariants_cases hu).1]; rfl

/-- Settles O14: each clause reads off the results that the command at hand names. -/
theorem onlyTheNamedCommandsWrite : Obligations.OnlyTheNamedCommandsWrite := by
  intro i s t h
  have hf := exec_namedResults h
  refine ⟨fun hsweep => ?_, exec_red h, fun hmapb => ?_, fun hmaps => ?_, fun hsamp hsweep => ?_,
    fun hencf hthr hsweep => ?_, fun hdecf hsweep => ?_, fun hdecf hvalred hsweep => ?_⟩
  · have search : t.hyp = (namedResults i s t).hyp ∧ t.hypCnt = (namedResults i s t).hypCnt ∧
        t.progress = (namedResults i s t).progress ∧ t.events = (namedResults i s t).events :=
      ⟨(congrArg State.hyp hf :), (congrArg State.hypCnt hf :), (congrArg State.progress hf :), (congrArg State.events hf :)⟩
    cases i with
    | sweep nv => exact absurd rfl (hsweep nv)
    | _ => exact search
  · cases i with
    | mapb idx => exact absurd rfl (hmapb idx)
    | _ => exact (congrArg State.mapRs hf :)
  · cases i with
    | maps ring sector => exact absurd rfl (hmaps ring sector)
    | _ => exact (congrArg State.mapIdx hf :)
  · cases i with
    | samp ring var shift => exact absurd rfl (hsamp ring var shift)
    | sweep nv => exact absurd rfl (hsweep nv)
    | _ => exact (congrArg State.ints hf :)
  · cases i with
    | encf ecc => exact absurd rfl (hencf ecc)
    | thr ring mode inv bias => exact absurd rfl (hthr ring mode inv bias)
    | sweep nv => exact absurd rfl (hsweep nv)
    | _ => exact (congrArg State.bits hf :)
  · cases i with
    | decf => exact absurd rfl hdecf
    | sweep nv => exact absurd rfl (hsweep nv)
    | _ => exact (congrArg State.hdr hf :)
  · have hread : ∀ a, a < 0x400 → Memory.read t.mem a = Memory.read s.mem a :=
      fun a ha => exec_read_below_red h hdecf hvalred hsweep ha
    cases i with
    | decf => exact absurd rfl hdecf
    | valred n => exact absurd rfl (hvalred n)
    | sweep nv => exact absurd rfl (hsweep nv)
    | _ => exact ⟨(congrArg State.outLen hf :), (congrArg State.xorsum hf :), hread⟩

end Sys2Proof.Machine
end

section
/-! PROOFS. The registers an idle host reads: the number each makes, its fields at their places (R22 to R39). -/

namespace Sys2Proof.Machine

open Sys2Proof.Spec

/-! ### Words as numbers -/

theorem ofBool_toNat (b : Bool) : (BitVec.ofBool b).toNat = if b then 1 else 0 := by cases b <;> rfl

theorem codeBits_toNat (c : Code) : (codeBits c).toNat = codeNumber c := by cases c <;> rfl

theorem zeroExtended_toNat {m n : Nat} (x : BitVec n) : (0#m ++ x).toNat = x.toNat := by
  rw [append_toNat, BitVec.toNat_ofNat, Nat.zero_mod, Nat.zero_mul, Nat.zero_add]

/-- `STATUS` (R30) as a number. -/
theorem statusWord_toNat (s : State) : (statusWord s).toNat =
    (if s.cmd.isSome then 1 else 0) + 2 * (if s.done then 1 else 0) + 16 * codeNumber s.code + 256 * s.lastOp.toNat := by
  simp only [statusWord, append_toNat, ofBool_toNat, codeBits_toNat, State.busy, BitVec.toNat_ofNat]
  omega

/-- `HDR_LO` (R31) as a number. -/
theorem hdrLoWord_toNat (h : Header) :
    (hdrLoWord h).toNat = h.ver.toNat + 2 ^ 8 * h.ecc.toNat + 2 ^ 16 * h.payLen.toNat := by
  simp only [hdrLoWord, append_toNat]
  omega

/-- `HDR_HI` (R31) as a number. -/
theorem hdrHiWord_toNat (h : Header) :
    (hdrHiWord h).toNat = h.redLen.toNat + 2 ^ 16 * h.cksum.toNat + 2 ^ 24 * h.ckCalc.toNat := by
  simp only [hdrHiWord, append_toNat]
  omega

/-- `HYP` (R34) as a number. -/
theorem hypWord_toNat (h : HypReg) : (hypWord h).toNat =
    h.var.toNat + 2 ^ 3 * (if h.inv then 1 else 0) + 2 ^ 4 * h.bias.toNat + 2 ^ 7 * (if h.mode then 1 else 0)
      + 2 ^ 8 * h.shift.toNat + 2 ^ 31 * (if h.valid then 1 else 0) := by
  simp only [hypWord, append_toNat, ofBool_toNat, BitVec.toNat_ofNat]
  omega

/-- `PROGRESS` (R36) as a number. -/
theorem progressWord_toNat (p : ProgressReg) :
    (progressWord p).toNat = p.var.toNat + 2 ^ 4 * p.nv.toNat + 2 ^ 8 * p.count.toNat := by
  simp only [progressWord, append_toNat, BitVec.toNat_ofNat]
  omega

/-- `MAP_RS` (R38) as a number. -/
theorem mapRsWord_toNat (m : MapRs) : (mapRsWord m).toNat = m.ring.toNat + 2 ^ 3 * m.sector.toNat := by
  simp only [mapRsWord, append_toNat, BitVec.toNat_ofNat]
  omega

/-! ### Reads -/

/-- An idle host's 4-byte read of the register at offset `a`. -/
theorem hostRead_register {s : State} (hb : s.busy = false) {a : Nat} (ha : a % 4 = 0) (h : a < 0x60) :
    hostRead s (BitVec.ofNat 14 a) .word = .value (regWord s a) := by
  have haddr : (BitVec.ofNat 14 a).toNat = a := by rw [BitVec.toNat_ofNat, Nat.mod_eq_of_lt (by omega)]
  rw [hostRead_reg hb (by rw [haddr, ha]) (by rw [haddr]; exact h), haddr]

/-- Settles O15: register by register. -/
theorem statusShowsItsFields : Obligations.StatusShowsItsFields := by
  refine fun s => ⟨statusWord_toNat s, fun hb => ?_⟩
  have hstatus : (statusWord s).toNat = 2 * (if s.done then 1 else 0) + 16 * codeNumber s.code + 256 * s.lastOp.toNat := by
    have hidle : s.cmd.isSome = false := hb
    rw [statusWord_toNat, hidle, if_neg Bool.false_ne_true, Nat.zero_add]
  have register {a n : Nat} (ha : a % 4 = 0 ∧ a < 0x60) (hn : (regWord s a).toNat = n) :
      ∃ w, hostRead s (BitVec.ofNat 14 a) .word = .value w ∧ w.toNat = n :=
    ⟨_, hostRead_register hb ha.1 ha.2, hn⟩
  simp only [List.forall_mem_cons]
  exact ⟨register (by decide) hstatus, register (by decide) (zeroExtended_toNat s.txtLen),
    register (by decide) (zeroExtended_toNat s.cwLen), register (by decide) (zeroExtended_toNat s.outLen),
    register (by decide) (zeroExtended_toNat s.redLen), register (by decide) (hdrLoWord_toNat s.hdr),
    register (by decide) (hdrHiWord_toNat s.hdr), register (by decide) (zeroExtended_toNat s.xorsum),
    register (by decide) (hypWord_toNat s.hyp), register (by decide) rfl,
    register (by decide) (progressWord_toNat s.progress), register (by decide) (mapRsWord_toNat s.mapRs),
    register (by decide) (zeroExtended_toNat s.mapIdx), fun _ hc => nomatch hc⟩

/-- `RINGTAB0` to `RINGTAB2` (R39) as numbers: the sector counts of two rings each. -/
theorem ringTabWord_toNat {p : Params} (hp : p.Valid) {t : Nat} (ht : t < 3) :
    (ringTabWord p t).toNat = p.sectors (2 * t) + 65536 * p.sectors (2 * t + 1) := by
  have hlo := (hp.1 (2 * t) (by omega)).2
  have hhi := (hp.1 (2 * t + 1) (by omega)).2
  simp only [ringTabWord, append_toNat, BitVec.toNat_ofNat]
  omega

/-- `PARAMS` (R39) as a number. -/
theorem paramsWord_toNat (p : Params) : (paramsWord p).toNat =
    p.versionConst.toNat + 256 * (if p.startFirstBit then 1 else 0) + 4096 * p.radiusTap.toNat + 65536 * 8 + 1048576 * 4 := by
  simp only [paramsWord, append_toNat, ofBool_toNat, BitVec.toNat_ofNat, subsamples, shiftStep]
  omega

/-- Settles O25: four registers show fixed numbers, the others the parameters. -/
theorem constantRegistersShowTheConstants : Obligations.ConstantRegistersShowTheConstants := by
  intro s hb hp
  have hread {a : Nat} (ha : a % 4 = 0) (h : a < 0x60) {w : Word} (hw : regWord s a = w) :
      hostRead s (BitVec.ofNat 14 a) .word = .value w := by rw [hostRead_register hb ha h, hw]
  refine ⟨hread (a := 0x040) rfl (by decide) rfl, hread (a := 0x044) rfl (by decide) (by decide : BitVec.ofNat 32 capData = _),
    hread (a := 0x048) rfl (by decide) (by decide : maxPayWord = _),
    hread (a := 0x04C) rfl (by decide) (by decide : eccTabWord = _), fun t ht => ?_,
    paramsWord s.params, hread (a := 0x05C) rfl (by decide) rfl, paramsWord_toNat s.params⟩
  refine ⟨ringTabWord s.params t, hread (by omega) (by omega) ?_, ringTabWord_toNat hp ht⟩
  interval_cases t <;> rfl

end Sys2Proof.Machine
end

section
/-! PROOFS. Host accesses to the buffers and to locations that nothing stands at: what is written, ignored and read back
(R61, R62, R65 to R68). -/

namespace Sys2Proof.Machine

open Sys2Proof.Spec

/-! ### Bytes -/

/-- The value of a byte access (R63). -/
theorem zeroExtended_eq_ofNat (b : Byte) : (0#24 ++ b : Word) = BitVec.ofNat 32 b.toNat := by
  apply BitVec.eq_of_toNat_eq
  rw [zeroExtended_toNat, BitVec.toNat_ofNat, Nat.mod_eq_of_lt (b.isLt.trans (by decide))]

/-- The host byte at an offset of a byte buffer (R61). -/
theorem hostByte_of_byteOf {s : State} {a : Nat} {b : Buffer} (h : ByteOf a b) :
    hostByte s a = orUnwritten b (Memory.read s.mem a) := by
  unfold hostByte
  simp only [inTxt_iff, inCw_iff, inOut_iff, inRed_iff]
  cases b with
  | txt => obtain ⟨hlo, hhi⟩ := h; rw [if_pos (by omega)]
  | cw => obtain ⟨hlo, hhi⟩ := h; rw [if_neg (by omega), if_pos (by omega)]
  | out => obtain ⟨hlo, hhi⟩ := h; rw [if_neg (by omega), if_neg (by omega), if_pos (by omega)]
  | red => obtain ⟨hlo, hhi⟩ := h; rw [if_neg (by omega), if_neg (by omega), if_neg (by omega), if_pos (by omega)]
  | bits => exact h.elim
  | int => exact h.elim

/-- The host byte at an offset of packed `BITS` (R65). -/
theorem hostByte_bits (s : State) {j : Nat} (hj : j < 168) :
    hostByte s (0x500 + j) = orUnwritten .bits (byteAt s (8 * j)) := by
  unfold hostByte
  simp only [inTxt_iff, inCw_iff, inOut_iff, inRed_iff, inBits_iff]
  rw [if_neg (by omega), if_neg (by omega), if_neg (by omega), if_neg (by omega), if_pos (by omega),
    show 0x500 + j - bitsBase = j by simp only [bitsBase]; omega]

/-- The host byte at an unmapped offset (R67). -/
theorem hostByte_unmapped (s : State) {a : Nat} (h : Unmapped a) : hostByte s a = .ok 0 := by
  unfold Unmapped at h
  unfold hostByte
  simp only [inTxt_iff, inCw_iff, inOut_iff, inRed_iff, inBits_iff]
  rw [if_neg (by omega), if_neg (by omega), if_neg (by omega), if_neg (by omega), if_neg (by omega)]

/-- An idle host's read of one byte of a byte buffer (R61, U6). -/
theorem hostRead_byteOf {s : State} (hb : s.busy = false) {addr : Offset} {b : Buffer} (h : ByteOf addr.toNat b) :
    (∀ v, Memory.read s.mem addr.toNat = some v → hostRead s addr .byte = .value (BitVec.ofNat 32 v.toNat)) ∧
    (Memory.read s.mem addr.toNat = none → hostRead s addr .byte = .unwritten b) := by
  obtain ⟨hvalue, hunwritten⟩ := hostRead_byte (addr := addr) hb (by cases b <;> simp only [ByteOf] at h <;> omega)
  refine ⟨fun v hv => ?_, fun hn => hunwritten b ?_⟩
  · rw [hvalue v (by rw [hostByte_of_byteOf h, hv, orUnwritten]), zeroExtended_eq_ofNat]
  · rw [hostByte_of_byteOf h, hn, orUnwritten]

/-- A byte write to `TXT` or `CW` (R21, R23). -/
theorem hostWrite_byteBuffer {s : State} (hb : s.busy = false) {addr : Offset} {v : Word} (h : HostByteBuffer addr.toNat) :
    hostWrite s addr .byte v = { s with mem := Memory.writeRun s.mem addr.toNat [v.extractLsb' 0 8] } := by
  unfold HostByteBuffer at h
  rw [hostWrite_bytes hb (Nat.mod_one _) (by omega)]
  show writeHostByte s addr.toNat (v.extractLsb' 0 8) = _
  unfold writeHostByte
  simp only [inTxt_iff, inCw_iff]
  rcases h with h | h
  · rw [if_pos h]
  · rw [if_neg (by omega), if_pos h]

/-! ### `INT` -/

/-- The offset of entry `p` (R61). -/
theorem intOffset_toNat {p : Nat} (hp : p < 1344) : (BitVec.ofNat 14 (0x1000 + 4 * p)).toNat = 0x1000 + 4 * p := by
  rw [BitVec.toNat_ofNat, Nat.mod_eq_of_lt (by omega)]

/-- An idle host's read of an `INT` word (R66, U6). -/
theorem hostRead_int {s : State} (hb : s.busy = false) {p : Nat} (hp : p < 1344) :
    hostRead s (BitVec.ofNat 14 (0x1000 + 4 * p)) .word =
      ((Memory.read s.ints p).map ReadResult.value).getD (.unwritten .int) := by
  simp only [hostRead, hb, sizeBytes, intOffset_toNat hp, regEnd_eq, inInt_iff, Bool.false_eq_true, if_false, if_true]
  rw [if_neg (by omega), if_neg (by omega), if_pos (by omega),
    show (0x1000 + 4 * p - intBase) / 4 = p by simp only [intBase]; omega]
  cases Memory.read s.ints p <;> rfl

/-- An idle host's write of an `INT` word (R66). -/
theorem hostWrite_int {s : State} (hb : s.busy = false) {p : Nat} (hp : p < 1344) (v : Word) :
    hostWrite s (BitVec.ofNat 14 (0x1000 + 4 * p)) .word v = writeInts s p [v] := by
  simp only [hostWrite, hb, sizeBytes, intOffset_toNat hp, regEnd_eq, inInt_iff, Bool.false_eq_true, if_false, if_true]
  rw [if_neg (by omega), if_neg (by omega), if_pos (by omega),
    show (0x1000 + 4 * p - intBase) / 4 = p by simp only [intBase]; omega]

/-- One element written to a store. -/
theorem Memory.read_writeOne {α : Type} (l : List (Nat × α)) (a : Nat) (v : α) (b : Nat) :
    Memory.read (Memory.writeRun l a [v]) b = if b = a then some v else Memory.read l b := by
  split_ifs with h
  · subst h; exact Memory.read_writeRun_inside (i := 0) (vals := [v]) Nat.one_pos
  · rw [Memory.read_writeRun_outside (by rw [List.length_singleton]; omega)]

/-- Settles O24: the word goes to its entry whole. -/
theorem intWordIsStoredWhole : Obligations.IntWordIsStoredWhole := by
  intro s p v hb hp
  rw [hostWrite_int hb hp]
  refine ⟨?_, fun q hq => ?_, rfl⟩
  · rw [hostRead_int (s := writeInts s p [v]) hb hp, writeInts_ints, Memory.read_writeOne, if_pos rfl]; rfl
  · rw [writeInts_ints, Memory.read_writeOne, if_neg hq]

/-! ### Reading back -/

/-- `TXT_LEN` keeps bits 15:0 of what an idle host writes to it (R22). -/
theorem hostWrite_txtLen {s : State} (hb : s.busy = false) (v : Word) :
    hostWrite s 0x008 .word v = { s with txtLen := BitVec.ofNat 16 v.toNat } := by
  rw [← extractLsb'_zero]
  exact hostWrite_reg hb (by decide) (by decide)

/-- `CW_LEN` keeps bits 7:0 of what an idle host writes to it (R23). -/
theorem hostWrite_cwLen {s : State} (hb : s.busy = false) (v : Word) :
    hostWrite s 0x00C .word v = { s with cwLen := BitVec.ofNat 8 v.toNat } := by
  rw [← extractLsb'_zero]
  exact hostWrite_reg hb (by decide) (by decide)

theorem zeroExtended_ofNat (v : Word) (m n : Nat) :
    (0#m ++ BitVec.ofNat n v.toNat).toNat = (BitVec.ofNat 32 (v.toNat % 2 ^ n)).toNat := by
  have hle : v.toNat % 2 ^ n < 2 ^ 32 := (Nat.mod_le _ _).trans_lt v.isLt
  rw [zeroExtended_toNat, BitVec.toNat_ofNat, BitVec.toNat_ofNat, Nat.mod_eq_of_lt hle]

/-- Settles O21: buffer by buffer, what is written and what is read. -/
theorem hostByteIsReadBack : Obligations.HostByteIsReadBack := by
  intro s hb
  refine ⟨fun addr v h => ?_, fun v => ?_, fun a buffer h => ?_, fun j k hj hk hnone => ?_, fun p hp hnone => ?_⟩
  · rw [hostWrite_byteBuffer hb h]
    have hbuffer : ∃ b, ByteOf addr.toNat b := h.elim (⟨.txt, ·⟩) (⟨.cw, ·⟩)
    obtain ⟨b, hbuffer⟩ := hbuffer
    refine ⟨?_, fun a ha => ?_, rfl⟩
    · rw [(hostRead_byteOf (by exact hb) hbuffer).1 (v.extractLsb' 0 8)
        (by rw [Memory.read_writeOne, if_pos rfl]), BitVec.extractLsb'_toNat, Nat.shiftRight_zero]
    · rw [Memory.read_writeOne, if_neg ha]
  · rw [hostWrite_txtLen hb, hostWrite_cwLen hb]
    refine ⟨rfl, ?_, rfl, ?_⟩
    · exact (hostRead_register (s := { s with txtLen := BitVec.ofNat 16 v.toNat }) (a := 0x008) hb rfl (by decide)).trans
        (congrArg _ (BitVec.eq_of_toNat_eq (zeroExtended_ofNat v 16 16)))
    · exact (hostRead_register (s := { s with cwLen := BitVec.ofNat 8 v.toNat }) (a := 0x00C) hb rfl (by decide)).trans
        (congrArg _ (BitVec.eq_of_toNat_eq (zeroExtended_ofNat v 24 8)))
  · have haddr : (BitVec.ofNat 14 a).toNat = a := by
      rw [BitVec.toNat_ofNat, Nat.mod_eq_of_lt (by cases buffer <;> simp only [ByteOf] at h <;> omega)]
    have hread := hostRead_byteOf (addr := BitVec.ofNat 14 a) hb (by rw [haddr]; exact h)
    rwa [haddr] at hread
  · have haddr : (BitVec.ofNat 14 (0x500 + j)).toNat = 0x500 + j := by
      rw [BitVec.toNat_ofNat, Nat.mod_eq_of_lt (by omega)]
    refine (hostRead_byte hb (by rw [haddr]; omega)).2 .bits ?_
    rw [haddr, hostByte_bits s hj, byteAt_eq_none.mpr ⟨k, hk, hnone⟩, orUnwritten]
  · rw [hostRead_int hb hp, hnone]; rfl

/-! ### Nothing there -/

theorem writeReg_readOnly (s : State) {a : Nat} (v : Word) (ha : a % 4 = 0) (h : ¬ HostWritable a) : writeReg s a v = s := by
  unfold HostWritable at h
  unfold writeReg
  split
  · omega
  · omega
  · omega
  · rfl

theorem writeHostByte_readOnly (s : State) {a : Nat} (b : Byte) (h : ¬ HostWritable a) : writeHostByte s a b = s := by
  unfold HostWritable at h
  unfold writeHostByte
  simp only [inTxt_iff, inCw_iff, inBits_iff]
  rw [if_neg (by omega), if_neg (by omega), if_neg (by omega)]

theorem writeHostBytes_readOnly {s : State} {a : Nat} {l : List Byte} (h : ∀ j < l.length, ¬ HostWritable (a + j)) :
    writeHostBytes s a l = s := by
  induction l generalizing a with
  | nil => rfl
  | cons b l ih =>
    have h0 : ¬ HostWritable a := h 0 (Nat.zero_lt_succ _)
    rw [writeHostBytes, writeHostByte_readOnly s b h0]
    refine ih fun j hj => ?_
    rw [Nat.add_right_comm]
    exact h (j + 1) (Nat.succ_lt_succ hj)

theorem sizeBytes_pos (size : AccessSize) : 0 < sizeBytes size := by cases size <;> decide

theorem sizeBytes_eq_four {size : AccessSize} : sizeBytes size = 4 ↔ size = .word := by cases size <;> decide

theorem hostBytes_unmapped (s : State) {a n : Nat} (h : ∀ j < n, Unmapped (a + j)) :
    hostBytes s a n = .ok (List.replicate n 0) := by
  induction n generalizing a with
  | zero => rfl
  | succ n ih =>
    have htail := ih (a := a + 1) fun j hj => by rw [Nat.add_right_comm]; exact h (j + 1) (Nat.succ_lt_succ hj)
    have h0 : Unmapped a := h 0 (Nat.zero_lt_succ _)
    simp only [hostBytes, hostByte_unmapped s h0, htail, List.replicate_succ]

theorem regWord_unmapped (s : State) {a : Nat} (h : 0x38 ≤ a ∧ a < 0x40) : regWord s a = 0 := by
  obtain ⟨hlo, hhi⟩ := h
  interval_cases a <;> rfl

/-- A write none of whose bytes the host can change (R67, R68). -/
theorem hostWrite_readOnly {s : State} {addr : Offset} {size : AccessSize} (v : Word)
    (h : ∀ j < sizeBytes size, ¬ HostWritable (addr.toNat + j)) : hostWrite s addr size v = s := by
  have h0 : ¬ HostWritable addr.toNat := h 0 (sizeBytes_pos size)
  unfold hostWrite
  dsimp only
  split_ifs with hbusy halign hreg hword hint hword
  · rfl
  · rfl
  · exact writeReg_readOnly s v (by rw [hword] at halign; omega) h0
  · rfl
  · exact absurd (inInt_iff.mp hint) (by unfold HostWritable at h0; omega)
  · rfl
  · exact writeHostBytes_readOnly fun j hj => h j (hj.trans_le (List.length_take_le _ _))

/-- An access that R62 takes, at unmapped bytes only (R67). -/
theorem hostRead_unmapped {s : State} (hb : s.busy = false) {addr : Offset} {size : AccessSize}
    (hr : ¬ RefusedAccess addr.toNat size) (h : ∀ j < sizeBytes size, Unmapped (addr.toNat + j)) :
    hostRead s addr size = .value 0 := by
  have h0 : Unmapped addr.toNat := h 0 (sizeBytes_pos size)
  have halign : addr.toNat % sizeBytes size = 0 := by_contra fun hne => hr (.inl hne)
  by_cases hreg : addr.toNat < 0x60
  · have hword : size = .word := by_contra fun hne => hr (.inr ⟨.inl hreg, hne⟩)
    subst hword
    rw [hostRead_reg hb halign hreg, regWord_unmapped s (by unfold Unmapped at h0; omega)]
  · rw [hostRead_bytes hb halign (by unfold Unmapped at h0; omega), hostBytes_unmapped s h]
    cases size <;> rfl

/-- Settles O19: a read of `CMD` that R62 takes is a 4-byte one. -/
theorem readOnlyAndUnmappedLocations : Obligations.ReadOnlyAndUnmappedLocations := by
  refine fun s addr size => ⟨fun v h => hostWrite_readOnly v h, fun hb hr h => ?_⟩
  rcases h with rfl | h
  · have hword : size = .word := by_contra fun hne => hr (.inr ⟨.inl (by decide), hne⟩)
    subst hword
    exact hostRead_reg hb (by decide) (by decide)
  · exact hostRead_unmapped hb hr h

end Sys2Proof.Machine
end

section
/-! PROOFS. `VALRED` on a codeword whose bytes are given, and `DECF` on a frame whose bytes are given (R140, R165, R166). -/

namespace Sys2Proof.Machine

open Sys2Proof.Spec

/-! ### Bytes given one by one -/

/-- A run whose elements are given is read. -/
theorem Memory.readRun_of_reads {α : Type} {l : List (Nat × α)} {a n : Nat} {b : Nat → α}
    (h : ∀ j < n, Memory.read l (a + j) = some (b j)) : Memory.readRun l a n = some ((List.range n).map b) :=
  Memory.readRun_eq_some.mpr ⟨by simp, fun j hj => by simp [h j hj, hj]⟩

/-- A run of bytes of the bitstream that are given is read (R11). -/
theorem bytesAt_of_byteAt {s : State} {p n : Nat} {b : Nat → Byte} (h : ∀ c < n, ByteAt s.bits (p + 8 * c) (b c)) :
    bytesAt s p n = some ((List.range n).map b) :=
  bytesAt_eq_some.mpr ⟨by simp, fun c hc => by simp [byteAt_eq_some.mpr (h c hc), hc]⟩

theorem suspectCount_map_range (m : Nat) (b : Nat → Byte) : suspectCount ((List.range m).map b) = suspects m b := by
  rw [suspectCount, List.countP_map, List.countP_eq_length_filter]
  rfl

theorem xorBytes_map_range (m : Nat) (b : Nat → Byte) : xorBytes ((List.range m).map b) = xorUpTo m b := by
  rw [xorBytes, xorUpTo, List.foldl_map]

/-- The filter on `m` data bytes followed by `n` others (R165). -/
theorem valred_map_range {m : Nat} (hm : 0 < m) (n : Nat) (b : Nat → Byte) :
    valred ((List.range (m + n)).map b) n =
      (if 4 * m < 5 * suspects m b then none else some ((List.range m).map b), xorUpTo m b) := by
  have h := valred_append ((List.range m).map b) ((List.range n).map fun j => b (m + j)) (by simpa using hm)
  rw [List.length_map, List.length_map, List.length_range, List.length_range, suspectCount_map_range,
    xorBytes_map_range] at h
  rw [← h, List.range_add, List.map_append, List.map_map]
  rfl

theorem valred_map_range_passes {m : Nat} (hm : 0 < m) (n : Nat) {b : Nat → Byte} (h : 5 * suspects m b ≤ 4 * m) :
    valred ((List.range (m + n)).map b) n = (some ((List.range m).map b), xorUpTo m b) := by
  rw [valred_map_range hm, if_neg (by omega)]

theorem valred_map_range_fails {m : Nat} (hm : 0 < m) (n : Nat) {b : Nat → Byte} (h : 4 * m < 5 * suspects m b) :
    valred ((List.range (m + n)).map b) n = (none, xorUpTo m b) := by
  rw [valred_map_range hm, if_pos h]

/-- Data delivered to `OUT`: the bytes there, and all others as before (R24). -/
theorem writeOut_map_range (s : State) (m : Nat) (b : Nat → Byte) :
    (∀ j < m, Memory.read (writeOut s ((List.range m).map b)).mem (0x300 + j) = some (b j)) ∧
    ∀ a, a < 0x300 ∨ 0x300 + m ≤ a → Memory.read (writeOut s ((List.range m).map b)).mem a = Memory.read s.mem a := by
  have hl : ((List.range m).map b).length = m := by simp
  refine ⟨fun j hj => ?_, fun a ha => ?_⟩
  · refine (Memory.read_writeRun_inside (a := outBase) (by rw [hl]; exact hj)).trans ?_
    simp
  · exact Memory.read_writeRun_outside (by rw [hl]; exact ha)

/-! ### VALRED -/

theorem exec_valred_delivers {s : State} {n : BitVec 8} {cw data : List Byte} {x : Byte} (hl : s.cwLen.toNat ≤ 157)
    (hcw : readCw s = some cw) (hv : valred cw n.toNat = (some data, x)) :
    exec (.valred n) s = .next (complete .ok { writeOut s data with xorsum := x, outLen := s.cwLen - n }) := by
  rw [exec_valred, execValred, if_neg (show ¬ codewordBytes < s.cwLen.toNat from Nat.not_lt.mpr hl), hcw]
  simp only [hv]

theorem exec_valred_fails {s : State} {n : BitVec 8} {cw : List Byte} {x : Byte} (hl : s.cwLen.toNat ≤ 157)
    (hcw : readCw s = some cw) (hv : valred cw n.toNat = (none, x)) :
    exec (.valred n) s = .next (complete .redundancyValidationFailed { s with xorsum := x, outLen := 0 }) := by
  rw [exec_valred, execValred, if_neg (show ¬ codewordBytes < s.cwLen.toNat from Nat.not_lt.mpr hl), hcw]
  simp only [hv]
  rfl

/-- Settles O34: the data is what is left of the codeword, and the filter passes it. -/
theorem valredDeliversTheData : Obligations.ValredDeliversTheData := by
  intro s n b hl hn hcw hpass
  have hv := valred_map_range_passes (Nat.sub_pos_of_lt hn) n.toNat hpass
  rw [Nat.sub_add_cancel hn.le] at hv
  obtain ⟨hdata, hrest⟩ := writeOut_map_range s (s.cwLen.toNat - n.toNat) b
  exact ⟨_, exec_valred_delivers hl (Memory.readRun_of_reads hcw) hv, rfl,
    BitVec.toNat_sub_of_le (BitVec.le_def.mpr hn.le), hdata, hrest⟩

/-- Settles O35: no data is left, or the filter rejects it. -/
theorem valredRejects : Obligations.ValredRejects := by
  intro s n b hl hcw
  have hread := Memory.readRun_of_reads hcw
  refine ⟨fun hn => ?_, fun hn hfail => ?_⟩
  · exact exec_valred_fails hl hread (valred_of_le (by simpa using hn))
  · have hv := valred_map_range_fails (Nat.sub_pos_of_lt hn) n.toNat hfail
    rw [Nat.sub_add_cancel hn.le] at hv
    exact exec_valred_fails hl hread hv

/-! ### DECF -/

theorem payLenOf_lt (hb : Nat → Byte) : payLenOf hb < 65536 := by
  have h2 := (hb 2).isLt
  have h3 := (hb 3).isLt
  unfold payLenOf
  omega

theorem redLenOf_lt (hb : Nat → Byte) : redLenOf hb < 65536 := by
  have h4 := (hb 4).isLt
  have h5 := (hb 5).isLt
  unfold redLenOf
  omega

theorem headerRegister_payLen (hb : Nat → Byte) : (headerRegister hb).payLen.toNat = payLenOf hb :=
  (BitVec.toNat_ofNat _ _).trans (Nat.mod_eq_of_lt (payLenOf_lt hb))

theorem headerRegister_redLen (hb : Nat → Byte) : (headerRegister hb).redLen.toNat = redLenOf hb :=
  (BitVec.toNat_ofNat _ _).trans (Nat.mod_eq_of_lt (redLenOf_lt hb))

/-- A number of two bytes, the high byte first (R82). -/
theorem append_eq_ofNat (hi lo : Byte) : (hi ++ lo : BitVec 16) = BitVec.ofNat 16 (256 * hi.toNat + lo.toNat) := by
  have h1 := hi.isLt
  have h2 := lo.isLt
  apply BitVec.eq_of_toNat_eq
  rw [append_toNat, BitVec.toNat_ofNat]
  omega

/-- The header of seven given bytes (R31, R82, R83). -/
theorem readHeader_of_headerIs {s : State} {hb : Nat → Byte} (h : HeaderIs s hb) :
    readHeader s = some (headerRegister hb) := by
  have hbytes : bytesAt s startLen 7 = some ((List.range 7).map hb) := bytesAt_of_byteAt h
  rw [readHeader, hbytes]
  show some _ = some _
  simp only [headerRegister, payLenOf, redLenOf, ← append_eq_ofNat]
  rfl

theorem levelCapacity_headerRegister (hb : Nat → Byte) : levelCapacity (headerRegister hb).ecc = capacityOf hb := rfl

theorem checksum_matches {hb : Nat → Byte} (h : checksumOf hb = (hb 6).toNat) :
    (headerRegister hb).ckCalc = (headerRegister hb).cksum := by
  show BitVec.ofNat 8 (checksumOf hb) = hb 6
  rw [h, BitVec.ofNat_toNat, BitVec.setWidth_eq]

/-- What `DECF` finds in a frame with an accepted header whose payload passes the filter (R140, R144). -/
theorem decfOut_delivers {s : State} {hb cw : Nat → Byte} (hh : HeaderIs s hb) (ha : HeaderAccepted hb)
    (hcw : ∀ c < payLenOf hb + redLenOf hb, ByteAt s.bits (88 + 8 * c) (cw c))
    (hpass : 5 * suspects (payLenOf hb) cw ≤ 4 * payLenOf hb) :
    decfOut s = some (headerRegister hb, .ok, some (xorUpTo (payLenOf hb) cw),
      some ((List.range (payLenOf hb)).map cw)) := by
  obtain ⟨hsum, hpay, hcap⟩ := ha
  have hbytes : bytesAt s codewordAt (payLenOf hb + redLenOf hb) = some ((List.range (payLenOf hb + redLenOf hb)).map cw) :=
    bytesAt_of_byteAt hcw
  have hv := valred_map_range_passes (Nat.pos_of_ne_zero hpay) (redLenOf hb) hpass
  simp only [decfOut, readHeader_of_headerIs hh, headerRegister_payLen, headerRegister_redLen,
    levelCapacity_headerRegister, hbytes, hv]
  rw [if_neg (not_not.mpr (checksum_matches hsum)), if_neg (by omega)]

/-- `DECF` ends with what it finds. -/
theorem exec_decf_of_decfOut {s : State} {h : Header} {c : Code} {x : Option Byte} {d : Option (List Byte)}
    (ho : decfOut s = some (h, c, x, d)) : exec .decf s = .next (complete c (decfPut s h x d)) := by
  rw [exec_decf, execDecf, decfRun_eq, ho]
  rfl

/-- Settles O40: `DECF` finds the declared payload and delivers it. -/
theorem decfDeliversThePayload : Obligations.DecfDeliversThePayload := by
  intro s hb cw hh ha hcw hpass
  have hlen : payLenOf hb ≤ codewordBytes := by
    obtain ⟨-, -, hcap⟩ := ha
    have : capacityOf hb ≤ 157 := by unfold capacityOf; split <;> decide
    simp only [codewordBytes]
    omega
  obtain ⟨hdata, hrest⟩ := writeOut_map_range s (payLenOf hb) cw
  refine ⟨_, exec_decf_of_decfOut (decfOut_delivers hh ha hcw hpass), rfl, ?_, hdata, hrest⟩
  show (BitVec.ofNat 8 ((List.range (payLenOf hb)).map cw).length).toNat = payLenOf hb
  rw [List.length_map, List.length_range, dataLength_toNat hlen]

end Sys2Proof.Machine
end

section
/-! PROOFS. Sampled intensities are bytes (R186), and what the two threshold strategies write (R190 to R193). -/

namespace Sys2Proof.Machine

open Sys2Proof.Spec

/-! ### Sums and counts -/

/-- A sum of `CNT` bytes, at most one for each request (R184). -/
theorem aggregate_le {u : TapUnit} {qs : List TapRequest} {sc : Nat × Nat} (h : aggregate u qs = some sc) :
    sc.2 ≤ qs.length ∧ sc.1 ≤ 255 * sc.2 := by
  induction qs generalizing sc with
  | nil => cases h; exact ⟨le_rfl, le_rfl⟩
  | cons q qs ih =>
    unfold aggregate at h
    rw [List.length_cons]
    split at h
    · cases h
    · have := ih h
      omega
    · next b _ =>
      obtain ⟨sc', h', rfl⟩ := Option.map_eq_some_iff.mp h
      have := ih h'
      have := b.isLt
      simp only
      omega

/-- A sector makes eight times `2T + 1` requests (R182). -/
theorem sectorRequests_length (t var ring sector shift : Nat) :
    (sectorRequests t var ring sector shift).length = 8 * (2 * t + 1) := by
  simp only [sectorRequests, tapOffsets, List.length_flatMap, List.length_map, List.length_range, List.map_const',
    List.sum_replicate, smul_eq_mul, subsamples]

theorem entryWord_sum (sc : Nat × Nat) : ((entryWord sc).extractLsb' 0 16).toNat = sc.1 % 65536 := by
  rw [BitVec.extractLsb'_toNat, Nat.shiftRight_zero]
  simp only [entryWord, append_toNat, BitVec.toNat_ofNat]
  omega

theorem entryWord_cnt (sc : Nat × Nat) : ((entryWord sc).extractLsb' 16 8).toNat = sc.2 % 256 := by
  rw [BitVec.extractLsb'_toNat, Nat.shiftRight_eq_div_pow]
  simp only [entryWord, append_toNat, BitVec.toNat_ofNat]
  omega

/-- The value of an entry whose sum is of `CNT` bytes (R28, R186). -/
theorem valueOf_mem_byte {e : Word} (h : (e.extractLsb' 0 16).toNat ≤ 255 * (e.extractLsb' 16 8).toNat) :
    0 ≤ valueOf e ∧ valueOf e ≤ 255 := by
  unfold valueOf
  split
  · norm_num
  · next hcnt =>
    have hpos : (0 : Rat) < ((e.extractLsb' 16 8).toNat : Rat) := Nat.cast_pos.mpr (Nat.pos_of_ne_zero hcnt)
    exact ⟨by positivity, (div_le_iff₀ hpos).mpr (by exact_mod_cast h)⟩

/-- An entry `SAMP` makes has a byte as its value (R186). -/
theorem sectorEntry_value {s : State} {var ring shift sector : Nat} {e : Word}
    (h : sectorEntry s var ring shift sector = some e) : 0 ≤ valueOf e ∧ valueOf e ≤ 255 := by
  obtain ⟨sc, hsc, rfl⟩ := Option.map_eq_some_iff.mp h
  obtain ⟨hcnt, hsum⟩ := aggregate_le hsc
  rw [sectorRequests_length] at hcnt
  have hradius := s.params.radiusTap.isLt
  apply valueOf_mem_byte
  rw [entryWord_sum, entryWord_cnt]
  omega

/-- Settles O48: a `SAMP` that has completed with `OK` wrote the entries of its ring. -/
theorem sampledIntensitiesAreBytes : Obligations.SampledIntensitiesAreBytes := by
  intro s t ring var shift h hcode hbusy hidle sct hsct
  rcases execSamp_cases h with ⟨-, rfl⟩ | ⟨-, -, -, ⟨-, rfl⟩ | ⟨u, hu, rfl⟩⟩
  · cases hcode
  · rw [hbusy] at hidle; cases hidle
  · obtain ⟨es, hlen, hes, rfl⟩ := sampRun_eq_some.mp hu
    have hlt : sct < es.length := hlen ▸ hsct
    refine ⟨es[sct], ?_, sectorEntry_value ((hes sct hsct).trans (List.getElem?_eq_getElem hlt))⟩
    rw [offset_eq]
    exact Memory.read_writeRun_inside hlt

/-! ### Percentiles -/

/-- Settles O49: the threshold is read off any ascending arrangement of the intensities. -/
theorem thrPercentileWritesTheBits : Obligations.ThrPercentileWritesTheBits := by
  intro s ring i inv vals sorted p30 p70 hring hi hvals hperm hsorted hp30 hp70
  refine thr_result hring hi hvals ?_
  rw [threshold, percentileThreshold, percentile_eq hperm hsorted hp30, percentile_eq hperm hsorted hp70, bias_eq hi]

/-! ### Histogram splits -/

/-- The weights and sums of the two classes of the split at `t` (R191). -/
theorem classes_of_split (bins : List Nat) (t : Nat) :
    (bins.filter (· ≤ t)).length + (bins.filter (t < ·)).length = bins.length ∧
    (bins.filter (· ≤ t)).sum + (bins.filter (t < ·)).sum = bins.sum := by
  induction bins with
  | nil => exact ⟨rfl, rfl⟩
  | cons b bins ih =>
    by_cases h : b ≤ t
    · simp only [List.filter_cons, h, Nat.not_lt.mpr h, decide_true, decide_false, if_true, Bool.false_eq_true,
        if_false, List.length_cons, List.sum_cons]
      omega
    · simp only [List.filter_cons, h, Nat.not_le.mp h, decide_true, decide_false, if_true, Bool.false_eq_true,
        if_false, List.length_cons, List.sum_cons]
      omega

/-- The lower class of the split at `t`, from the bins below `t` (R191). -/
theorem lowerClass_eq (bins : List Nat) (t : Nat) :
    (bins.filter (· ≤ t)).length = (bins.filter (· < t)).length + bins.count t ∧
    (bins.filter (· ≤ t)).sum = (bins.filter (· < t)).sum + t * bins.count t := by
  induction bins with
  | nil => exact ⟨rfl, rfl⟩
  | cons b bins ih =>
    obtain ⟨ihl, ihs⟩ := ih
    rcases Nat.lt_trichotomy b t with h | rfl | h
    · simp [h, h.le, h.ne, ihl, ihs, Nat.add_left_comm, Nat.add_comm]
    · simp [ihl, ihs, Nat.mul_add, Nat.add_assoc, Nat.add_left_comm, Nat.add_comm]
    · simp [h.not_gt, h.not_ge, h.ne', ihl, ihs]

theorem filter_lt_succ (bins : List Nat) (t : Nat) : bins.filter (· < t + 1) = bins.filter (· ≤ t) :=
  List.filter_congr fun b _ => by simp

/-- A split is one whose classes have weight (R191). -/
theorem splits_iff {bins : List Nat} {t : Nat} (ht : t < 256) :
    Splits bins t ↔ (bins.filter (· ≤ t)).length ≠ 0 ∧ (bins.filter (t < ·)).length ≠ 0 := by
  simp [Splits, ht, List.length_eq_zero_iff, List.filter_eq_nil_iff]

/-- The score of the split at `t` as a fraction (R191). -/
def splitValue (bins : List Nat) (t : Nat) : Rat := (scoreNum bins t : Rat) / (scoreDen bins t : Rat)

theorem scoreDen_pos {bins : List Nat} {t : Nat} (h : Splits bins t) : (0 : Rat) < (scoreDen bins t : Rat) := by
  obtain ⟨h0, h1⟩ := (splits_iff h.1).mp h
  have h0' := Nat.pos_of_ne_zero h0
  have h1' := Nat.pos_of_ne_zero h1
  unfold scoreDen
  positivity

theorem splitValue_le_iff {bins : List Nat} {a b : Nat} (ha : Splits bins a) (hb : Splits bins b) :
    splitValue bins a ≤ splitValue bins b ↔
      scoreNum bins a * scoreDen bins b ≤ scoreNum bins b * scoreDen bins a := by
  rw [splitValue, splitValue, div_le_div_iff₀ (scoreDen_pos ha) (scoreDen_pos hb)]
  exact_mod_cast Iff.rfl

theorem splitValue_lt_iff {bins : List Nat} {a b : Nat} (ha : Splits bins a) (hb : Splits bins b) :
    splitValue bins a < splitValue bins b ↔
      scoreNum bins a * scoreDen bins b < scoreNum bins b * scoreDen bins a := by
  rw [splitValue, splitValue, div_lt_div_iff₀ (scoreDen_pos ha) (scoreDen_pos hb)]
  exact_mod_cast Iff.rfl

/-- The score the search computes for the split at `t` (R191). -/
def scoreAt (bins : List Nat) (t : Nat) : Nat × Nat :=
  splitScore (bins.filter (· ≤ t)).length (bins.filter (· ≤ t)).sum (bins.filter (t < ·)).length (bins.filter (t < ·)).sum

theorem scoreAt_cast (bins : List Nat) (t : Nat) :
    ((scoreAt bins t).1 : Int) = scoreNum bins t ∧ ((scoreAt bins t).2 : Int) = scoreDen bins t := by
  refine ⟨?_, by simp [scoreAt, splitScore, scoreDen]⟩
  simp only [scoreAt, splitScore, scoreNum, Nat.cast_pow, Int.natCast_natAbs, sq_abs]
  push_cast
  rfl

/-- A split beats another exactly where its score is greater (R191). -/
theorem beats_scoreAt {bins : List Nat} {a b : Nat} (ha : Splits bins a) (hb : Splits bins b) :
    beats (scoreAt bins b) (some (scoreAt bins a)) = true ↔ splitValue bins a < splitValue bins b := by
  obtain ⟨ha1, ha2⟩ := scoreAt_cast bins a
  obtain ⟨hb1, hb2⟩ := scoreAt_cast bins b
  rw [splitValue_lt_iff ha hb, ← ha1, ← ha2, ← hb1, ← hb2, beats, decide_eq_true_iff]
  exact_mod_cast Iff.rfl

/-- `t` is the lowest of the splits below `n` of greatest score. -/
def BestBelow (bins : List Nat) (n t : Nat) : Prop :=
  Splits bins t ∧ ∀ t' < n, Splits bins t' →
    splitValue bins t' ≤ splitValue bins t ∧ (t' < t → splitValue bins t' < splitValue bins t)

/-- Where the split search stands before candidate `n` (R191). -/
structure SearchedBelow (bins : List Nat) (n : Nat) (acc : Split) : Prop where
  weight : acc.w0 = (bins.filter (· < n)).length
  sum : acc.s0 = (bins.filter (· < n)).sum
  found : (acc.best = none ∧ acc.tstar = 0 ∧ ∀ t < n, ¬ Splits bins t) ∨
    (acc.best = some (scoreAt bins acc.tstar) ∧ acc.tstar < n ∧ BestBelow bins n acc.tstar)

/-- One candidate of the split search: passed over, or the best so far (R191). -/
theorem splitStep_cases {bins : List Nat} {n : Nat} (hn : n < 256) {acc : Split} (h : SearchedBelow bins n acc) :
    (splitStep bins acc n = { acc with w0 := (bins.filter (· ≤ n)).length, s0 := (bins.filter (· ≤ n)).sum } ∧
      (Splits bins n → beats (scoreAt bins n) acc.best = false)) ∨
    (splitStep bins acc n =
      { w0 := (bins.filter (· ≤ n)).length, s0 := (bins.filter (· ≤ n)).sum, best := some (scoreAt bins n), tstar := n } ∧
      Splits bins n ∧ beats (scoreAt bins n) acc.best = true) := by
  obtain ⟨hlen, hsum⟩ := classes_of_split bins n
  obtain ⟨hlow, hlows⟩ := lowerClass_eq bins n
  have e0 : acc.w0 + bins.count n = (bins.filter (· ≤ n)).length := by rw [h.weight, hlow]
  have e1 : acc.s0 + n * bins.count n = (bins.filter (· ≤ n)).sum := by rw [h.sum, hlows]
  have e2 : bins.length - (bins.filter (· ≤ n)).length = (bins.filter (n < ·)).length := by omega
  have e3 : bins.sum - (bins.filter (· ≤ n)).sum = (bins.filter (n < ·)).sum := by omega
  simp only [splitStep, e0, e1, e2, e3, ← scoreAt.eq_def]
  split_ifs with hempty hbeats
  · exact .inl ⟨rfl, fun hs => by have := (splits_iff hn).mp hs; omega⟩
  · exact .inr ⟨rfl, (splits_iff hn).mpr (not_or.mp hempty), hbeats⟩
  · exact .inl ⟨rfl, fun _ => eq_false_of_ne_true hbeats⟩

/-- A candidate passed over changes nothing about the best split. -/
theorem BestBelow.skip {bins : List Nat} {n t : Nat} (h : BestBelow bins n t) (ht : t < n)
    (hn : Splits bins n → splitValue bins n ≤ splitValue bins t) : BestBelow bins (n + 1) t := by
  refine ⟨h.1, fun t' ht' hs => ?_⟩
  rcases Nat.lt_succ_iff_lt_or_eq.mp ht' with hlt | rfl
  · exact h.2 t' hlt hs
  · exact ⟨hn hs, fun hlt => absurd hlt ht.not_gt⟩

/-- A candidate greater than all before it is the best split. -/
theorem bestBelow_of_greatest {bins : List Nat} {n : Nat} (hs : Splits bins n)
    (h : ∀ t < n, Splits bins t → splitValue bins t < splitValue bins n) : BestBelow bins (n + 1) n := by
  refine ⟨hs, fun t' ht' hs' => ?_⟩
  rcases Nat.lt_succ_iff_lt_or_eq.mp ht' with hlt | rfl
  · exact ⟨(h t' hlt hs').le, fun _ => h t' hlt hs'⟩
  · exact ⟨le_rfl, fun hlt => absurd hlt (lt_irrefl _)⟩

theorem SearchedBelow.step {bins : List Nat} {n : Nat} (hn : n < 256) {acc : Split} (h : SearchedBelow bins n acc) :
    SearchedBelow bins (n + 1) (splitStep bins acc n) := by
  rcases splitStep_cases hn h with ⟨he, hkeep⟩ | ⟨he, hs, hbeats⟩
  · rw [he]
    refine ⟨by rw [filter_lt_succ], by rw [filter_lt_succ], ?_⟩
    rcases h.found with ⟨hbest, htstar, hnone⟩ | ⟨hbest, hlt, hbelow⟩
    · refine .inl ⟨hbest, htstar, fun t ht hs => ?_⟩
      rcases Nat.lt_succ_iff_lt_or_eq.mp ht with hlt | rfl
      · exact hnone t hlt hs
      · have := hkeep hs
        rw [hbest] at this
        cases this
    · refine .inr ⟨hbest, hlt.trans (Nat.lt_succ_self n), hbelow.skip hlt fun hs => not_lt.mp fun hgt => ?_⟩
      have := hkeep hs
      rw [hbest, (beats_scoreAt hbelow.1 hs).mpr hgt] at this
      cases this
  · rw [he]
    refine ⟨by rw [filter_lt_succ], by rw [filter_lt_succ],
      .inr ⟨rfl, Nat.lt_succ_self n, bestBelow_of_greatest hs fun t ht hst => ?_⟩⟩
    rcases h.found with ⟨-, -, hnone⟩ | ⟨hbest, -, hbelow⟩
    · exact absurd hst (hnone t ht)
    · rw [hbest] at hbeats
      exact (hbelow.2 t ht hst).1.trans_lt ((beats_scoreAt hbelow.1 hs).mp hbeats)

theorem searchedBelow_foldl (bins : List Nat) {n : Nat} (hn : n ≤ 256) :
    SearchedBelow bins n ((List.range n).foldl (splitStep bins) { w0 := 0, s0 := 0, best := none, tstar := 0 }) := by
  induction n with
  | zero => exact ⟨by simp, by simp, .inl ⟨rfl, rfl, fun t ht => absurd ht (Nat.not_lt_zero t)⟩⟩
  | succ n ih =>
    rw [List.range_succ, List.foldl_append]
    exact (ih (by omega)).step hn

/-- The split search finds the lowest split of greatest score, 0 where there is none (R191). -/
theorem isBestSplit_histogramSplit (bins : List Nat) : IsBestSplit bins (histogramSplit bins) := by
  rcases (searchedBelow_foldl bins le_rfl).found with ⟨-, htstar, hnone⟩ | ⟨-, -, hs, hbest⟩
  · exact .inr ⟨htstar, fun t hs => hnone t hs.1 hs⟩
  · refine .inl ⟨hs, fun t hst => ?_⟩
    obtain ⟨hle, hlt⟩ := hbest t hst.1 hst
    exact ⟨(splitValue_le_iff hst hs).mp hle, fun h => (splitValue_lt_iff hst hs).mp (hlt h)⟩

/-- There is one best split. -/
theorem isBestSplit_unique {bins : List Nat} {a b : Nat} (ha : IsBestSplit bins a) (hb : IsBestSplit bins b) : a = b := by
  rcases ha with ⟨hsa, hbesta⟩ | ⟨rfl, hnonea⟩
  · rcases hb with ⟨hsb, hbestb⟩ | ⟨-, hnoneb⟩
    · rcases Nat.lt_trichotomy a b with h | h | h
      · exact absurd ((hbestb a hsa).2 h) (not_lt.mpr (hbesta b hsb).1)
      · exact h
      · exact absurd ((hbesta b hsb).2 h) (not_lt.mpr (hbestb a hsa).1)
    · exact absurd hsa (hnoneb a)
  · rcases hb with ⟨hsb, -⟩ | ⟨rfl, -⟩
    · exact absurd hsb (hnonea b)
    · rfl

/-- Settles O50: the search finds the best split, and there is one. -/
theorem thrHistogramWritesTheBits : Obligations.ThrHistogramWritesTheBits := by
  intro s ring i inv vals tstar hring hi hvals hbest
  have hsplit : histogramSplit (vals.map binOf) = tstar := isBestSplit_unique (isBestSplit_histogramSplit _) hbest
  refine thr_result hring hi hvals ?_
  rw [threshold, histogramThreshold, hsplit, bias_eq hi]

end Sys2Proof.Machine
end

section
/-! PROOFS. What a sweep leaves: the results of the first hypothesis that validates, or those of the last one (R214 to
R217). -/

namespace Sys2Proof.Machine

open Sys2Proof.Spec

theorem exec_sweep_of_ended {nv : BitVec 3} {s u : State} {c : Code} (hn : nv.toNat ≤ 5)
    (h : sweepRun nv s = .ended c u) : exec (.sweep nv) s = .next (complete c u) := by
  rw [exec_sweep, execSweep, if_neg (Nat.not_lt.mpr hn), h]
  rfl

/-- `HYPCNT` can hold the number of hypotheses (R211). -/
theorem hypothesisTotal_lt {s : State} (hv : s.params.Valid) {nv : BitVec 3} (hn : nv.toNat ≤ 5) :
    hypothesisTotal s nv < 2 ^ 32 := by
  have hsectors := (hv.1 0 (by decide)).2
  have hc : 20 * shiftTotal s ≤ 10240 := by unfold shiftTotal; omega
  rw [total_eq]
  exact (Nat.mul_le_mul hn hc).trans_lt (by decide)

/-! ### The first hypothesis that validates -/

/-- Settles O55: the hypotheses before rank `k` are passed over, and the evaluation of `k` is what it is by hand. -/
theorem sweepEndsAtTheFirstThatValidates : Obligations.SweepEndsAtTheFirstThatValidates := by
  intro s u nv k hv hn hk hanswered hfails hu hok
  obtain ⟨u0, rest, hgoing, hcnt, hevents, hprogress, hsweep⟩ :=
    sweep_upTo hv hn hk fun k' hk' => ⟨hanswered k' hk'.le, hfails k' hk'⟩
  obtain ⟨v, t, hrun, heval, -, -, htcnt, htprogress, htevents, hhdr, hout, hmem, hxor, -, -, hints, hbits, -⟩ :=
    evaluate_byHand hv (legalAt hv hn hk) (hanswered k le_rfl) hgoing
  obtain rfl : u = v := by rw [hu] at hrun; cases hrun; rfl
  rw [hok] at heval
  have htry : tryHypotheses (hypothesisAt s k :: rest) u0 = .ended .ok (recordHypothesis (hypothesisAt s k) t) := by
    rw [tryHypotheses, heval]
    rfl
  have hcnt' : (u0.hypCnt + 1).toNat = k + 1 := by
    have := hypothesisTotal_lt hv hn
    rw [BitVec.toNat_add, hcnt]
    exact Nat.mod_eq_of_lt (show k + 1 < 2 ^ 32 by omega)
  refine ⟨_, exec_sweep_of_ended hn (hsweep _ (.inl ⟨_, _, rfl, rfl⟩) htry), rfl, rfl, rfl, hmem, hout, hhdr, hxor hok, hints,
    hbits, ?_, hypReg_eq _, htprogress.trans hprogress, htevents.trans hevents⟩
  show (t.hypCnt + 1).toNat = k + 1
  rw [htcnt, hcnt']

/-! ### No hypothesis validates -/

/-- The last hypothesis of a sweep, by rank (R212). -/
theorem getLast?_hypothesesOf {s : State} (hv : s.params.Valid) {nv : BitVec 3} (h : 0 < nv.toNat) :
    (hypothesesOf s.params.ring0 (nv.toNat - 1)).getLast? = some (hypothesisAt s (hypothesisTotal s nv - 1)) := by
  have hsectors := (hv.1 0 (by decide)).1
  have hc : 0 < 20 * shiftTotal s := by unfold shiftTotal; omega
  have hrank : (nv.toNat - 1) * (20 * shiftTotal s) + (20 * shiftTotal s - 1) = hypothesisTotal s nv - 1 := by
    obtain ⟨n, hn⟩ : ∃ n, nv.toNat = n + 1 := ⟨nv.toNat - 1, by omega⟩
    rw [total_eq, hn, Nat.add_sub_cancel, Nat.add_mul]
    omega
  rw [hyps_of_variant hv, List.getLast?_map, List.getLast?_range, if_neg hc.ne', Option.map_some, hrank]

/-- The exclusive or of a hypothesis that reaches validation is the one its thirteen commands give (R147, R148). -/
theorem valXor_of_reaches {s v : State} {h : Hypothesis} (hr : ReachesValidation s h) (hv : runAll (byHand h) s = .next v) :
    valXor s h = some v.xorsum := by
  obtain ⟨v', hv', hcode⟩ := hr
  obtain rfl : v = v' := by rw [hv] at hv'; cases hv'; rfl
  simp only [valXor, hv]
  rw [if_pos (.inr hcode)]

/-- Where a sweep that exhausts its search stands (R216, R217). -/
theorem sweepRun_exhausted {s : State} {nv : BitVec 3} (hv : s.params.Valid) (hn : nv.toNat ≤ 5)
    (hf : ∀ k < hypothesisTotal s nv, HypothesisAnswered s (hypothesisAt s k) ∧ Fails s (hypothesisAt s k)) :
    ∃ u, sweepRun nv s = .ended .searchExhausted u ∧ u.mem = s.mem ∧
      u.hypCnt = BitVec.ofNat 32 (hypothesisTotal s nv) ∧ u.events = eventsUpTo nv nv.toNat ∧
      u.progress = { var := BitVec.ofNat 3 (nv.toNat - 1), nv := nv, count := BitVec.ofNat 8 nv.toNat } ∧
      (nv = 0 → u = sweepStart nv s) ∧
      (0 < nv.toNat → Last s u (hypothesisAt s (hypothesisTotal s nv - 1))) ∧
      u.xorsum = (List.range (hypothesisTotal s nv)).foldl (fun x k => (valXor s (hypothesisAt s k)).getD x) s.xorsum := by
  have hpre : ∀ v ∈ List.range nv.toNat, ∀ h ∈ hypothesesOf s.params.ring0 v,
      Legal s h ∧ HypothesisAnswered s h ∧ Fails s h := by
    intro v hmem h hh
    have hflat : h ∈ (List.range nv.toNat).flatMap (hypothesesOf s.params.ring0) := List.mem_flatMap.mpr ⟨v, hmem, hh⟩
    rw [flatMap_range_hyps hv, ← total_eq] at hflat
    obtain ⟨k, hk, rfl⟩ := List.mem_map.mp hflat
    have hk := List.mem_range.mp hk
    exact ⟨legalAt hv hn hk, hf k hk⟩
  obtain ⟨u, hgoing, hrun, hcnt, hevents, hcount, hnv, hnil, hxor, hvar, hlast⟩ :=
    tryVariants_skip hv (nv := nv) [] hpre (going_start s nv)
  rw [List.append_nil] at hrun
  have hrange : 0 < nv.toNat → (List.range nv.toNat).getLast? = some (nv.toNat - 1) := fun h => by
    rw [List.getLast?_range, if_neg h.ne']
  refine ⟨u, hrun, hgoing.mem, ?_, ?_, ?_, fun h => hnil (by rw [h]; rfl), fun h =>
    hlast _ (hrange h) _ (getLast?_hypothesesOf hv h), ?_⟩
  · rw [hcnt, List.length_range, ← total_eq, sweepStart_hypCnt]
    exact BitVec.zero_add _
  · rw [hevents, sweepStart_events]; rfl
  · have hcount' : u.progress.count = BitVec.ofNat 8 nv.toNat := by
      rw [hcount, List.length_range]; exact BitVec.zero_add _
    have hvar' : u.progress.var = BitVec.ofNat 3 (nv.toNat - 1) := by
      rcases Nat.eq_zero_or_pos nv.toNat with h | h
      · rw [hnil (by rw [h]; rfl), h]; rfl
      · exact hvar _ (hrange h)
    rw [← hcount', ← hvar', ← show u.progress.nv = nv from hnv]
  · rw [hxor, flatMap_range_hyps hv, ← total_eq, List.foldl_map]
    rfl

/-- Settles O56: every hypothesis is passed over, so the last one's results stand. -/
theorem sweepExhaustsTheSearch : Obligations.SweepExhaustsTheSearch := by
  intro s nv hv hn hf
  obtain ⟨u, hrun, hmem, hcnt, hevents, hprogress, hzero, hlast, hxor⟩ := sweepRun_exhausted hv hn hf
  have hout : u.outLen = 0 := by
    rcases Nat.eq_zero_or_pos nv.toNat with h | h
    · rw [hzero (BitVec.eq_of_toNat_eq h)]; rfl
    · exact (hlast h).2.1
  refine ⟨complete .searchExhausted u, exec_sweep_of_ended hn hrun, rfl, rfl, rfl, hmem, hout, ?_, hevents, hprogress,
    fun h => ?_, fun v hpos hrunv => ?_, fun hnone => ?_, fun k hk hreach hafter v hrunv => ?_⟩
  · rw [complete_hypCnt, hcnt, BitVec.toNat_ofNat, Nat.mod_eq_of_lt (hypothesisTotal_lt hv hn)]
  · rw [hzero h]
    have hword : hypWord State.reset.hyp = 0 := by decide
    exact ⟨hword, rfl, rfl, rfl⟩
  · obtain ⟨hhyp, -, hresults⟩ := hlast hpos
    obtain ⟨hhdr, hints, hbits⟩ := hresults v hrunv
    exact ⟨hhyp.trans (hypReg_eq _), hhdr, hints, hbits⟩
  · exact hxor.trans (fold_none _ _ _ fun k hk => valXor_none (hf k hk).2 (hnone k hk))
  · exact hxor.trans (fold_some _ _ _ hk (valXor_of_reaches hreach hrunv) fun k' hlt hk' =>
      valXor_none (hf k' hk').2 (hafter k' hlt hk'))

end Sys2Proof.Machine
end

section
/-! PROOFS. Host accesses as steps of the machine, while busy too, and accesses that R62 refuses (R62, R68, R72). -/

namespace Sys2Proof.Machine

open Sys2Proof.Spec

/-! ### The step of a host access -/

section
variable {s : State} {rest : List Input} {addr : Offset} {size : AccessSize}

/-- A read that the spec gives a value: the model notes it (log 12). -/
theorem step_read_value {w : Word} (h : s.inputs = .host (.read addr size) :: rest) (hr : hostRead s addr size = .value w) :
    step s = .next { s with inputs := rest, replies := s.replies ++ [w] } := by
  rw [step_of_input h, inputTurn, hostTurn, hostRead_inputs, hr]

/-- A read that the spec leaves unspecified: the reply is a free value (log 10). -/
theorem step_read_unspecified (h : s.inputs = .host (.read addr size) :: rest) (hr : hostRead s addr size = .unspecified) :
    step s = .next { s with
      inputs := rest, replies := s.replies ++ [unspecifiedReply s size], fresh := s.fresh + 1 } := by
  rw [step_of_input h, inputTurn, hostTurn, hostRead_inputs, hr]
  rfl

/-- A read of an element that nothing has written (U6). -/
theorem step_read_unwritten {b : Buffer} (h : s.inputs = .host (.read addr size) :: rest)
    (hr : hostRead s addr size = .unwritten b) : step s = .refused (.unwritten b) := by
  rw [step_of_input h, inputTurn, hostTurn, hostRead_inputs, hr]

theorem step_write {v : Word} (h : s.inputs = .host (.write addr size v) :: rest) :
    step s = .next (hostWrite { s with inputs := rest } addr size v) := by
  rw [step_of_input h, inputTurn, hostTurn]

/-- A read changes nothing in the block (R68). -/
theorem step_read_frame {t : State} (h : s.inputs = .host (.read addr size) :: rest) (ht : step s = .next t) :
    ∃ v, t = { s with inputs := rest, replies := s.replies ++ [v], fresh := t.fresh } := by
  cases hr : hostRead s addr size with
  | value w => rw [step_read_value h hr] at ht; cases ht; exact ⟨w, rfl⟩
  | unspecified => rw [step_read_unspecified h hr] at ht; cases ht; exact ⟨_, rfl⟩
  | unwritten b => rw [step_read_unwritten h hr] at ht; cases ht

end

/-- Settles O18: by what `hostRead` gives. -/
theorem hostReadHasNoSideEffect : Obligations.HostReadHasNoSideEffect :=
  fun _ _ _ _ =>
    ⟨fun h => ⟨fun _ => step_read_frame h, fun _ => step_read_value h, fun hr => ⟨_, step_read_unspecified h hr⟩,
      fun _ => step_read_unwritten h⟩,
    fun _ => step_write⟩

/-! ### While busy -/

/-- `STATUS` is readable while busy (R72). -/
theorem hostRead_busy_status {s : State} (hb : s.busy = true) : hostRead s 0x004 .word = .value (statusWord s) := by
  rw [hostRead, if_pos hb, if_pos ⟨rfl, rfl⟩]

/-- Every other read while busy is unspecified (R72). -/
theorem hostRead_busy_other {s : State} {addr : Offset} {size : AccessSize} (hb : s.busy = true)
    (h : ¬ (addr = 0x004 ∧ size = .word)) : hostRead s addr size = .unspecified := by
  rw [hostRead, if_pos hb, if_neg fun ⟨ha, hn⟩ => h ⟨BitVec.eq_of_toNat_eq ha, sizeBytes_eq_four.mp hn⟩]

/-- Settles O17: a write is ignored, a read gives `STATUS` or is unspecified. -/
theorem hostAccessWhileBusy : Obligations.HostAccessWhileBusy := by
  refine fun s rest addr size hb => ⟨fun v h => ?_, fun h => ⟨?_, fun hother => ?_⟩⟩
  · rw [step_write h]
    exact congrArg _ (hostWrite_busy hb)
  · rintro rfl rfl
    exact step_read_value h (hostRead_busy_status hb)
  · exact ⟨_, step_read_unspecified h (hostRead_busy_other hb hother)⟩

/-! ### Refused accesses -/

/-- `STATUS` at its size is an access that R62 takes. -/
theorem not_refusedAccess_status : ¬ RefusedAccess 0x004 .word := by unfold RefusedAccess WordOnly; decide

/-- Settles O20: the refused access is misaligned, or the location is a register or an `INT` word. -/
theorem refusedAccessHasNoEffect : Obligations.RefusedAccessHasNoEffect := by
  intro s addr size v h
  cases hb : s.busy with
  | true =>
    refine ⟨hostRead_busy_other hb ?_, hostWrite_busy hb⟩
    rintro ⟨rfl, rfl⟩
    exact not_refusedAccess_status h
  | false =>
    simp only [hostRead, hostWrite, hb, Bool.false_eq_true, if_false, sizeBytes_eq_four, regEnd_eq, inInt_iff]
    rcases h with ha | ⟨hreg | hint, hsize⟩
    · simp only [if_pos ha, and_self]
    · simp only [if_pos hreg, hsize, if_false, ite_self, and_self]
    · simp only [if_pos hint, hsize, if_false, if_neg (show ¬ addr.toNat < 0x60 by omega), ite_self, and_self]

end Sys2Proof.Machine
end

section
/-! PROOFS. Accesses outside the registers and `INT`, byte by byte: wide accesses (R62, R63) and packed `BITS` (R65). -/

namespace Sys2Proof.Machine

open Sys2Proof.Spec

/-! ### Byte accesses -/

/-- The bytes of an aligned access outside the registers and `INT` are outside them too, and do not wrap. -/
theorem accessByte_toNat {addr : Offset} {size : AccessSize} {i : Nat} (ha : addr.toNat % sizeBytes size = 0)
    (hw : ¬ WordOnly addr.toNat) (hi : i < sizeBytes size) :
    (addr + BitVec.ofNat 14 i).toNat = addr.toNat + i ∧ ¬ WordOnly (addr.toNat + i) := by
  unfold WordOnly at *
  have hlt := addr.isLt
  rw [BitVec.toNat_add, BitVec.toNat_ofNat]
  cases size <;> simp only [sizeBytes] at ha hi <;> omega

/-- An idle read of one byte that has a value. -/
theorem hostRead_byte_eq_value {s : State} {addr : Offset} {w : Word} (hb : s.busy = false) (hw : ¬ WordOnly addr.toNat) :
    hostRead s addr .byte = .value w ↔ ∃ v, hostByte s addr.toNat = .ok v ∧ w = 0#24 ++ v := by
  obtain ⟨hvalue, hunwritten⟩ := hostRead_byte hb hw
  cases h : hostByte s addr.toNat with
  | ok v => rw [hvalue v h]; simp [eq_comm]
  | error b => rw [hunwritten b h]; simp

/-- An idle read of one byte that has none. -/
theorem hostRead_byte_eq_unwritten {s : State} {addr : Offset} {b : Buffer} (hb : s.busy = false)
    (hw : ¬ WordOnly addr.toNat) : hostRead s addr .byte = .unwritten b ↔ hostByte s addr.toNat = .error b := by
  obtain ⟨hvalue, hunwritten⟩ := hostRead_byte hb hw
  cases h : hostByte s addr.toNat with
  | ok v => rw [hvalue v h]; simp
  | error b => rw [hunwritten b h]; simp

theorem zeroExtended_inj {m n : Nat} {x y : BitVec n} : (0#m ++ x) = 0#m ++ y ↔ x = y :=
  ⟨fun h => BitVec.eq_of_toNat_eq (by simpa only [zeroExtended_toNat] using congrArg BitVec.toNat h), congrArg _⟩

/-- The byte that an idle read of one byte returned. -/
theorem hostByte_of_hostRead {s : State} {addr : Offset} {a : Nat} {v : Byte} (hb : s.busy = false)
    (h : addr.toNat = a ∧ ¬ WordOnly a) (hr : hostRead s addr .byte = .value (0#24 ++ v)) : hostByte s a = .ok v := by
  obtain ⟨rfl, hw⟩ := h
  obtain ⟨w, hok, hvw⟩ := (hostRead_byte_eq_value hb hw).mp hr
  rwa [zeroExtended_inj.mp hvw]

/-- An idle write of one byte outside the registers and `INT`. -/
theorem hostWrite_byte {s : State} {addr : Offset} {a : Nat} {v : Word} (hb : s.busy = false)
    (h : addr.toNat = a ∧ ¬ WordOnly a) : hostWrite s addr .byte v = writeHostByte s a (v.extractLsb' 0 8) := by
  obtain ⟨rfl, hw⟩ := h
  exact hostWrite_bytes hb (Nat.mod_one _) hw

/-! ### Wide accesses -/

/-- A run of bytes is missing from the buffer that its first missing byte is missing from (log 17). -/
theorem hostBytes_error {s : State} {a n j : Nat} {b : Buffer} (hj : j < n) (hbefore : ∀ i < j, ∃ v, hostByte s (a + i) = .ok v)
    (hat : hostByte s (a + j) = .error b) : hostBytes s a n = .error b := by
  induction n generalizing a j with
  | zero => exact absurd hj (Nat.not_lt_zero j)
  | succ n ih =>
    cases j with
    | zero => rw [hostBytes, show hostByte s a = .error b from hat]
    | succ j =>
      obtain ⟨v, hv⟩ := hbefore 0 (Nat.zero_lt_succ j)
      have hnext (i : Nat) : a + 1 + i = a + (i + 1) := by omega
      have htail : hostBytes s (a + 1) n = .error b :=
        ih (Nat.lt_of_succ_lt_succ hj) (fun i hi => hnext i ▸ hbefore (i + 1) (Nat.succ_lt_succ hi)) (hnext j ▸ hat)
      rw [hostBytes, show hostByte s a = .ok v from hv, htail]

/-- The low byte of a shifted word. -/
theorem extractLsb'_ushiftRight (v : Word) (k : Nat) : (v >>> k).extractLsb' 0 8 = v.extractLsb' k 8 :=
  BitVec.eq_of_toNat_eq (by simp)

section
variable {s : State} {addr : Offset} (hw : ¬ WordOnly addr.toNat)
include hw

/-- A 4-byte write is four byte writes, the byte in bits 7:0 at the lowest offset (R62, R63). -/
theorem hostWrite_word_bytes (v : Word) (ha : addr.toNat % 4 = 0) :
    hostWrite s addr .word v =
      hostWrite (hostWrite (hostWrite (hostWrite s addr .byte v) (addr + 1) .byte (v >>> 8))
        (addr + 2) .byte (v >>> 16)) (addr + 3) .byte (v >>> 24) := by
  cases hb : s.busy with
  | true => simp only [hostWrite_busy hb]
  | false =>
    have hat {i : Nat} (hi : i < 4) := accessByte_toNat (size := .word) ha hw hi
    rw [hostWrite_bytes (size := .word) hb ha hw, hostWrite_byte hb ⟨rfl, hw⟩,
      hostWrite_byte (addr := addr + 1) (by simpa only [writeHostByte_busy] using hb) (hat (i := 1) (by decide)),
      hostWrite_byte (addr := addr + 2) (by simpa only [writeHostByte_busy] using hb) (hat (i := 2) (by decide)),
      hostWrite_byte (addr := addr + 3) (by simpa only [writeHostByte_busy] using hb) (hat (i := 3) (by decide))]
    simp only [extractLsb'_ushiftRight]
    rfl

/-- A 2-byte write is two byte writes (R62, R63). -/
theorem hostWrite_half_bytes (v : Word) (ha : addr.toNat % 2 = 0) :
    hostWrite s addr .half v = hostWrite (hostWrite s addr .byte v) (addr + 1) .byte (v >>> 8) := by
  cases hb : s.busy with
  | true => simp only [hostWrite_busy hb]
  | false =>
    rw [hostWrite_bytes (size := .half) hb ha hw, hostWrite_byte hb ⟨rfl, hw⟩,
      hostWrite_byte (addr := addr + 1) (by simpa only [writeHostByte_busy] using hb)
        (accessByte_toNat (size := .half) (i := 1) ha hw (by decide)), extractLsb'_ushiftRight]
    rfl

/-- A 4-byte read of four bytes that have a value (R62, R63). -/
theorem hostRead_word_bytes (hb : s.busy = false) {b0 b1 b2 b3 : Byte} (ha : addr.toNat % 4 = 0)
    (h0 : hostRead s addr .byte = .value (0#24 ++ b0)) (h1 : hostRead s (addr + 1) .byte = .value (0#24 ++ b1))
    (h2 : hostRead s (addr + 2) .byte = .value (0#24 ++ b2)) (h3 : hostRead s (addr + 3) .byte = .value (0#24 ++ b3)) :
    hostRead s addr .word = .value (b3 ++ b2 ++ b1 ++ b0) := by
  have hat {i : Nat} (hi : i < 4) := accessByte_toNat (size := .word) ha hw hi
  have hbytes : hostBytes s addr.toNat 4 = .ok [b0, b1, b2, b3] := by
    simp only [hostBytes, hostByte_of_hostRead hb ⟨rfl, hw⟩ h0, hostByte_of_hostRead hb (hat (i := 1) (by decide)) h1,
      hostByte_of_hostRead hb (hat (i := 2) (by decide)) h2, hostByte_of_hostRead hb (hat (i := 3) (by decide)) h3]
  rw [hostRead_bytes (size := .word) hb ha hw, sizeBytes, hbytes]
  simp only [leWord_four]

/-- A 2-byte read of two bytes that have a value (R62, R63). -/
theorem hostRead_half_bytes (hb : s.busy = false) {b0 b1 : Byte} (ha : addr.toNat % 2 = 0)
    (h0 : hostRead s addr .byte = .value (0#24 ++ b0)) (h1 : hostRead s (addr + 1) .byte = .value (0#24 ++ b1)) :
    hostRead s addr .half = .value (0#16 ++ b1 ++ b0) := by
  have hat := accessByte_toNat (size := .half) (i := 1) ha hw (by decide)
  have hbytes : hostBytes s addr.toNat 2 = .ok [b0, b1] := by
    simp only [hostBytes, hostByte_of_hostRead hb ⟨rfl, hw⟩ h0, hostByte_of_hostRead hb hat h1]
  rw [hostRead_bytes (size := .half) hb ha hw, sizeBytes, hbytes]
  simp only [leWord_two]

/-- A read whose first byte without a value is missing from `b` (log 17). -/
theorem hostRead_first_unwritten (hb : s.busy = false) {size : AccessSize} {j : Nat} {b : Buffer}
    (ha : addr.toNat % sizeBytes size = 0) (hj : j < sizeBytes size)
    (hbefore : ∀ i < j, ∃ w, hostRead s (addr + BitVec.ofNat 14 i) .byte = .value w)
    (hat : hostRead s (addr + BitVec.ofNat 14 j) .byte = .unwritten b) : hostRead s addr size = .unwritten b := by
  have hbytes : hostBytes s addr.toNat (sizeBytes size) = .error b := by
    refine hostBytes_error hj (fun i hi => ?_) ?_
    · obtain ⟨haddr, hwi⟩ := accessByte_toNat ha hw (hi.trans hj)
      obtain ⟨w, hr⟩ := hbefore i hi
      obtain ⟨v, hv, -⟩ := (hostRead_byte_eq_value hb (by rwa [haddr])).mp hr
      exact ⟨v, haddr ▸ hv⟩
    · obtain ⟨haddr, hwj⟩ := accessByte_toNat ha hw hj
      exact haddr ▸ (hostRead_byte_eq_unwritten hb (by rwa [haddr])).mp hat
  rw [hostRead_bytes hb ha hw, hbytes]

end

/-- Settles O22: writes at either size, reads at either size, and reads with a byte missing. -/
theorem wordWriteIsFourByteWrites : Obligations.WordWriteIsFourByteWrites :=
  fun _ _ hw => ⟨hostWrite_word_bytes hw, hostWrite_half_bytes hw, fun hb =>
    ⟨fun _ _ _ _ => hostRead_word_bytes hw hb, fun _ _ => hostRead_half_bytes hw hb,
      fun _ _ _ => hostRead_first_unwritten hw hb⟩⟩

/-! ### Packed bits -/

/-- The offset of packed byte `j` (R65). -/
theorem packedOffset_toNat {j : Nat} (hj : j < 168) :
    (BitVec.ofNat 14 (0x500 + j)).toNat = 0x500 + j ∧ ¬ WordOnly (0x500 + j) := by
  unfold WordOnly
  rw [BitVec.toNat_ofNat]
  omega

/-- A byte write to packed `BITS` (R65). -/
theorem hostWrite_packed {s : State} (hb : s.busy = false) {j : Nat} (hj : j < 168) (v : Word) :
    hostWrite s (BitVec.ofNat 14 (0x500 + j)) .byte v = writeBits s (8 * j) (byteBits (v.extractLsb' 0 8)) := by
  rw [hostWrite_byte hb (packedOffset_toNat hj)]
  unfold writeHostByte
  simp only [inTxt_iff, inCw_iff, inBits_iff]
  rw [if_neg (by omega), if_neg (by omega), if_pos (by omega),
    show 0x500 + j - bitsBase = j by simp only [bitsBase]; omega]

/-- The bits of a byte, where they have been written most significant first. -/
theorem byteAt_writeRun_byteBits (l : List (Nat × Bool)) (p : Nat) (b : Byte) :
    ByteAt (Memory.writeRun l p (byteBits b)) p b := by
  intro k hk
  rw [← byteBits_getElem? b hk, List.getElem?_eq_getElem (l := byteBits b) hk]
  exact Memory.read_writeRun_inside hk

/-- Settles O23: the byte goes to `BITS` most significant bit first, and is read back from there. -/
theorem packedBitsAreMostSignificantFirst : Obligations.PackedBitsAreMostSignificantFirst := by
  intro s j v hb hj
  rw [hostWrite_packed hb hj, writeBits_bits, ← extractLsb'_zero]
  refine ⟨⟨byteAt_writeRun_byteBits _ _ _, fun p hp => Memory.read_writeRun_outside hp⟩, fun b h => ?_⟩
  obtain ⟨haddr, hw⟩ := packedOffset_toNat hj
  rw [(hostRead_byte hb (by rwa [haddr])).1 b, zeroExtended_eq_ofNat]
  rw [haddr, hostByte_bits s hj, byteAt_eq_some.mpr h, orUnwritten]

end Sys2Proof.Machine
end

section
/-! PROOFS. The decoder and the encoder (R95 to R99): a word decodes exactly to the command whose word it is, and to some
command exactly where it fits a row of the opcode table. -/

namespace Sys2Proof

open Laws.TableRow (formatEnd)

/-! ### The parts of a command word -/

/-- The word of a command fits the command's row (R96, R97). -/
theorem encode_fitsRow : ∀ i : Instr, Laws.TableRow.Statement i
  | .encf ecc => Laws.TableRow.encf ecc
  | .decf => Laws.TableRow.decf
  | .apred n => Laws.TableRow.apred n
  | .valred n => Laws.TableRow.valred n
  | .mapb idx => Laws.TableRow.mapb idx
  | .maps ring sector => Laws.TableRow.maps ring sector
  | .samp ring var shift => Laws.TableRow.samp ring var shift
  | .thr ring mode inv bias => Laws.TableRow.thr ring mode inv bias
  | .sweep nv => Laws.TableRow.sweep nv

/-- The command of the same row as `i` with the operands that `w` has in the fields of that row's format (R97). -/
def Instr.withFieldsOf (w : Word) : Instr → Instr
  | .encf _ => .encf (field w 8 2)
  | .decf => .decf
  | .apred _ => .apred (field w 8 8)
  | .valred _ => .valred (field w 8 8)
  | .mapb _ => .mapb (field w 8 11)
  | .maps _ _ => .maps (field w 8 3) (field w 11 11)
  | .samp _ _ _ => .samp (field w 8 3) (field w 11 3) (field w 14 11)
  | .thr _ _ _ _ => .thr (field w 8 3) (decodeMode (field w 11 1)) (field w 12 1 == 1#1) (field w 13 3)
  | .sweep _ => .sweep (field w 8 3)

theorem field_eq_iff {w : Word} {lo n : Nat} {x : BitVec n} :
    field w lo n = x ↔ w.toNat / 2 ^ lo % 2 ^ n = x.toNat := by
  rw [← BitVec.toNat_inj, field, BitVec.extractLsb'_toNat, Nat.shiftRight_eq_div_pow]

theorem field_toNat (w : Word) (lo n : Nat) : (field w lo n).toNat = w.toNat / 2 ^ lo % 2 ^ n :=
  (field_eq_iff.mp rfl).symm

theorem ushiftRight_eq_zero_iff {w : Word} {used : Nat} : w >>> used = 0#32 ↔ w.toNat / 2 ^ used = 0 := by
  rw [← BitVec.toNat_inj, BitVec.toNat_ushiftRight, Nat.shiftRight_eq_div_pow, BitVec.toNat_ofNat, Nat.zero_mod]

theorem decodeMode_eq_iff {b : BitVec 1} {m : Mode} : decodeMode b = m ↔ b = encodeMode m := by
  revert b; cases m <;> decide

theorem beq_one_eq_iff {b : BitVec 1} {v : Bool} : (b == 1#1) = v ↔ b = BitVec.ofBool v := by
  revert b; cases v <;> decide

theorem ofBool_beq_one (b : BitVec 1) : BitVec.ofBool (b == 1#1) = b := (beq_one_eq_iff.mp rfl).symm

/-- The fields of a command's word hold its operands: the word is a sum of fields at their places (R97). -/
theorem withFieldsOf_encode (i : Instr) : i.withFieldsOf (encode i) = i := by
  cases i <;>
    simp only [Instr.withFieldsOf, Instr.encf.injEq, Instr.apred.injEq, Instr.valred.injEq, Instr.mapb.injEq,
      Instr.maps.injEq, Instr.samp.injEq, Instr.thr.injEq, Instr.sweep.injEq, decodeMode_eq_iff, beq_one_eq_iff,
      field_eq_iff, encode, Machine.append_toNat, BitVec.reduceToNat] <;>
    omega

/-- A word with a command's opcode and must-be-zero bits is the word of the command its fields give (R97, R98). -/
theorem encode_withFieldsOf {w : Word} {i : Instr} (hop : field w 0 8 = i.opcode) (hz : w >>> formatEnd i = 0#32) :
    encode (i.withFieldsOf w) = w := by
  rw [field_eq_iff] at hop
  rw [ushiftRight_eq_zero_iff] at hz
  apply BitVec.eq_of_toNat_eq
  cases i <;>
    simp only [Instr.withFieldsOf, encode, ofBool_beq_one, encodeMode_decodeMode, Machine.append_toNat, field_toNat,
      Instr.opcode, formatEnd, BitVec.reduceToNat] at hop hz ⊢ <;>
    omega

/-! ### Decoding -/

/-- What a word with the opcode of `i` decodes to (R97, R98). -/
theorem decode_of_opcode {w : Word} {i : Instr} (hop : field w 0 8 = i.opcode) :
    decode w = checkedZero w (formatEnd i) (i.withFieldsOf w) := by
  unfold decode
  rw [hop]
  cases i <;> rfl

/-- A word that decodes has its command's opcode (R96). -/
theorem opcode_of_decode {w : Word} {i : Instr} (h : decode w = .ok i) : field w 0 8 = i.opcode := by
  unfold decode at h
  split at h
  case h_10 => cases h
  all_goals
    next hop =>
      obtain ⟨-, rfl⟩ := checkedZero_eq_ok.mp h
      exact BitVec.eq_of_toNat_eq hop

/-- The decoder inverts the encoder, and nothing else decodes. -/
theorem decode_eq_ok_iff {w : Word} {i : Instr} : decode w = .ok i ↔ encode i = w := by
  constructor
  · intro h
    have hop := opcode_of_decode h
    rw [decode_of_opcode hop, checkedZero_eq_ok] at h
    obtain ⟨hz, hi⟩ := h
    rw [← hi, encode_withFieldsOf hop hz]
  · rintro rfl
    obtain ⟨hop, hz⟩ := encode_fitsRow i
    rw [decode_of_opcode hop, checkedZero_eq_ok]
    exact ⟨hz, withFieldsOf_encode i⟩

/-- Settles O1: by opcode, must-be-zero bits and fields of the word. -/
theorem decodeOfEncode : Obligations.DecodeOfEncode := fun _ => decode_eq_ok_iff.mpr rfl

/-- Settles O2: opcode, must-be-zero bits and fields make up the whole word. -/
theorem encodeOfDecode : Obligations.EncodeOfDecode := fun _ _ => decode_eq_ok_iff.mp

/-- Settles O4: the encodings are computed, and the decoder inverts them. -/
theorem workedEncodings : Obligations.WorkedEncodings := by
  intro c hc
  have hword : encode c.1 = c.2 := by revert c; decide
  exact ⟨hword, decode_eq_ok_iff.mpr hword⟩

/-! ### The opcode table -/

/-- The (mask, match) pair of an opcode whose format's fields end below bit `used` (R96, R97). -/
def tableRow (used : Nat) (opcode : Byte) : Word × Word :=
  (BitVec.allOnes 32 <<< used ||| (BitVec.allOnes 8).setWidth 32, opcode.setWidth 32)

theorem getLsbD_and_tableRow (w : Word) (used : Nat) (opcode : Byte) (j : Nat) :
    (w &&& (tableRow used opcode).1).getLsbD j = (w.getLsbD j && (decide (j < 8) || decide (used ≤ j))) := by
  by_cases hj : j < 32
  · simp only [tableRow, BitVec.getLsbD_and, BitVec.getLsbD_or, BitVec.getLsbD_shiftLeft, BitVec.getLsbD_allOnes,
      BitVec.getLsbD_setWidth]
    grind
  · rw [BitVec.getLsbD_of_ge _ _ (by omega), BitVec.getLsbD_of_ge w _ (by omega), Bool.false_and]

theorem getLsbD_tableRow (used : Nat) (opcode : Byte) (j : Nat) :
    (tableRow used opcode).2.getLsbD j = opcode.getLsbD j := by
  simp only [tableRow, BitVec.getLsbD_setWidth]
  grind

/-- A word fits a row exactly when it has the row's opcode and zeros in the must-be-zero bits. -/
theorem and_tableRow_iff {w : Word} {used : Nat} {opcode : Byte} (hu : 8 ≤ used) :
    w &&& (tableRow used opcode).1 = (tableRow used opcode).2 ↔ field w 0 8 = opcode ∧ w >>> used = 0#32 := by
  constructor
  · intro h
    have hbit (j : Nat) : (w.getLsbD j && (decide (j < 8) || decide (used ≤ j))) = opcode.getLsbD j := by
      rw [← getLsbD_and_tableRow w used opcode, h, getLsbD_tableRow]
    refine ⟨eq_of_bits fun j hj => ?_, eq_of_bits fun j hj => ?_⟩
    · rw [getLsbD_field, ← hbit, Nat.zero_add, Bool.and_comm, decide_eq_true hj, Bool.true_or]
    · have hzero := hbit (used + j)
      rw [BitVec.getLsbD_of_ge opcode _ (by omega)] at hzero
      simpa using hzero
  · rintro ⟨hop, hz⟩
    refine eq_of_bits fun j _ => ?_
    rw [getLsbD_and_tableRow, getLsbD_tableRow, ← hop, getLsbD_field, Nat.zero_add]
    by_cases hj : used ≤ j
    · have hzero : w.getLsbD j = false := by
        rw [← Nat.add_sub_cancel' hj, ← BitVec.getLsbD_ushiftRight, hz, BitVec.getLsbD_zero]
      rw [hzero, Bool.false_and, Bool.and_false]
    · rw [decide_eq_false hj, Bool.or_false, Bool.and_comm]

theorem eight_le_formatEnd (i : Instr) : 8 ≤ formatEnd i := by cases i <;> simp only [formatEnd] <;> omega

theorem tableRow_mem : ∀ i : Instr, tableRow (formatEnd i) i.opcode ∈ Spec.tableRows
  | .encf _ => (by decide : tableRow 10 0x01 ∈ Spec.tableRows)
  | .decf => (by decide : tableRow 8 0x02 ∈ Spec.tableRows)
  | .apred _ => (by decide : tableRow 16 0x03 ∈ Spec.tableRows)
  | .valred _ => (by decide : tableRow 16 0x04 ∈ Spec.tableRows)
  | .mapb _ => (by decide : tableRow 19 0x05 ∈ Spec.tableRows)
  | .maps _ _ => (by decide : tableRow 22 0x06 ∈ Spec.tableRows)
  | .samp _ _ _ => (by decide : tableRow 25 0x07 ∈ Spec.tableRows)
  | .thr _ _ _ _ => (by decide : tableRow 16 0x08 ∈ Spec.tableRows)
  | .sweep _ => (by decide : tableRow 11 0x09 ∈ Spec.tableRows)

/-- Every row of the table is some command's. -/
theorem exists_tableRow : ∀ row ∈ Spec.tableRows, ∃ i : Instr, tableRow (formatEnd i) i.opcode = row := by
  simp only [Spec.tableRows, List.forall_mem_cons]
  exact ⟨⟨.encf 0, by decide⟩, ⟨.decf, by decide⟩, ⟨.apred 0, by decide⟩, ⟨.valred 0, by decide⟩, ⟨.mapb 0, by decide⟩,
    ⟨.maps 0 0, by decide⟩, ⟨.samp 0 0 0, by decide⟩, ⟨.thr 0 .percentile false 0, by decide⟩, ⟨.sweep 0, by decide⟩,
    fun _ h => nomatch h⟩

/-- Settles O3: the rows are the opcodes and formats of the commands. -/
theorem wordDecodesIffItFitsTheTable : Obligations.WordDecodesIffItFitsTheTable := by
  intro w
  constructor
  · rintro ⟨i, hi⟩
    rw [decode_eq_ok_iff] at hi
    subst hi
    exact ⟨_, tableRow_mem i, (and_tableRow_iff (eight_le_formatEnd i)).mpr (encode_fitsRow i)⟩
  · rintro ⟨row, hrow, hw⟩
    obtain ⟨i, rfl⟩ := exists_tableRow row hrow
    obtain ⟨hop, hz⟩ := (and_tableRow_iff (eight_le_formatEnd i)).mp hw
    exact ⟨i.withFieldsOf w, decode_eq_ok_iff.mpr (encode_withFieldsOf hop hz)⟩

end Sys2Proof
end

section
/-! PROOFS. Which commands are illegal: words outside the opcode table (R98, R99) and operands outside the ranges (R100). -/

namespace Sys2Proof.Machine

open Sys2Proof.Spec

/-! ### Words outside the table -/

theorem engineTurn_of_not_fitsTable {s : State} {w : Word} (hw : s.cmd = some w) (h : ¬ FitsTable w) :
    engineTurn s = .next (ended .illegalCommand s) := by
  cases hd : decode w with
  | ok i => exact absurd ((wordDecodesIffItFitsTheTable w).mp ⟨i, hd⟩) h
  | error e => simp only [engineTurn, hw, hd]; rfl

/-- Settles O7: the word does not decode, so the engine's turn rejects it. -/
theorem wordOutsideTheTableIsIllegal : Obligations.WordOutsideTheTableIsIllegal := by
  intro s w hw hfit
  refine ⟨fun h => ?_, fun rest h => ?_⟩
  · rw [step_of_no_input h, engineTurn_of_not_fitsTable hw hfit]
  · rw [step_of_input h]
    exact engineTurn_of_not_fitsTable hw hfit

/-! ### Operands out of range -/

/-- A command out of the ranges of R100 completes with `IllegalCommand` and changes nothing else. -/
theorem exec_of_not_inRange {i : Instr} {s : State} (h : ¬ InRange s i) :
    exec i s = .next (ended .illegalCommand s) := by
  cases i with
  | encf ecc => exact absurd trivial h
  | decf => exact absurd trivial h
  | apred n =>
    rw [exec_apred, execApred, if_pos (by simp only [InRange, redSize, txtSize] at h ⊢; omega)]
    rfl
  | valred n =>
    rw [exec_valred, execValred, if_pos (by simp only [InRange, codewordBytes] at h ⊢; omega)]
    rfl
  | mapb idx =>
    rw [exec_mapb, execMapb, if_pos (by simp only [InRange] at h; omega)]
    rfl
  | maps ring sector =>
    rw [exec_maps, execMaps, if_pos (by simp only [InRange] at h; omega)]
    rfl
  | samp ring var shift =>
    rw [exec_samp, execSamp, if_pos (by simp only [InRange] at h; omega)]
    rfl
  | thr ring mode inv bias =>
    rw [exec_thr, execThr, if_pos (by simp only [InRange] at h; omega)]
    rfl
  | sweep nv =>
    rw [exec_sweep, execSweep, if_pos (Nat.not_le.mp h)]
    rfl

/-- A command inside the ranges of R100 that completes does so with another code than `IllegalCommand`. -/
theorem exec_code_of_inRange {i : Instr} {s t : State} (hr : InRange s i) (h : exec i s = .next t)
    (hs : s.busy = true) (ht : t.busy = false) : t.code ≠ .illegalCommand := by
  cases i with
  | encf ecc => rcases execEncf_cases h with ⟨-, rfl⟩ | ⟨-, _, -, rfl⟩ <;> simp
  | decf =>
    obtain ⟨c, u, hu, rfl⟩ := execDecf_cases h
    rcases decfRun_cases hu with ⟨rfl, -⟩ | ⟨rfl | rfl | rfl, -⟩ <;> simp
  | apred n =>
    rcases execApred_cases h with ⟨hout, -⟩ | ⟨-, -, _, -, rfl⟩
    · simp only [InRange] at hr; omega
    · simp
  | valred n =>
    rcases execValred_cases h with ⟨hout, -⟩ | ⟨-, _, -, ⟨_, -, rfl⟩ | ⟨_, -, -, rfl⟩⟩
    · simp only [InRange] at hr; omega
    · simp
    · simp
  | mapb idx =>
    rcases execMapb_cases h with ⟨hout, -⟩ | ⟨-, rfl⟩
    · simp only [InRange] at hr; omega
    · simp
  | maps ring sector =>
    rcases execMaps_cases h with ⟨hout, -⟩ | ⟨-, -, rfl⟩
    · simp only [InRange] at hr; omega
    · simp
  | samp ring var shift =>
    rcases execSamp_cases h with ⟨hout, -⟩ | ⟨-, -, -, ⟨-, rfl⟩ | ⟨u, -, rfl⟩⟩
    · simp only [InRange] at hr; omega
    · simp [hs] at ht
    · simp
  | thr ring mode inv bias =>
    rcases execThr_cases h with ⟨hout, -⟩ | ⟨-, -, u, -, rfl⟩
    · simp only [InRange] at hr; omega
    · simp
  | sweep nv =>
    rcases execSweep_cases h with ⟨hout, -⟩ | ⟨-, ⟨ev, -, rfl⟩ | ⟨c, u, hu, rfl⟩⟩
    · simp only [InRange] at hr; omega
    · exact absurd (hs.symm.trans ht) (by decide)
    · obtain ⟨-, -, -, -, ⟨rfl, -⟩ | ⟨rfl, -⟩⟩ := tryVariants_cases hu <;> simp

/-- Settles O8: out of range and in range, command by command. -/
theorem operandRangesDecideIllegality : Obligations.OperandRangesDecideIllegality :=
  fun _ _ => ⟨exec_of_not_inRange, fun hr _ h => exec_code_of_inRange hr h⟩

end Sys2Proof.Machine
end

section
/-! PROOFS. The frame that `ENCF` writes, byte by byte (R80 to R87, R131). -/

namespace Sys2Proof.Machine

open Sys2Proof.Spec

/-! ### Constants -/

theorem maxPayload_eq {l : Nat} (hl : l < 4) : maxPayload l = payloadLimit l := by interval_cases l <;> rfl

theorem eccBytes_eq {l : Nat} (hl : l < 4) : eccBytes l = redundancyCount l := by interval_cases l <;> rfl

/-! ### The header -/

/-- The seven header bytes (R82, R83): every redundancy length fits its low byte, and a checksum taken modulo 256 needs no
reduction of its terms. -/
theorem headerBytes_eq (p : Params) {l : Nat} (hl : l < 4) (len : Nat) :
    headerBytes p l len =
      [p.versionConst, BitVec.ofNat 8 l, BitVec.ofNat 8 (len / 256), BitVec.ofNat 8 (len % 256), 0,
        BitVec.ofNat 8 (redundancyCount l),
        BitVec.ofNat 8 (p.versionConst.toNat + l + len / 256 + len % 256 + redundancyCount l)] := by
  have hlt : redundancyCount l < 256 := by interval_cases l <;> decide
  simp only [headerBytes, eccBytes_eq hl, Nat.div_eq_of_lt hlt, Nat.mod_eq_of_lt hlt, headerChecksum, BitVec.ofNat_eq_ofNat,
    List.cons.injEq, and_true, true_and]
  apply BitVec.eq_of_toNat_eq
  simp only [BitVec.toNat_ofNat]
  omega

/-! ### The codeword -/

/-- A redundancy byte of given bytes (R161). -/
theorem apredByte_map_range (m : Nat) (b : Nat → Byte) (i : Nat) :
    apredByte ((List.range m).map b) i = redundancyAt m b i := by
  have hmod (x : Nat) : BitVec.ofNat 8 (x % 256) = BitVec.ofNat 8 x := BitVec.eq_of_toNat_eq (by simp)
  simp only [apredByte, redundancyAt, xorUpTo, List.foldl_map, hmod]

/-- Padding leaves the redundancy bytes as they are (R163). -/
theorem apredByte_paddedPayload (l : Nat) (txt : List Byte) (i : Nat) :
    apredByte (paddedPayload l txt) i = apredByte txt i := by
  rw [paddedPayload, apredByte_append, apredByte_replicate_zero]
  exact BitVec.xor_zero

theorem codeword_text (l : Nat) {txt : List Byte} {c : Nat} (hc : c < txt.length) : (codeword l txt)[c]? = txt[c]? := by
  rw [codeword, paddedPayload, List.append_assoc, List.getElem?_append_left hc]

section

variable {l : Nat} {txt : List Byte} (h : txt.length ≤ maxPayload l)
include h

theorem paddedPayload_length : (paddedPayload l txt).length = maxPayload l := by
  rw [paddedPayload, List.length_append, List.length_replicate, Nat.add_sub_cancel' h]

theorem codeword_padding {c : Nat} (hc : txt.length ≤ c) (hl : c < maxPayload l) : (codeword l txt)[c]? = some 0 := by
  rw [codeword, List.getElem?_append_left (by rwa [paddedPayload_length h]), paddedPayload,
    List.getElem?_append_right hc, List.getElem?_replicate, if_pos (Nat.sub_lt_sub_right hc hl)]

theorem codeword_redundancy {i : Nat} (hi : i < eccBytes l) :
    (codeword l txt)[maxPayload l + i]? = some (apredByte txt i) := by
  rw [codeword, ← paddedPayload_length h, List.getElem?_append_right (Nat.le_add_right _ _), Nat.add_sub_cancel_left,
    apred_getElem? _ hi, apredByte_paddedPayload]

end

/-! ### The frame in `BITS` -/

section

variable (bits : List (Nat × Bool)) (p : Params) (l : Nat) (txt : List Byte)

theorem read_frame {i : Nat} {v : Bool} (hv : (frameBits p l txt)[i]? = some v) :
    Memory.read (Memory.writeRun bits 0 (frameBits p l txt)) i = some v := by
  obtain ⟨hi, hvi⟩ := List.getElem?_eq_some_iff.mp hv
  have hread := Memory.read_writeRun_inside (l := bits) (a := 0) hi
  rwa [Nat.zero_add, hvi] at hread

/-- The start pattern (R81). -/
theorem read_frame_start {i : Nat} (hi : i < 32) :
    Memory.read (Memory.writeRun bits 0 (frameBits p l txt)) i =
      some (if i % 2 = 0 then p.startFirstBit else !p.startFirstBit) := by
  apply read_frame
  rw [frameBits, List.append_assoc, List.getElem?_append_left (by simpa [startPattern, startLen] using hi)]
  simp [startPattern, startLen, hi]

/-- Header byte `j` (R82). -/
theorem byteAt_frame_header {j : Nat} {v : Byte} (hv : (headerBytes p l txt.length)[j]? = some v) :
    ByteAt (Memory.writeRun bits 0 (frameBits p l txt)) (32 + 8 * j) v := by
  intro k hk
  refine read_frame bits p l txt (frameBits_byte p l txt ?_ hk)
  rw [List.getElem?_append_left (List.getElem?_eq_some_iff.mp hv).1, hv]

/-- Codeword byte `c` (R84). -/
theorem byteAt_frame_codeword {c : Nat} {v : Byte} (hv : (codeword l txt)[c]? = some v) :
    ByteAt (Memory.writeRun bits 0 (frameBits p l txt)) (88 + 8 * c) v := by
  intro k hk
  have hlen : (headerBytes p l txt.length).length = 7 := rfl
  rw [show 88 + 8 * c = 32 + 8 * (7 + c) by omega]
  refine read_frame bits p l txt (frameBits_byte p l txt ?_ hk)
  rw [List.getElem?_append_right (by omega), hlen, Nat.add_sub_cancel_left, hv]

end

/-- `ENCF` on a text that fits the level (R131). -/
theorem exec_encf_of_readTxt {s : State} {ecc : BitVec 2} {txt : List Byte} (hl : s.txtLen.toNat ≤ maxPayload ecc.toNat)
    (htxt : readTxt s = some txt) :
    exec (.encf ecc) s = .next (complete .ok (writeBits s 0 (frameBits s.params ecc.toNat txt))) := by
  rw [exec_encf, execEncf, if_neg (Nat.not_lt.mpr hl), htxt]

/-- Settles O36: the bits are those of the frame, read off byte by byte. -/
theorem encfWritesTheFrame : Obligations.EncfWritesTheFrame := by
  intro s ecc b hfit hb
  have hlevel : ecc.toNat < 4 := ecc.isLt
  have htxt : readTxt s = some ((List.range s.txtLen.toNat).map b) := Memory.readRun_of_reads hb
  generalize htext : (List.range s.txtLen.toNat).map b = txt at htxt
  have hlen : txt.length = s.txtLen.toNat := readTxt_length htxt
  rw [← maxPayload_eq hlevel] at hfit ⊢
  have hfit' : txt.length ≤ maxPayload ecc.toNat := hlen ▸ hfit
  have header {j : Nat} {v : Byte} (hv : (headerBytes s.params ecc.toNat s.txtLen.toNat)[j]? = some v) :=
    byteAt_frame_header s.bits s.params ecc.toNat txt (j := j) (by rwa [hlen])
  rw [headerBytes_eq s.params hlevel] at header
  have code {c : Nat} {v : Byte} := byteAt_frame_codeword s.bits s.params ecc.toNat txt (c := c) (v := v)
  refine ⟨_, exec_encf_of_readTxt hfit htxt, rfl, fun i hi => read_frame_start _ _ _ _ hi, header (j := 0) rfl,
    header (j := 1) rfl, header (j := 2) rfl, header (j := 3) rfl, header (j := 4) rfl, header (j := 5) rfl,
    header (j := 6) rfl, fun c hc => code ?_, fun c hc hl => code (codeword_padding hfit' (hlen ▸ hc) hl), fun i hi => ?_,
    fun p hp => ?_⟩
  · rw [codeword_text _ (hlen ▸ hc), ← htext]
    simp [hc]
  · rw [Nat.add_assoc, ← Nat.mul_add, ← apredByte_map_range, htext]
    exact code (codeword_redundancy hfit' (by rwa [eccBytes_eq hlevel]))
  · exact Memory.read_writeRun_outside (.inr (by rw [frameBits_length _ hlevel hfit']; simpa [capTotal] using hp))

end Sys2Proof.Machine
end

section
/-! PROOFS. The layout mapper: `MAPB` and `MAPS` as the two directions of one bijection (R112 to R114). -/

namespace Sys2Proof.Machine

open Sys2Proof.Spec

/-! ### Ring offsets -/

/-- A linear index has one ring and one sector of it (R9). -/
theorem off_add_inj {p : Params} {r r' k k' : Nat} (hr : r ≤ 5) (hk : k < p.sectors r) (hr' : r' ≤ 5)
    (hk' : k' < p.sectors r') (h : off p r + k = off p r' + k') : r = r' ∧ k = k' := by
  obtain rfl : r = r' := by rw [← ringOf_off hr hk, h, ringOf_off hr' hk']
  exact ⟨rfl, Nat.add_left_cancel h⟩

theorem off_add_lt {p : Params} (hv : p.Valid) {r k : Nat} (hr : r ≤ 5) (hk : k < p.sectors r) : off p r + k < 1344 := by
  have hend : off p r + p.sectors r ≤ 1344 := off_le_capTotal hv (Nat.lt_succ_of_le hr)
  omega

/-! ### The two commands in range -/

theorem exec_mapb_of_le {idx : BitVec 11} (s : State) (h : idx.toNat ≤ 1343) :
    exec (.mapb idx) s = .next (complete .ok { s with mapRs :=
      { ring := BitVec.ofNat 3 (ringOf s.params idx.toNat)
        sector := BitVec.ofNat 11 (idx.toNat - off s.params (ringOf s.params idx.toNat)) } }) := by
  rw [exec_mapb, execMapb, if_neg (Nat.not_lt.mpr h)]

theorem exec_maps_of_lt {ring : BitVec 3} {sector : BitVec 11} {s : State} (hr : ring.toNat ≤ 5)
    (hs : sector.toNat < s.params.sectors ring.toNat) :
    exec (.maps ring sector) s =
      .next (complete .ok { s with mapIdx := BitVec.ofNat 11 (off s.params ring.toNat + sector.toNat) }) := by
  rw [exec_maps, execMaps, if_neg (by omega)]

/-! ### The obligations -/

/-- Settles O28: the ring that owns the index and the sector inside it fit the fields of `MAP_RS`. -/
theorem mapbFindsTheOwningSector : Obligations.MapbFindsTheOwningSector := by
  intro s idx hv
  refine ⟨fun hi => ?_, fun hi => exec_of_not_inRange (Nat.not_le.mpr hi)⟩
  obtain ⟨hring, hoff, hsector⟩ := ringOf_spec hv (Nat.lt_succ_of_le hi)
  have hr : (BitVec.ofNat 3 (ringOf s.params idx.toNat)).toNat = ringOf s.params idx.toNat :=
    BitVec.toNat_eq_nat.mpr ⟨by omega, rfl⟩
  have hs : (BitVec.ofNat 11 (idx.toNat - off s.params (ringOf s.params idx.toNat))).toNat =
      idx.toNat - off s.params (ringOf s.params idx.toNat) := BitVec.toNat_eq_nat.mpr ⟨by omega, rfl⟩
  refine ⟨_, exec_mapb_of_le s hi, rfl, ?_⟩
  simp only [complete_mapRs, offset_eq, hr, hs]
  exact ⟨hring, hsector, Nat.add_sub_cancel' hoff⟩

/-- Settles O29: the linear index is below 1344 and fits `MAP_IDX`. -/
theorem mapsGivesTheLinearIndex : Obligations.MapsGivesTheLinearIndex := by
  intro s ring sector hv
  refine ⟨fun hr hs => ⟨_, exec_maps_of_lt hr hs, rfl, ?_⟩, fun h => exec_of_not_inRange (by simp only [InRange]; omega)⟩
  have hlt := off_add_lt hv hr hs
  rw [complete_mapIdx, offset_eq]
  exact BitVec.toNat_eq_nat.mpr ⟨by omega, rfl⟩

/-- Settles O30: what either command finds is in range of the other, and a linear index has one ring and one sector. -/
theorem mapperIsABijection : Obligations.MapperIsABijection := by
  intro s hv
  constructor
  · intro idx hi
    obtain ⟨t, ht, hframe, hr, hs, hidx⟩ := (mapbFindsTheOwningSector s idx hv).1 hi
    have hp : t.params = s.params := exec_params ht
    rw [← hp] at hv hs hidx
    obtain ⟨u, hu, hframe', hidx'⟩ := (mapsGivesTheLinearIndex t _ _ hv).1 hr hs
    exact ⟨t, u, ht, congrArg State.code hframe, hu, congrArg State.code hframe', BitVec.eq_of_toNat_eq (hidx'.trans hidx)⟩
  · intro ring sector hr hs
    obtain ⟨t, ht, hframe, hidx⟩ := (mapsGivesTheLinearIndex s ring sector hv).1 hr hs
    have hp : t.params = s.params := exec_params ht
    rw [offset_eq] at hidx
    have hi : t.mapIdx.toNat ≤ 1343 := hidx ▸ Nat.le_of_lt_succ (off_add_lt hv hr hs)
    obtain ⟨u, hu, hframe', hr', hs', hidx'⟩ := (mapbFindsTheOwningSector t _ (hp ▸ hv)).1 hi
    rw [hp] at hs' hidx'
    rw [offset_eq, hidx] at hidx'
    obtain ⟨hring, hsector⟩ := off_add_inj hr' hs' hr hs hidx'
    refine ⟨t, u, ht, congrArg State.code hframe, hu, congrArg State.code hframe', ?_⟩
    rw [← BitVec.eq_of_toNat_eq hring, ← BitVec.eq_of_toNat_eq hsector]

end Sys2Proof.Machine
end

section
/-! PROOFS. The angles of the sub-samples (R116, R181). -/

namespace Sys2Proof.Machine

theorem fracValue_pos {f : Frac} (h : f.Proper) : 0 < fracValue f :=
  div_pos (Nat.cast_pos.mpr h.1) (Nat.cast_pos.mpr (h.1.trans_le h.2))

theorem fracValue_le_one {f : Frac} (h : f.Proper) : fracValue f ≤ 1 :=
  div_le_one_of_le₀ (Nat.cast_le.mpr h.2) (Nat.cast_nonneg _)

/-- An angle of less than one turn is its own remainder. -/
theorem turn_of_lt_one {x : Rat} (h0 : 0 ≤ x) (h1 : x < 1) : turn x = x := by
  have hfloor : x.floor = 0 := Int.floor_eq_zero_iff.mpr ⟨h0, h1⟩
  rw [turn, hfloor, Int.cast_zero, sub_zero]

/-- A sub-sample lies strictly inside its sector, in units of the sector's width: half of what the kept part leaves, and at
most fifteen sixteenths of the kept part. -/
theorem subsample_mem_Ioo {keep : Rat} (h0 : 0 < keep) (h1 : keep ≤ 1) {k : Nat} (hk : k < 8) :
    (1 - keep) / 2 + keep * (2 * (k : Rat) + 1) / 16 ∈ Set.Ioo 0 1 := by
  have hk' : (k : Rat) ≤ 7 := by exact_mod_cast Nat.le_of_lt_succ hk
  have hlow : 0 < keep * (2 * (k : Rat) + 1) := by positivity
  have hhigh : keep * (2 * (k : Rat) + 1) ≤ keep * 15 := by gcongr; linarith
  constructor <;> linarith

/-- Settles O60: the sub-sample is strictly inside its sector, and the sector ends within the turn, so no turn is taken off. -/
theorem subsamplesLieInsideTheirSector : Obligations.SubsamplesLieInsideTheirSector := by
  intro p r sct k hv _ hs hk
  obtain ⟨-, -, hkeep, -⟩ := hv
  obtain ⟨hlow, hhigh⟩ := subsample_mem_Ioo (fracValue_pos hkeep) (fracValue_le_one hkeep) hk
  have hn : (0 : Rat) < p.sectors r := Nat.cast_pos.mpr (Nat.zero_lt_of_lt hs)
  have hend : (sct : Rat) + 1 ≤ p.sectors r := by exact_mod_cast hs
  have hsct : (0 : Rat) ≤ sct := Nat.cast_nonneg _
  rw [theta, Nat.cast_zero, zero_div, zero_add, add_assoc,
    turn_of_lt_one (div_nonneg (by linarith) hn.le) ((div_lt_one hn).mpr (by linarith))]
  exact ⟨div_lt_div_of_pos_right (by linarith) hn, div_lt_div_of_pos_right (by linarith) hn⟩

end Sys2Proof.Machine
end

section
/-! PROOFS. What `DECF` makes of the seven header bytes, and the bits its answer depends on (R140 to R149, R151, R153). -/

namespace Sys2Proof.Machine

open Sys2Proof.Spec

/-! ### The header checks and the validation of `DECF` -/

/-- Every answer of `DECF` shows what it finds. -/
theorem decfOut_of_exec_decf {s t : State} (he : exec .decf s = .next t) :
    ∃ h c x d, decfOut s = some (h, c, x, d) ∧ t = complete c (decfPut s h x d) := by
  rw [exec_decf, execDecf, decfRun_eq] at he
  match ho : decfOut s with
  | none => rw [ho] at he; cases he
  | some (h, c, x, d) => rw [ho] at he; cases he; exact ⟨h, c, x, d, rfl, rfl⟩

/-- The checksum is a number below 256, so it survives being stored as a byte (R83, R141). -/
theorem checksum_matches_iff {hb : Nat → Byte} :
    (headerRegister hb).ckCalc = (headerRegister hb).cksum ↔ checksumOf hb = (hb 6).toNat := by
  refine ⟨fun h => ?_, checksum_matches⟩
  have hlt : checksumOf hb < 256 := Nat.mod_lt _ (by decide)
  rw [← Nat.mod_eq_of_lt hlt]
  exact (BitVec.toNat_ofNat (checksumOf hb) 8).symm.trans (congrArg BitVec.toNat h)

/-- What the validation step makes of an extracted codeword (R147, R165). -/
def decfValidated (h : Header) (cw : List Byte) : Header × Code × Option Byte × Option (List Byte) :=
  match valred cw h.redLen.toNat with
  | (none, x) => (h, .redundancyValidationFailed, some x, none)
  | (some data, x) => (h, .ok, some x, some data)

theorem decfValidated_code (h : Header) (cw : List Byte) :
    (decfValidated h cw).2.1 = .redundancyValidationFailed ∨ (decfValidated h cw).2.1 = .ok := by
  unfold decfValidated
  split
  · exact .inl rfl
  · exact .inr rfl

section

variable {s : State} {hb : Nat → Byte} (hh : HeaderIs s hb)
include hh

/-- The first check that a header fails (R141 to R143, R240). -/
theorem decfOut_of_rejected (ha : ¬ HeaderAccepted hb) :
    decfOut s = some (headerRegister hb,
      if checksumOf hb ≠ (hb 6).toNat then .headerChecksumMismatch else .payloadLengthInvalid, none, none) := by
  simp only [decfOut, readHeader_of_headerIs hh, headerRegister_payLen, headerRegister_redLen,
    levelCapacity_headerRegister, ne_eq, checksum_matches_iff]
  by_cases hsum : checksumOf hb = (hb 6).toNat
  · have hlen : payLenOf hb = 0 ∨ capacityOf hb < payLenOf hb + redLenOf hb := by
      by_contra hn
      exact ha ⟨hsum, by omega, by omega⟩
    rw [if_neg (not_not.mpr hsum), if_pos hlen, if_neg (not_not.mpr hsum)]
  · rw [if_pos hsum, if_pos hsum]

/-- An accepted header leaves the decision to the validation of the codeword it declares (R144, R147). -/
theorem decfOut_of_accepted (ha : HeaderAccepted hb) :
    decfOut s = (bytesAt s codewordAt (payLenOf hb + redLenOf hb)).map (decfValidated (headerRegister hb)) := by
  obtain ⟨hsum, hpay, hcap⟩ := ha
  simp only [decfOut, readHeader_of_headerIs hh, headerRegister_payLen, headerRegister_redLen,
    levelCapacity_headerRegister]
  rw [if_neg (not_not.mpr (checksum_matches hsum)), if_neg (by omega)]
  cases bytesAt s codewordAt (payLenOf hb + redLenOf hb) with
  | none => rfl
  | some cw =>
    simp only [Option.map_some, decfValidated, headerRegister_redLen]
    obtain ⟨_ | data, x⟩ := valred cw (redLenOf hb) <;> rfl

theorem exec_decf_of_rejected (ha : ¬ HeaderAccepted hb) :
    exec .decf s = .next { ended
      (if checksumOf hb ≠ (hb 6).toNat then .headerChecksumMismatch else .payloadLengthInvalid) s with
      hdr := headerRegister hb, outLen := 0 } :=
  exec_decf_of_decfOut (decfOut_of_rejected hh ha)

theorem exec_decf_of_checksum_fails (hsum : checksumOf hb ≠ (hb 6).toNat) :
    ∃ t, exec .decf s = .next t ∧ t.code = .headerChecksumMismatch :=
  ⟨_, exec_decf_of_rejected hh fun ⟨hmatch, _⟩ => hsum hmatch, if_pos hsum⟩

end

/-- Settles O39: the checks come before validation, and validation gives codes of its own. -/
theorem decfReportsTheFirstFailingCheck : Obligations.DecfReportsTheFirstFailingCheck := by
  intro s hb hh
  refine ⟨exec_decf_of_rejected hh, fun ha t he => ?_⟩
  obtain ⟨h, c, x, d, ho, rfl⟩ := decfOut_of_exec_decf he
  rw [decfOut_of_accepted hh ha] at ho
  obtain ⟨cw, -, hv⟩ := Option.map_eq_some_iff.mp ho
  have hc := decfValidated_code (headerRegister hb) cw
  rw [hv] at hc
  obtain rfl | rfl : c = .redundancyValidationFailed ∨ c = .ok := hc <;> exact ⟨nofun, nofun⟩

/-- Settles O41: the header leaves the decision to the filter, which finds too many `00` and `FF` bytes. -/
theorem decfRejectsACorruptPayload : Obligations.DecfRejectsACorruptPayload := by
  intro s hb cw hh ha hcw hfail
  have ⟨_, hpay, _⟩ := ha
  have hbytes : bytesAt s codewordAt (payLenOf hb + redLenOf hb) = some ((List.range (payLenOf hb + redLenOf hb)).map cw) :=
    bytesAt_of_byteAt hcw
  have ho := decfOut_of_accepted hh ha
  rw [hbytes, Option.map_some, decfValidated, headerRegister_redLen, valred_map_range_fails (Nat.pos_of_ne_zero hpay) _ hfail] at ho
  exact exec_decf_of_decfOut ho

/-! ### The bits `DECF` looks at -/

/-- What `DECF` finds depends on the header bits and the bits of the codeword that the header declares (R149). -/
theorem decfOut_eq_of_declared_bits {a b : State} {hb : Nat → Byte} (hh : HeaderIs a hb)
    (h : ∀ p, 32 ≤ p → p < 88 + 8 * (payLenOf hb + redLenOf hb) → Memory.read b.bits p = Memory.read a.bits p) :
    decfOut b = decfOut a := by
  have hh' : HeaderIs b hb := fun j hj k hk => (h _ (by omega) (by omega)).trans (hh j hj k hk)
  by_cases ha : HeaderAccepted hb
  · rw [decfOut_of_accepted hh ha, decfOut_of_accepted hh' ha]
    congr 1
    exact bytesAt_congr fun k hk => h _ (Nat.le_add_right_of_le (by decide)) (Nat.add_lt_add_left hk _)
  · rw [decfOut_of_rejected hh ha, decfOut_of_rejected hh' ha]

/-- Settles O42: `DECF` finds the same in both, and puts it into the state beside `BITS`. -/
theorem decfIgnoresStartPatternAndTail : Obligations.DecfIgnoresStartPatternAndTail := by
  intro s t hb bits hh h he
  obtain ⟨hd, c, x, d, ho, rfl⟩ := decfOut_of_exec_decf he
  exact exec_decf_of_decfOut ((decfOut_eq_of_declared_bits (b := { s with bits := bits }) hh h).trans ho)

/-! ### The checksum -/

theorem xor_one_shiftLeft_ne (x : Byte) {k : Nat} (hk : k < 8) : x ^^^ (1#8 <<< k) ≠ x := by
  intro h
  have hzero : 1#8 <<< k = 0#8 := BitVec.xor_right_inj x |>.mp (h.trans BitVec.xor_zero.symm)
  revert hzero
  interval_cases k <;> decide

/-- A change to one byte of a header is seen by the checksum: two bytes that differ, differ modulo 256 (R151). -/
theorem checksum_fails_of_one_byte_changed {hb hb' : Nat → Byte} {j : Nat} (hj : j < 7) (hne : hb' j ≠ hb j)
    (hsame : ∀ i, i ≠ j → hb' i = hb i) (hsum : checksumOf hb = (hb 6).toNat) :
    checksumOf hb' ≠ (hb' 6).toNat := by
  have hlt := (hb j).isLt
  have hlt' := (hb' j).isLt
  rw [ne_eq, ← BitVec.toNat_inj] at hne
  unfold checksumOf at *
  interval_cases j <;> simp (disch := decide) only [hsame] <;> omega

/-- Settles O43: the flipped byte differs from the one it was. -/
theorem headerBitFlipIsDetected : Obligations.HeaderBitFlipIsDetected := by
  intro s hb j k hj hk hsum hh
  refine exec_decf_of_checksum_fails hh (checksum_fails_of_one_byte_changed hj ?_ (fun i hi => if_neg hi) hsum)
  rw [if_pos rfl]
  exact xor_one_shiftLeft_ne (hb j) hk

/-! ### Uniform bitstreams -/

/-- The byte of eight equal bits. -/
def uniformByte (v : Bool) : Byte := if v then 0xFF else 0x00

theorem uniformByte_getLsbD : ∀ (v : Bool), ∀ i < 8, (uniformByte v).getLsbD i = v := by decide

theorem headerIs_of_uniform {s : State} {v : Bool} (h : ∀ p < 1344, Memory.read s.bits p = some v) :
    HeaderIs s fun _ => uniformByte v := by
  intro j hj k hk
  rw [h _ (by omega), uniformByte_getLsbD v _ (by omega)]

/-- Settles O45: the bytes `FF` add up to `FA` modulo 256, and the bytes `00` declare no payload. -/
theorem uniformBitstreamsAreRejected : Obligations.UniformBitstreamsAreRejected := by
  intro s v h
  have hh := headerIs_of_uniform h
  cases v with
  | true => exact exec_decf_of_checksum_fails hh (by decide)
  | false => exact ⟨_, exec_decf_of_rejected hh fun ⟨_, hpay, _⟩ => hpay rfl, rfl⟩

end Sys2Proof.Machine
end

section
/-! PROOFS. The frame that `ENCF` writes as `DECF` reads it: padding, determinism and the round trip (R133, R150, R152). -/

namespace Sys2Proof.Machine

open Sys2Proof.Spec

/-- Settles O33: each redundancy byte is an exclusive or, to which zero bytes add nothing. -/
theorem paddingKeepsTheRedundancyBytes : Obligations.PaddingKeepsTheRedundancyBytes := by
  intro txt z n
  refine List.map_congr_left fun i _ => ?_
  rw [apredByte_append, apredByte_replicate_zero]
  exact BitVec.xor_zero

/-! ### Determinism -/

/-- The bits after an `ENCF` whose text fits the level are those of the frame (R131). -/
theorem encf_bits {s t : State} {ecc : BitVec 2} (hfit : s.txtLen.toNat ≤ payloadLimit ecc.toNat)
    (he : exec (.encf ecc) s = .next t) :
    ∃ txt, readTxt s = some txt ∧ ∀ p < 1344, Memory.read t.bits p = (frameBits s.params ecc.toNat txt)[p]? := by
  have hlevel : ecc.toNat < 4 := ecc.isLt
  rw [← maxPayload_eq hlevel] at hfit
  obtain ⟨hlong, -⟩ | ⟨-, txt, htxt, rfl⟩ := execEncf_cases he
  · omega
  · refine ⟨txt, htxt, fun p hp => ?_⟩
    have hlen := frameBits_length s.params hlevel (readTxt_length htxt ▸ hfit)
    rw [complete_bits, writeBits_bits, Memory.read_writeRun, hlen, if_pos (by simp only [capTotal]; omega), Nat.sub_zero]

/-- Settles O38: both texts are the same, and so are both frames. -/
theorem encfIsDeterministic : Obligations.EncfIsDeterministic := by
  intro s s' t t' ecc hparams hlen hmem hfit he he' p hp
  obtain ⟨txt, htxt, hbits⟩ := encf_bits hfit he
  obtain ⟨txt', htxt', hbits'⟩ := encf_bits (hlen ▸ hfit) he'
  have hread : readTxt s = readTxt s' := by
    rw [readTxt, readTxt, ← hlen]
    exact Memory.readRun_congr hmem
  obtain rfl : txt = txt' := Option.some.inj (htxt.symm.trans (hread.trans htxt'))
  rw [hbits p hp, hbits' p hp, hparams]

/-! ### Round trip -/

/-- Header byte `j` of a frame (R82). -/
def frameHeader (p : Params) (l len j : Nat) : Byte := (headerBytes p l len).getD j 0

/-- Codeword byte `c` of a frame (R84). -/
def frameCode (l : Nat) (txt : List Byte) (c : Nat) : Byte := (codeword l txt).getD c 0

theorem checksumOf_frameHeader (p : Params) (l len : Nat) :
    checksumOf (frameHeader p l len) = (frameHeader p l len 6).toNat := by
  refine (Nat.mod_eq_of_lt ?_).symm.trans (BitVec.toNat_ofNat _ 8).symm
  exact Nat.mod_lt _ (by decide)

theorem payLenOf_frameHeader (p : Params) (l : Nat) {len : Nat} (h : len < 65536) :
    payLenOf (frameHeader p l len) = len := by
  show 256 * (BitVec.ofNat 8 (len / 256)).toNat + (BitVec.ofNat 8 (len % 256)).toNat = len
  rw [BitVec.toNat_ofNat, BitVec.toNat_ofNat]
  omega

section

variable {l : Nat} (hl : l < 4)
include hl

theorem redLenOf_frameHeader (p : Params) (len : Nat) : redLenOf (frameHeader p l len) = eccBytes l := by
  interval_cases l <;> rfl

theorem capacityOf_frameHeader (p : Params) (len : Nat) : capacityOf (frameHeader p l len) = 157 := by
  interval_cases l <;> rfl

/-- The header of a frame with a payload that fits passes the checks of `DECF` (R141 to R143). -/
theorem headerAccepted_frameHeader (p : Params) {len : Nat} (h1 : 1 ≤ len) (h2 : len ≤ maxPayload l) :
    HeaderAccepted (frameHeader p l len) := by
  have hsum : maxPayload l + eccBytes l = 157 := maxPayload_add_eccBytes hl
  refine ⟨checksumOf_frameHeader p l len, ?_, ?_⟩
  · rw [payLenOf_frameHeader p l (by omega)]
    omega
  · rw [payLenOf_frameHeader p l (by omega), redLenOf_frameHeader hl, capacityOf_frameHeader hl]
    omega

end

theorem suspects_congr {m : Nat} {b b' : Nat → Byte} (h : ∀ j < m, b j = b' j) : suspects m b = suspects m b' := by
  refine congrArg List.length (List.filter_congr fun j hj => ?_)
  rw [h j (List.mem_range.mp hj)]

theorem getElem?_eq_some_getD {α : Type} {l : List α} {i : Nat} (h : i < l.length) (d : α) :
    l[i]? = some (l.getD i d) := by
  rw [List.getD_eq_getElem _ _ h, List.getElem?_eq_getElem h]

/-- The header in `BITS` after `ENCF` (R82, R131). -/
theorem headerIs_writeBits_frame (s : State) (c : Code) (l : Nat) (txt : List Byte) :
    HeaderIs (complete c (writeBits s 0 (frameBits s.params l txt))) (frameHeader s.params l txt.length) :=
  fun _ hj => byteAt_frame_header s.bits s.params l txt (getElem?_eq_some_getD hj 0)

/-- A codeword byte in `BITS` after `ENCF` (R84, R131). -/
theorem byteAt_writeBits_frameCode (s : State) (c : Code) {l : Nat} (hl : l < 4) {txt : List Byte}
    (h : txt.length ≤ maxPayload l) {i : Nat} (hi : i < 157) :
    ByteAt (complete c (writeBits s 0 (frameBits s.params l txt))).bits (88 + 8 * i) (frameCode l txt i) :=
  byteAt_frame_codeword s.bits s.params l txt (getElem?_eq_some_getD ((codeword_length hl h).symm ▸ hi) 0)

/-- The text stands at the front of the codeword (R84). -/
theorem frameCode_text (l : Nat) {m c : Nat} (b : Nat → Byte) (hc : c < m) :
    frameCode l ((List.range m).map b) c = b c := by
  rw [frameCode, List.getD_eq_getElem?_getD, codeword_text l (by simpa using hc)]
  simp [hc]

/-- Settles O44: `DECF` finds an accepted header and, at the front of the codeword, the text, which passes the filter. -/
theorem roundTripReturnsTheText : Obligations.RoundTripReturnsTheText := by
  intro s ecc b hne hfit hb hpass
  have hlevel : ecc.toNat < 4 := ecc.isLt
  rw [← maxPayload_eq hlevel] at hfit
  have htxt : readTxt s = some ((List.range s.txtLen.toNat).map b) := Memory.readRun_of_reads hb
  have htext (j : Nat) (hj : j < s.txtLen.toNat) : frameCode ecc.toNat ((List.range s.txtLen.toNat).map b) j = b j :=
    frameCode_text ecc.toNat b hj
  generalize (List.range s.txtLen.toNat).map b = txt at htxt htext
  have hlen : txt.length = s.txtLen.toNat := readTxt_length htxt
  have hheader := headerIs_writeBits_frame s .ok ecc.toNat txt
  have haccepted := headerAccepted_frameHeader hlevel s.params hne hfit
  have hpay := payLenOf_frameHeader s.params ecc.toNat s.txtLen.isLt
  have hred := redLenOf_frameHeader hlevel s.params s.txtLen.toNat
  have hsum : maxPayload ecc.toNat + eccBytes ecc.toNat = 157 := maxPayload_add_eccBytes hlevel
  rw [hlen] at hheader
  obtain ⟨u, hu, hframe, hout, hdata, -⟩ := decfDeliversThePayload _ _ _ hheader haccepted
    (fun c hc => byteAt_writeBits_frameCode s .ok hlevel (hlen ▸ hfit) (by omega))
    (by rwa [hpay, suspects_congr htext])
  rw [hpay] at hout hdata
  exact ⟨_, u, exec_encf_of_readTxt hfit htxt, hu, congrArg State.code hframe, hout,
    fun j hj => (hdata j hj).trans (congrArg some (htext j hj))⟩

end Sys2Proof.Machine
end

section
/-! PROOFS. The redundancy bytes: what `APRED` writes, and their symmetry in the payload (R161 to R163). -/

namespace Sys2Proof.Machine

open Sys2Proof.Spec

/-! ### APRED -/

/-- `APRED` in range on a text that is there (R162). -/
theorem exec_apred_of_readTxt {s : State} {n : BitVec 8} {txt : List Byte} (hr : InRange s (.apred n))
    (htxt : readTxt s = some txt) :
    exec (.apred n) s = .next (complete .ok { writeRed s (apred txt n.toNat) with redLen := n }) := by
  obtain ⟨hn, hlen⟩ := hr
  rw [exec_apred, execApred, if_neg (by simp only [redSize, txtSize]; omega), htxt]

/-- Settles O31: in range, `RED` holds the redundancy bytes of the text and all other bytes stay. -/
theorem apredWritesTheRedundancyBytes : Obligations.ApredWritesTheRedundancyBytes := by
  intro s n b
  refine ⟨fun hn hlen hb => ?_, fun hout => exec_of_not_inRange (by simp only [InRange]; omega)⟩
  have htxt : readTxt s = some ((List.range s.txtLen.toNat).map b) := Memory.readRun_of_reads hb
  refine ⟨_, exec_apred_of_readTxt ⟨hn, hlen⟩ htxt, rfl, fun i hi => ?_, fun a ha => ?_⟩
  · rw [← apredByte_map_range, ← apred_getElem? _ hi]
    exact (Memory.read_writeRun_inside (a := redBase) (by rwa [apred_length])).trans (List.getElem?_eq_getElem _).symm
  · exact Memory.read_writeRun_outside (by rwa [apred_length])

/-! ### Symmetry -/

/-- Exclusive or takes the payload bytes in any order (R163). -/
theorem apredByte_perm {p q : List Byte} (h : p.Perm q) (i : Nat) : apredByte p i = apredByte q i :=
  h.foldl_eq' (fun _ _ _ _ _ => by ac_rfl) 0

/-- A zero byte adds nothing (R163). -/
theorem apredByte_filter_ne_zero (p : List Byte) (i : Nat) : apredByte (p.filter fun b => b ≠ 0) i = apredByte p i := by
  induction p with
  | nil => rfl
  | cons b p ih =>
    by_cases hb : b = 0
    · rw [List.filter_cons_of_neg (by simpa using hb), ih, apredByte_cons, hb]
      simp
    · rw [List.filter_cons_of_pos (by simpa using hb), apredByte_cons, ih, apredByte_cons]

theorem apredByte_singleton (b : Byte) (i : Nat) : apredByte [b] i = BitVec.ofNat 8 (b.toNat * (i + 1)) := by
  rw [apredByte_cons]
  exact BitVec.xor_zero

/-- The first redundancy byte takes each payload byte once (R163). -/
theorem apredByte_zero (p : List Byte) : apredByte p 0 = xorBytes p := by
  have honce (b : Byte) : BitVec.ofNat 8 (b.toNat * (0 + 1) % 256) = b := by
    rw [Nat.zero_add, Nat.mul_one, Nat.mod_eq_of_lt b.isLt, BitVec.ofNat_toNat, BitVec.setWidth_eq]
  simp only [apredByte, xorBytes, honce]

/-- Settles O32: each fact holds of every redundancy byte. -/
theorem apredIsSymmetricAndIgnoresZeros : Obligations.ApredIsSymmetricAndIgnoresZeros := by
  refine ⟨fun p q n h => ?_, fun p n => ?_, fun p n hn => ?_, fun b n i hi => ?_⟩
  · exact List.map_congr_left fun i _ => apredByte_perm h i
  · exact List.map_congr_left fun i _ => apredByte_filter_ne_zero p i
  · rw [apred_getElem? p hn, apredByte_zero]
  · rw [apred_getElem? [b] hi, apredByte_singleton]

end Sys2Proof.Machine
end

section
/-! PROOFS. Commands that read a buffer element nothing has written (R263, R264, U1). -/

namespace Sys2Proof.Machine

open Sys2Proof.Spec

/-! ### Bits that nothing has written -/

/-- Bytes of the bitstream are not there if one of their bits is not. -/
theorem bytesAt_of_unwritten_bit {s : State} {a n p : Nat} (ha : a ≤ p) (hp : p < a + 8 * n)
    (h : Memory.read s.bits p = none) : bytesAt s a n = none := by
  refine bytesAt_eq_none.mpr ⟨(p - a) / 8, by omega, byteAt_eq_none.mpr ⟨(p - a) % 8, by omega, ?_⟩⟩
  rwa [show a + 8 * ((p - a) / 8) + (p - a) % 8 = p by omega]

theorem exec_decf_of_decfOut_none {s : State} (h : decfOut s = none) : exec .decf s = .refused (.unwritten .bits) := by
  rw [exec_decf, execDecf, decfRun_eq, h]
  rfl

theorem decfOut_of_readHeader_none {s : State} (h : readHeader s = none) : decfOut s = none := by
  rw [decfOut, h]

/-! ### Operands -/

theorem exec_encf_of_readTxt_none {s : State} {ecc : BitVec 2} (hl : s.txtLen.toNat ≤ maxPayload ecc.toNat)
    (h : readTxt s = none) : exec (.encf ecc) s = .refused (.unwritten .txt) := by
  rw [exec_encf, execEncf, if_neg (Nat.not_lt.mpr hl), h]

theorem exec_apred_of_readTxt_none {s : State} {n : BitVec 8} (hr : InRange s (.apred n)) (h : readTxt s = none) :
    exec (.apred n) s = .refused (.unwritten .txt) := by
  obtain ⟨hn, hlen⟩ := hr
  rw [exec_apred, execApred, if_neg (by simp only [redSize, txtSize]; omega), h]

theorem exec_valred_of_readCw_none {s : State} {n : BitVec 8} (hr : InRange s (.valred n)) (h : readCw s = none) :
    exec (.valred n) s = .refused (.unwritten .cw) := by
  rw [exec_valred, execValred, if_neg (show ¬ codewordBytes < s.cwLen.toNat from Nat.not_lt.mpr hr), h]

theorem exec_thr_of_readInts_none {s : State} {ring i : BitVec 3} {mode : Mode} {inv : Bool}
    (hr : InRange s (.thr ring mode inv i)) (h : readInts s (off s.params ring.toNat) (s.params.sectors ring.toNat) = none) :
    exec (.thr ring mode inv i) s = .refused (.unwritten .int) := by
  obtain ⟨hring, hi⟩ := hr
  rw [exec_thr, execThr, if_neg (by omega), thrRun, h]
  rfl

/-- Settles O59: the run of elements that the command reads is not there. -/
theorem unwrittenOperandIsRefused : Obligations.UnwrittenOperandIsRefused := by
  intro s
  refine ⟨fun ecc j hfit hj h => ?encf, fun n j hr hj h => ?apred, fun n j hr hj h => ?valred, fun p h1 h2 h => ?header,
    fun hb p hh ha h1 h2 h => ?codeword, fun ring mode inv i j hr hj h => ?thr⟩
  case encf =>
    rw [← maxPayload_eq ecc.isLt] at hfit
    exact exec_encf_of_readTxt_none hfit (Memory.readRun_eq_none.mpr ⟨j, hj, h⟩)
  case apred => exact exec_apred_of_readTxt_none hr (Memory.readRun_eq_none.mpr ⟨j, hj, h⟩)
  case valred => exact exec_valred_of_readCw_none hr (Memory.readRun_eq_none.mpr ⟨j, hj, h⟩)
  case header =>
    have hbytes : bytesAt s startLen 7 = none := bytesAt_of_unwritten_bit h1 h2 h
    exact exec_decf_of_decfOut_none (decfOut_of_readHeader_none (by rw [readHeader, hbytes]; rfl))
  case codeword =>
    have hbytes : bytesAt s codewordAt (payLenOf hb + redLenOf hb) = none := bytesAt_of_unwritten_bit h1 h2 h
    exact exec_decf_of_decfOut_none (by rw [decfOut_of_accepted hh ha, hbytes]; rfl)
  case thr =>
    rw [offset_eq] at h
    exact exec_thr_of_readInts_none hr (Memory.readRun_eq_none.mpr ⟨j, hj, h⟩)

end Sys2Proof.Machine
end

section
/-! PROOFS. What `SAMP` writes for a ring whose taps are all answered (R182, R184, R185). -/

namespace Sys2Proof.Machine

open Sys2Proof.Spec

/-! ### Taps as sums -/

/-- `SUM` and `CNT` over answered requests (R184). -/
theorem aggregate_of_answers {u : TapUnit} {tap : TapRequest → Option Byte} {qs : List TapRequest}
    (h : ∀ q ∈ qs, tapAnswer u q = answerOf (tap q)) :
    aggregate u qs = some ((qs.map fun q => ((tap q).map BitVec.toNat).getD 0).sum,
      (qs.map fun q => if (tap q).isSome then 1 else 0).sum) := by
  induction qs with
  | nil => rfl
  | cons q qs ih =>
    obtain ⟨hq, hqs⟩ := List.forall_mem_cons.mp h
    rw [aggregate, hq, ih hqs]
    cases htap : tap q with
    | none => simp [answerOf, htap]
    | some b => simp [answerOf, htap, Nat.add_comm]

/-- The requests of a sector, by sub-sample and radial offset (R182). -/
theorem mem_sectorRequests {s : State} {var ring sector shift : Nat} {q : TapRequest} :
    q ∈ sectorRequests s.params.radiusTap.toNat var ring sector shift ↔
      ∃ k < 8, ∃ j < 2 * s.params.radiusTap.toNat + 1, requestAt s var ring sector shift k j = q := by
  simp only [sectorRequests, tapOffsets, subsamples, requestAt, List.mem_flatMap, List.mem_map, List.mem_range,
    exists_exists_and_eq_and]

theorem sum_map_range (n : Nat) (f : Nat → Nat) : ((List.range n).map f).sum = ∑ i ∈ Finset.range n, f i := rfl

/-- A sum over the requests of a sector, by sub-sample and radial offset (R182). -/
theorem sum_sectorRequests (s : State) (var ring sector shift : Nat) (f : TapRequest → Nat) :
    ((sectorRequests s.params.radiusTap.toNat var ring sector shift).map f).sum =
      ∑ k ∈ Finset.range 8, ∑ j ∈ Finset.range (2 * s.params.radiusTap.toNat + 1),
        f (requestAt s var ring sector shift k j) := by
  simp only [sectorRequests, tapOffsets, List.flatMap_def, List.map_flatten, List.sum_flatten, List.map_map,
    sum_map_range, Function.comp_def]
  rfl

section
variable {s : State} {tap : TapRequest → Option Byte} {var ring sector shift : Nat}
  (h : ∀ k < 8, ∀ j < 2 * s.params.radiusTap.toNat + 1,
    tapAnswer s.taps (requestAt s var ring sector shift k j) = answerOf (tap (requestAt s var ring sector shift k j)))
include h

/-- What the sampler adds up over an answered sector (R184). -/
theorem aggregate_sector : aggregate s.taps (sectorRequests s.params.radiusTap.toNat var ring sector shift) =
    some (sectorSum s tap var ring sector shift, sectorCnt s tap var ring sector shift) := by
  have hanswers : ∀ q ∈ sectorRequests s.params.radiusTap.toNat var ring sector shift,
      tapAnswer s.taps q = answerOf (tap q) := fun q hq => by
    obtain ⟨k, hk, j, hj, rfl⟩ := mem_sectorRequests.mp hq
    exact h k hk j hj
  rw [aggregate_of_answers hanswers, sum_sectorRequests, sum_sectorRequests]
  rfl

/-- The sum and the count of an answered sector fit their fields (R28, R184). -/
theorem sector_fits : sectorSum s tap var ring sector shift < 65536 ∧ sectorCnt s tap var ring sector shift < 256 := by
  have hle := aggregate_le (aggregate_sector h)
  rw [sectorRequests_length] at hle
  have hradius := s.params.radiusTap.isLt
  omega

end

theorem entryWord_high (sc : Nat × Nat) : (entryWord sc).extractLsb' 24 8 = 0#8 := by
  apply BitVec.eq_of_toNat_eq
  rw [BitVec.extractLsb'_toNat, Nat.shiftRight_eq_div_pow]
  simp only [entryWord, append_toNat, BitVec.toNat_ofNat]
  omega

/-! ### SAMP -/

/-- The entry of sector `sector` that holds its sum and its count (R185). -/
def answeredEntry (s : State) (tap : TapRequest → Option Byte) (var ring shift sector : Nat) : Word :=
  entryWord (sectorSum s tap var ring sector shift, sectorCnt s tap var ring sector shift)

/-- What `SAMP` leaves of a ring whose taps are all answered (R185). -/
theorem sampRun_of_answers {s : State} {tap : TapRequest → Option Byte} {ring var shift : Nat}
    (h : ∀ sct < s.params.sectors ring, ∀ k < 8, ∀ j < 2 * s.params.radiusTap.toNat + 1,
      tapAnswer s.taps (requestAt s var ring sct shift k j) = answerOf (tap (requestAt s var ring sct shift k j))) :
    sampRun ring var shift s = some (writeInts s (off s.params ring)
      ((List.range (s.params.sectors ring)).map (answeredEntry s tap var ring shift))) := by
  refine sampRun_eq_some.mpr ⟨_, by rw [List.length_map, List.length_range], fun sct hsct => ?_, rfl⟩
  rw [sectorEntry, aggregate_sector (h sct hsct), List.getElem?_map, List.getElem?_range hsct]
  rfl

/-- `SAMP` in range on a ring whose entries can be made (R185). -/
theorem exec_samp_of_sampRun {s u : State} {ring var : BitVec 3} {shift : BitVec 11} (hr : InRange s (.samp ring var shift))
    (hu : sampRun ring.toNat var.toNat shift.toNat s = some u) :
    exec (.samp ring var shift) s = .next (complete .ok u) := by
  obtain ⟨hring, hvar, hshift⟩ := hr
  rw [exec_samp, execSamp, if_neg (by omega), hu]

/-- Settles O46: the entry of each sector is made of its sum and its count, and both fit their fields. -/
theorem sampWritesSumAndCount : Obligations.SampWritesSumAndCount := by
  intro s ring var shift tap
  refine ⟨fun hring hvar hshift hanswers => ?_, fun hout => exec_of_not_inRange (by simp only [InRange]; omega)⟩
  have hlen : ((List.range (s.params.sectors ring.toNat)).map
      (answeredEntry s tap var.toNat ring.toNat shift.toNat)).length = s.params.sectors ring.toNat := by
    rw [List.length_map, List.length_range]
  refine ⟨_, exec_samp_of_sampRun ⟨hring, hvar, hshift⟩ (sampRun_of_answers hanswers), rfl, fun sct hsct => ?_,
    fun p hp => ?_⟩
  · obtain ⟨hsum, hcnt⟩ := sector_fits (hanswers sct hsct)
    refine ⟨answeredEntry s tap var.toNat ring.toNat shift.toNat sct, ?_,
      (entryWord_sum _).trans (Nat.mod_eq_of_lt hsum), (entryWord_cnt _).trans (Nat.mod_eq_of_lt hcnt), entryWord_high _⟩
    rw [complete_ints, writeInts_ints, offset_eq, Memory.read_writeRun_inside (hlen.symm ▸ hsct), List.getElem_map,
      List.getElem_range]
  · rw [offset_eq] at hp
    exact Memory.read_writeRun_outside (hlen.symm ▸ hp)

end Sys2Proof.Machine
end

section
/-! PROOFS. The split search alone, and `THR` on rings of one intensity and of two (R191, R194). -/

namespace Sys2Proof.Machine

open Sys2Proof.Spec

/-- Settles O51: the best split of the candidates below 256 is the best split of all. -/
theorem histogramSplitIsTheBest : Obligations.HistogramSplitIsTheBest :=
  fun bins _ => isBestSplit_histogramSplit bins

/-- A percentile is taken at an entry that is there (R190). -/
theorem tenths_index_lt {tenths n : Nat} (ht : tenths < 10) (hn : 0 < n) : tenths * n / 10 < n :=
  Nat.div_lt_of_lt_mul (Nat.mul_lt_mul_of_pos_right ht hn)

/-! ### One intensity -/

/-- The biases above 1 (R7). -/
theorem one_lt_biasFactor_iff {i : Nat} (hi : i ≤ 4) : 1 < biasFactor i ↔ i = 2 ∨ i = 4 := by
  interval_cases i <;> norm_num [biasFactor]

/-- Every percentile of equal intensities is that intensity (R194). -/
theorem percentile_replicate {tenths n : Nat} (c : Rat) (ht : tenths < 10) (hn : 0 < n) :
    percentile tenths (List.replicate n c) = c := by
  refine percentile_eq (List.Perm.refl _) (List.pairwise_replicate.mpr (.inr le_rfl)) ?_
  rw [List.length_replicate, List.getElem?_replicate, if_pos (tenths_index_lt ht hn)]

/-- Bins that are all equal have no split (R191, R194). -/
theorem histogramSplit_replicate (n b : Nat) : histogramSplit (List.replicate n b) = 0 := by
  refine isBestSplit_unique (isBestSplit_histogramSplit _) (.inr ⟨rfl, fun t hs => ?_⟩)
  obtain ⟨-, ⟨x, hx, hxt⟩, y, hy, hty⟩ := hs
  rw [List.eq_of_mem_replicate hx] at hxt
  rw [List.eq_of_mem_replicate hy] at hty
  omega

theorem percentileThreshold_replicate {i n : Nat} (c : Rat) (hi : i ≤ 4) (hn : 0 < n) :
    percentileThreshold i (List.replicate n c) = c * biasFactor i := by
  rw [percentileThreshold, percentile_replicate c (by decide) hn, percentile_replicate c (by decide) hn, bias_eq hi,
    add_self_div_two]

theorem histogramThreshold_replicate (i n : Nat) (c : Rat) : histogramThreshold i (List.replicate n c) = 0 := by
  rw [histogramThreshold, List.map_replicate, histogramSplit_replicate, Nat.cast_zero, zero_mul]

/-- An intensity is below the threshold of a ring that has no other where the bias lifts the percentile above it (R194). -/
theorem lt_threshold_replicate_iff {mode : Mode} {i n : Nat} {c : Rat} (hi : i ≤ 4) (hn : 0 < n) (hc : 0 ≤ c) :
    c < threshold mode i (List.replicate n c) ↔ mode = .percentile ∧ 0 < c ∧ (i = 2 ∨ i = 4) := by
  cases mode with
  | percentile =>
    rw [threshold, percentileThreshold_replicate c hi hn, ← one_lt_biasFactor_iff hi]
    rcases hc.eq_or_lt with rfl | hpos
    · simp
    · rw [lt_mul_iff_one_lt_right hpos]
      simp [hpos]
  | histogram =>
    rw [threshold, histogramThreshold_replicate]
    simp [hc]

/-- Settles O53: every sector has intensity `c`, and the ring has a sector. -/
theorem thrOnAConstantRing : Obligations.ThrOnAConstantRing := by
  intro s ring i mode inv c hvalid hring hi hc hvals
  obtain ⟨t, ht, hended, hbits, -⟩ := thr_result (mode := mode) (inv := inv) hring hi hvals rfl
  have hn : 0 < s.params.sectors ring.toNat := (hvalid.1 _ (Nat.lt_succ_of_le hring)).1
  refine ⟨t, ht, by rw [hended]; rfl, fun j hj => ?_⟩
  rw [hbits j c (by rw [List.getElem?_replicate, if_pos hj])]
  simp only [lt_threshold_replicate_iff hi hn hc, ← BitVec.toNat_inj]
  rfl

/-! ### Intensities 0 and 255 -/

section
variable {vals : List Rat} (hv : ∀ v ∈ vals, v = 0 ∨ v = 255)
include hv

/-- The ascending arrangement of intensities 0 and 255. -/
theorem twoValued_perm :
    (List.replicate (vals.count 0) (0 : Rat) ++ List.replicate (vals.length - vals.count 0) 255).Perm vals := by
  have hperm := List.filter_append_perm (· == 0) vals
  have hhigh : vals.filter (fun v => !(v == 0)) = List.replicate (vals.length - vals.count 0) 255 := by
    have hlen := hperm.length_eq
    rw [List.length_append, ← List.countP_eq_length_filter, ← List.count] at hlen
    refine List.eq_replicate_iff.mpr ⟨by omega, fun v hmem => ?_⟩
    obtain ⟨hmem, hne⟩ := List.mem_filter.mp hmem
    exact (hv v hmem).resolve_left (by simpa using hne)
  rwa [List.filter_beq, hhigh] at hperm

/-- A percentile of intensities 0 and 255: 0 while the dark sectors last (R194). -/
theorem percentile_twoValued {tenths : Nat} (ht : tenths < 10) (hn : 0 < vals.length) :
    percentile tenths vals = if tenths * vals.length / 10 < vals.count 0 then 0 else 255 := by
  refine percentile_eq (twoValued_perm hv) ?_ ?_
  · refine List.pairwise_append.mpr ⟨List.pairwise_replicate.mpr (.inr le_rfl), List.pairwise_replicate.mpr (.inr le_rfl),
      fun a ha b hb => ?_⟩
    rw [List.eq_of_mem_replicate ha, List.eq_of_mem_replicate hb]
    norm_num
  · have hlt := tenths_index_lt ht hn
    rw [List.getElem?_append, List.length_replicate]
    split
    · next hdark => rw [List.getElem?_replicate, if_pos hdark]
    · rw [List.getElem?_replicate, if_pos (by omega)]

theorem percentile_twoValued_mem {tenths : Nat} (ht : tenths < 10) (hn : 0 < vals.length) :
    0 ≤ percentile tenths vals ∧ percentile tenths vals ≤ 255 := by
  rw [percentile_twoValued hv ht hn]
  split <;> norm_num

/-- A percentile is bright exactly where the dark sectors end at or before it (R194). -/
theorem percentile_twoValued_pos_iff {tenths : Nat} (ht : tenths < 10) (hn : 0 < vals.length) :
    0 < percentile tenths vals ↔ vals.count 0 ≤ tenths * vals.length / 10 := by
  rw [percentile_twoValued hv ht hn]
  split
  · next hdark => simpa using hdark
  · next hbright => simpa using hbright

theorem percentile_twoValued_mono {low high : Nat} (hle : low ≤ high) (hhigh : high < 10) (hn : 0 < vals.length) :
    percentile low vals ≤ percentile high vals := by
  have hindex : low * vals.length / 10 ≤ high * vals.length / 10 := Nat.div_le_div_right (Nat.mul_le_mul_right _ hle)
  rw [percentile_twoValued hv (hle.trans_lt hhigh) hn, percentile_twoValued hv hhigh hn]
  split_ifs with hlowdark _ hhighdark
  · exact le_rfl
  · norm_num
  · exact absurd (hindex.trans_lt hhighdark) hlowdark
  · exact le_rfl

end

/-- The biases of at most 1 (R7). -/
theorem biasFactor_pos_le_one {i : Nat} (hi : i = 0 ∨ i = 1 ∨ i = 3) :
    i ≤ 4 ∧ 0 < biasFactor i ∧ biasFactor i ≤ 1 := by
  rcases hi with rfl | rfl | rfl <;> norm_num [biasFactor]

/-- An intensity of 0 or 255 against the scaled midpoint of two percentiles from 0 to 255, with a bias of at most 1: 255 is
never below it, and 0 is below it where the upper percentile is not 0 (R194). -/
theorem lt_midpoint_iff_of_twoValued {v p30 p70 b : Rat} (hv : v = 0 ∨ v = 255) (h0 : 0 ≤ p30) (hle : p30 ≤ p70)
    (h255 : p70 ≤ 255) (hb : 0 < b) (hb1 : b ≤ 1) : v < (p30 + p70) / 2 * b ↔ v = 0 ∧ 0 < p70 := by
  rcases hv with rfl | rfl
  · rw [mul_pos_iff_of_pos_right hb]
    constructor
    · intro h
      exact ⟨rfl, by linarith⟩
    · rintro ⟨-, h⟩
      linarith
  · have hmid : (p30 + p70) / 2 * b ≤ 255 := calc
      (p30 + p70) / 2 * b ≤ (p30 + p70) / 2 := mul_le_of_le_one_right (by linarith) hb1
      _ ≤ 255 := by linarith
    simp [hmid]

/-- Settles O54: the upper percentile is 255 exactly where the dark sectors are at most `floor(7N/10)`. -/
theorem thrReadsATwoValuedRing : Obligations.ThrReadsATwoValuedRing := by
  intro s ring i inv vals hring hi hvals hv hdark hlight
  obtain ⟨hi4, hpos, hone⟩ := biasFactor_pos_le_one (i := i.toNat) (by simpa [← BitVec.toNat_inj] using hi)
  have hn : 0 < vals.length := hdark.trans hlight
  obtain ⟨t, ht, hended, hbits, -⟩ := thr_result (mode := .percentile) (inv := inv) hring hi4 hvals rfl
  refine ⟨t, ht, by rw [hended]; rfl, fun j v hj => ?_⟩
  have hmem := hv v (List.mem_of_getElem? hj)
  have hbit : v < threshold .percentile i.toNat vals ↔ v = 0 ∧ vals.count 0 ≤ 7 * vals.length / 10 := by
    rw [threshold, percentileThreshold, bias_eq hi4, ← percentile_twoValued_pos_iff hv (by decide) hn]
    exact lt_midpoint_iff_of_twoValued hmem (percentile_twoValued_mem hv (by decide) hn).1
      (percentile_twoValued_mono hv (by decide) (by decide) hn) (percentile_twoValued_mem hv (by decide) hn).2 hpos hone
  rw [hbits j v hj]
  simp only [hbit]

end Sys2Proof.Machine
end

section
/-! PROOFS. When a sweep completes and when it waits: it completes where the tap-fetch unit answers every request (R221),
and waits at a hypothesis with a silent request (R268). -/

namespace Sys2Proof.Machine

open Sys2Proof.Spec

/-! ### Every request answered -/

/-- The thirteen commands come to their end where the tap-fetch unit answers (R102, R221). -/
theorem runAll_byHand_of_answered {s : State} {h : Hypothesis} (hv : s.params.Valid) (hl : Legal s h)
    (ha : HypothesisAnswered s h) : ∃ v, runAll (byHand h) s = .next v := by
  obtain ⟨v, -, hrun, -⟩ := evaluate_byHand hv hl ha ⟨rfl, rfl, rfl, fun _ _ => ⟨rfl, rfl⟩⟩
  exact ⟨v, hrun⟩

/-- A search either exhausts its hypotheses or has a first one that validates (R214, R215). -/
theorem all_fail_or_first_validates {s : State} {nv : BitVec 3} (hv : s.params.Valid) (hn : nv.toNat ≤ 5)
    (ha : ∀ k < hypothesisTotal s nv, HypothesisAnswered s (hypothesisAt s k)) :
    (∀ k < hypothesisTotal s nv, Fails s (hypothesisAt s k)) ∨
    ∃ k u, k < hypothesisTotal s nv ∧ (∀ k' < k, Fails s (hypothesisAt s k')) ∧
      runAll (byHand (hypothesisAt s k)) s = .next u ∧ u.code = .ok := by
  classical
  refine or_iff_not_imp_left.mpr fun hnotall => ?_
  push Not at hnotall
  obtain ⟨k, ⟨hk, hnot⟩, hmin⟩ := Nat.findX hnotall
  obtain ⟨u, hrun⟩ := runAll_byHand_of_answered hv (legalAt hv hn hk) (ha k hk)
  exact ⟨k, u, hk, fun k' hk' => by_contra fun h => hmin k' hk' ⟨hk'.trans hk, h⟩, hrun,
    by_contra fun h => hnot ⟨u, hrun, h⟩⟩

/-- Settles O57: the search ends at its first hypothesis that validates, or is exhausted where there is none. -/
theorem sweepCompletesWhenAnswered : Obligations.SweepCompletesWhenAnswered := by
  intro s nv hv hn ha
  rcases all_fail_or_first_validates hv hn ha with hfails | ⟨k, u, hk, hbefore, hrun, hok⟩
  · obtain ⟨t, ht, hbusy, hdone, hcode, hmem, hout, -⟩ :=
      sweepExhaustsTheSearch s nv hv hn fun k hk => ⟨ha k hk, hfails k hk⟩
    exact ⟨t, ht, hbusy, hdone, .inr ⟨hcode, hout, hmem⟩⟩
  · obtain ⟨t, ht, hbusy, hdone, hcode, -⟩ :=
      sweepEndsAtTheFirstThatValidates s u nv k hv hn hk (fun k' hk' => ha k' (hk'.trans_lt hk)) hbefore hrun hok
    exact ⟨t, ht, hbusy, hdone, .inl hcode⟩

/-! ### A silent request -/

theorem exec_sweep_of_waiting {nv : BitVec 3} {s : State} {ev : List ProgressEvent} (hn : nv.toNat ≤ 5)
    (h : sweepRun nv s = .waiting ev) : exec (.sweep nv) s = .next { s with events := ev } := by
  rw [exec_sweep, execSweep, if_neg (Nat.not_lt.mpr hn), h]
  rfl

/-- In a running sweep a hypothesis is answered as it was where the sweep began. -/
theorem Going.hypothesisAnswered_iff {s u : State} (hu : Going s u) (h : Hypothesis) :
    HypothesisAnswered u h ↔ HypothesisAnswered s h := by
  unfold HypothesisAnswered RingAnswered
  rw [hu.params, hu.taps]

/-- An evaluation waits at a request that has no answer (R268). -/
theorem evaluate_of_not_answered {s : State} {h : Hypothesis} (ha : ¬ HypothesisAnswered s h) :
    evaluate h s = .waiting s.events := by
  have hsilent : sampRings h.var h.shift (List.range numRings) s = none := by
    unfold HypothesisAnswered at ha
    push Not at ha
    obtain ⟨r, hr, hring⟩ := ha
    exact sampRings_none ⟨r, List.mem_range.mpr hr, hring⟩
  rw [evaluate, hsilent]

/-- Settles O58: the hypotheses before rank `k` are passed over, and the evaluation of `k` waits. -/
theorem sweepWaitsForASilentUnit : Obligations.SweepWaitsForASilentUnit := by
  intro s nv k hv hn hk hbefore hsilent
  obtain ⟨u, rest, hgoing, -, hevents, -, hsweep⟩ := sweep_upTo hv hn hk hbefore
  have htry : tryHypotheses (hypothesisAt s k :: rest) u = .waiting u.events := by
    rw [tryHypotheses, evaluate_of_not_answered (mt (hgoing.hypothesisAnswered_iff _).mp hsilent)]
  rw [exec_sweep_of_waiting hn (hsweep _ (.inr ⟨_, rfl⟩) htry), hevents]

end Sys2Proof.Machine
end

section
/-! PROOFS. How a command ends: with a status code, or waiting for the tap-fetch unit; and the status that `ENCF` raises
(R230 to R235, R268). -/

namespace Sys2Proof.Machine

open Sys2Proof.Spec

/-! ### The codes of a completion -/

/-- `InsufficientBits` is not among the codes of `DECF`: a codeword that its level holds lies inside the bitstream (R143,
R235). -/
theorem decfRun_code {s u : State} {c : Code} (h : decfRun s = .ended c u) : c ≠ .noCode ∧ c ≠ .insufficientBits := by
  rcases decfRun_cases h with ⟨rfl, -⟩ | ⟨rfl | rfl | rfl, -⟩ <;> decide

theorem sweepRun_code {nv : BitVec 3} {s u : State} {c : Code} (h : sweepRun nv s = .ended c u) :
    c ≠ .noCode ∧ c ≠ .insufficientBits := by
  obtain ⟨-, -, -, -, ⟨rfl, -⟩ | ⟨rfl, -⟩⟩ := tryVariants_cases h <;> decide

theorem complete_status {c : Code} (u : State) (hc : c ≠ .noCode ∧ c ≠ .insufficientBits) :
    (complete c u).busy = false ∧ (complete c u).done = true ∧
      (complete c u).code ≠ .noCode ∧ (complete c u).code ≠ .insufficientBits :=
  ⟨rfl, rfl, hc⟩

/-- Settles O9: every answer of a command is a completion step, but for those of `SAMP` and `SWEEP` that wait. -/
theorem commandCompletesOrWaits : Obligations.CommandCompletesOrWaits := by
  intro i s t h
  cases i with
  | encf ecc => rcases execEncf_cases h with ⟨-, rfl⟩ | ⟨-, _, -, rfl⟩ <;> exact .inl (complete_status _ (by decide))
  | decf =>
    obtain ⟨c, u, hu, rfl⟩ := execDecf_cases h
    exact .inl (complete_status u (decfRun_code hu))
  | apred n => rcases execApred_cases h with ⟨-, rfl⟩ | ⟨-, -, _, -, rfl⟩ <;> exact .inl (complete_status _ (by decide))
  | valred n =>
    rcases execValred_cases h with ⟨-, rfl⟩ | ⟨-, _, -, ⟨_, -, rfl⟩ | ⟨_, -, -, rfl⟩⟩ <;>
      exact .inl (complete_status _ (by decide))
  | mapb idx => rcases execMapb_cases h with ⟨-, rfl⟩ | ⟨-, rfl⟩ <;> exact .inl (complete_status _ (by decide))
  | maps ring sector => rcases execMaps_cases h with ⟨-, rfl⟩ | ⟨-, -, rfl⟩ <;> exact .inl (complete_status _ (by decide))
  | samp ring var shift =>
    rcases execSamp_cases h with ⟨-, rfl⟩ | ⟨-, -, -, ⟨-, rfl⟩ | ⟨u, -, rfl⟩⟩
    · exact .inl (complete_status s (by decide))
    · exact .inr ⟨.inl ⟨ring, var, shift, rfl⟩, rfl⟩
    · exact .inl (complete_status u (by decide))
  | thr ring mode inv bias =>
    rcases execThr_cases h with ⟨-, rfl⟩ | ⟨-, -, _, -, rfl⟩ <;> exact .inl (complete_status _ (by decide))
  | sweep nv =>
    rcases execSweep_cases h with ⟨-, rfl⟩ | ⟨-, ⟨ev, -, rfl⟩ | ⟨c, u, hu, rfl⟩⟩
    · exact .inl (complete_status s (by decide))
    · exact .inr ⟨.inr ⟨nv, rfl⟩, rfl⟩
    · exact .inl (complete_status u (sweepRun_code hu))

/-! ### A text longer than its level holds -/

theorem exec_encf_of_too_long {s : State} {ecc : BitVec 2} (h : maxPayload ecc.toNat < s.txtLen.toNat) :
    exec (.encf ecc) s = .next (ended .payloadTooLarge s) := by
  rw [exec_encf, execEncf, if_pos h]
  rfl

/-- Settles O37: the length test comes first, and an `ENCF` that passes it completes with `OK`. -/
theorem encfRefusesALongerText : Obligations.EncfRefusesALongerText := by
  intro s ecc
  rw [← maxPayload_eq ecc.isLt]
  refine ⟨exec_encf_of_too_long, fun t h hcode => ?_⟩
  rcases execEncf_cases h with ⟨hlong, -⟩ | ⟨-, txt, -, rfl⟩
  · exact hlong
  · rw [complete_code] at hcode
    cases hcode

end Sys2Proof.Machine
end

section
/-! PROOFS. The tap-fetch unit under a running command: surfaces that change (R263, R267) and a request with no answer
(R268). -/

namespace Sys2Proof.Machine

open Sys2Proof.Spec

/-! ### Surfaces that change -/

/-- The legality the model tests is the table of R100. -/
theorem legal_eq_true_iff {s : State} {i : Instr} : legal s i = true ↔ InRange s i := by
  cases i with
  | apred n =>
    simp only [legal, Instr.wf, InRange, Bool.and_eq_true, decide_eq_true_eq]
    exact Iff.rfl
  | valred n =>
    simp only [legal, Instr.wf, InRange, Bool.true_and, decide_eq_true_eq]
    exact Iff.rfl
  | _ => simp [legal, Instr.wf, InRange, and_assoc]

theorem sampling_of_idle {s : State} (h : s.busy = false) : sampling s = false := by
  have hcmd : s.cmd = none := by simpa [State.busy] using h
  rw [sampling, hcmd]

/-- An accepted `SAMP` or `SWEEP` samples exactly where it is in range (R267). -/
theorem sampling_iff_inRange {s : State} {w : Word} {i : Instr} (hw : s.cmd = some w) (hdec : decode w = .ok i)
    (hi : (∃ r v a, i = .samp r v a) ∨ ∃ nv, i = .sweep nv) : sampling s = true ↔ InRange s i := by
  rw [← legal_eq_true_iff]
  rcases hi with ⟨r, v, a, rfl⟩ | ⟨nv, rfl⟩ <;> simp only [sampling, hw, hdec]

/-- What a change of surfaces does (R263, R267). -/
theorem step_surfaces {s : State} {u : TapUnit} {rest : List Input} (h : s.inputs = .surfaces u :: rest) :
    step s = if sampling s then .refused .surfacesChanged else .next { s with inputs := rest, taps := u } := by
  rw [step_of_input h]
  rfl

/-- Settles O27: a legal `SAMP` or `SWEEP` is sampling from its acceptance on, and an idle block is not. -/
theorem surfacesAreFrozenWhileSampling : Obligations.SurfacesAreFrozenWhileSampling := by
  intro s rest u h
  rw [step_surfaces h]
  exact ⟨fun w i hw hdec hrange hi => if_pos ((sampling_iff_inRange hw hdec hi).mpr hrange),
    fun hidle => if_neg (by rw [sampling_of_idle hidle]; decide)⟩

/-! ### A request with no answer -/

/-- Settles O47: in range, `SAMP` is not illegal, and the entries of the ring cannot be made. -/
theorem sampWaitsForASilentUnit : Obligations.SampWaitsForASilentUnit := by
  intro s ring var shift hring hvar hshift hsilent
  rw [exec_samp, execSamp, if_neg (by omega), sampRun_none.mpr hsilent]

end Sys2Proof.Machine
end
